-- ==== Sys2Proof/Word.lean ====
section
/-! DEFINITION. The widths of spec/00_scope.md R10: bytes, 32-bit registers, the 13-bit word address, the spec's
4-byte "word" and 16-byte "block". -/

namespace Sys2Proof

/-- An 8-bit unsigned value, also an element of GF(2^8) (00_scope.md R10). -/
abbrev Byte := BitVec 8

/-- A 32-bit register or window word (20_memory.md R83). -/
abbrev Word := BitVec 32

/-- A word address of the host port; the byte offset is four times it (20_memory.md R80, R83). -/
abbrev Addr := BitVec 13

/-- A field table of 256 bytes (10_state.md R48). -/
abbrev ByteTable := Vector Byte 256

end Sys2Proof

namespace Sys2Proof.Machine

/-- The spec's *word*, a sequence of 4 bytes `[b0, b1, b2, b3]` (00_scope.md R10). It is called a quad here because
`Word` is the 32-bit register that holds one packed. -/
@[ext] structure Quad where
  b0 : Byte
  b1 : Byte
  b2 : Byte
  b3 : Byte
  deriving DecidableEq, Repr

/-- The spec's *block* or *state*: 16 bytes held as the four columns `s[4c..4c+3]` (00_scope.md R10, R11). -/
@[ext] structure Block where
  c0 : Quad
  c1 : Quad
  c2 : Quad
  c3 : Quad
  deriving DecidableEq, Repr

end Sys2Proof.Machine
end

