-- ==== Sys2Proof/Syntax.lean ====
section
/-! DEFINITION. The command set: one constructor per row of the opcode map (30_encoding.md R116). -/

namespace Sys2Proof

/-- The 22 commands (30_encoding.md R116), in the order of the map. -/
inductive Instr where
  | nop
  | buildTables
  | gfAdd
  | gfXtime
  | gfMulLong
  | gfMul
  | gfInv
  | gfAffine
  | sboxLookup
  | invSboxLookup
  | rotWord
  | subWord
  | expandKey
  | subBytes
  | invSubBytes
  | shiftRows
  | invShiftRows
  | mixColumns
  | invMixColumns
  /-- `ADD_ROUND_KEY r`, with the round-key index `r` of the field RIDX (30_encoding.md R113). -/
  | addRoundKey (r : Nat)
  | encryptBlock
  | decryptBlock
  deriving DecidableEq, Repr

end Sys2Proof
end

