-- ==== Sys2Proof/WellFormed.lean ====
section
/-! DEFINITION. Which terms of `Instr` stand for a command word. -/

namespace Sys2Proof

/-- A command is well-formed when its operand fits its field. The only operand in a command word is RIDX, "a 4-bit
unsigned value, 0..15", every value of which is a legal encoding (30_encoding.md R113, R115). -/
def Instr.wellFormed : Instr → Bool
  | .nop => true
  | .buildTables => true
  | .gfAdd => true
  | .gfXtime => true
  | .gfMulLong => true
  | .gfMul => true
  | .gfInv => true
  | .gfAffine => true
  | .sboxLookup => true
  | .invSboxLookup => true
  | .rotWord => true
  | .subWord => true
  | .expandKey => true
  | .subBytes => true
  | .invSubBytes => true
  | .shiftRows => true
  | .invShiftRows => true
  | .mixColumns => true
  | .invMixColumns => true
  | .addRoundKey r => decide (r < 16)
  | .encryptBlock => true
  | .decryptBlock => true

end Sys2Proof
end

