-- ==== Sys2Proof/Decode.lean ====
section
/-! DEFINITION. The command word: its fields (30_encoding.md R110), the total decoder (R120), the encoder and the rows
of the opcode map (R116). -/

namespace Sys2Proof

/-- The field OP, bits [7:0] (30_encoding.md R111). -/
def cmdOp (v : Word) : BitVec 8 := v.extractLsb' 0 8

/-- The field INV, bit [8] (30_encoding.md R112). -/
def cmdInv (v : Word) : Bool := v.getLsbD 8

/-- The field RIDX, bits [19:16] (30_encoding.md R113). -/
def cmdRidx (v : Word) : BitVec 4 := v.extractLsb' 16 4

/-- The reserved bits [15:9] and [31:20] (30_encoding.md R114). -/
def cmdReserved (v : Word) : BitVec 19 := v.extractLsb' 20 12 ++ v.extractLsb' 9 7

/-- Why a command word is illegal (30_encoding.md R117). -/
inductive DecodeError where
  /-- A reserved bit is set (R114). -/
  | reservedBits
  /-- INV = 1 with an OP other than 0x30, 0x31, 0x32 (R112). -/
  | invNotAllowed
  /-- RIDX ≠ 0 with an OP other than 0x33 (R113). -/
  | ridxNotAllowed
  /-- An OP outside the opcode map (R111). -/
  | unassignedOp
  deriving DecidableEq, Repr

/-- The OPs that take neither INV nor RIDX (30_encoding.md R116, R120). -/
def decodePlainOp (op : BitVec 8) : Except DecodeError Instr :=
  match op.toNat with
  | 0x00 => .ok .nop
  | 0x01 => .ok .buildTables
  | 0x10 => .ok .gfAdd
  | 0x11 => .ok .gfXtime
  | 0x12 => .ok .gfMulLong
  | 0x13 => .ok .gfMul
  | 0x14 => .ok .gfInv
  | 0x15 => .ok .gfAffine
  | 0x16 => .ok .sboxLookup
  | 0x17 => .ok .invSboxLookup
  | 0x20 => .ok .rotWord
  | 0x21 => .ok .subWord
  | 0x22 => .ok .expandKey
  | 0x40 => .ok .encryptBlock
  | 0x41 => .ok .decryptBlock
  | _ => .error .unassignedOp

/-- The decoder, total on every 32-bit word, in the order of tests of 30_encoding.md R120. -/
def decode (v : Word) : Except DecodeError Instr :=
  if cmdReserved v ≠ 0 then .error .reservedBits
  else if cmdOp v = 0x33 then
    if cmdInv v then .error .invNotAllowed else .ok (.addRoundKey (cmdRidx v).toNat)
  else if cmdRidx v ≠ 0 then .error .ridxNotAllowed
  else if cmdOp v = 0x30 then .ok (if cmdInv v then .invSubBytes else .subBytes)
  else if cmdOp v = 0x31 then .ok (if cmdInv v then .invShiftRows else .shiftRows)
  else if cmdOp v = 0x32 then .ok (if cmdInv v then .invMixColumns else .mixColumns)
  else if cmdInv v then .error .invNotAllowed
  else decodePlainOp (cmdOp v)

/-- A command word from its fields, most significant first, reserved bits 0 (30_encoding.md R110). -/
def cmdWord (op : BitVec 8) (inv : Bool) (ridx : BitVec 4) : Word :=
  0#12 ++ ridx ++ 0#7 ++ BitVec.ofBool inv ++ op

/-- The encoder, by the OP, INV and RIDX columns of the opcode map (30_encoding.md R116). -/
def encode : Instr → Word
  | .nop => cmdWord 0x00 false 0
  | .buildTables => cmdWord 0x01 false 0
  | .gfAdd => cmdWord 0x10 false 0
  | .gfXtime => cmdWord 0x11 false 0
  | .gfMulLong => cmdWord 0x12 false 0
  | .gfMul => cmdWord 0x13 false 0
  | .gfInv => cmdWord 0x14 false 0
  | .gfAffine => cmdWord 0x15 false 0
  | .sboxLookup => cmdWord 0x16 false 0
  | .invSboxLookup => cmdWord 0x17 false 0
  | .rotWord => cmdWord 0x20 false 0
  | .subWord => cmdWord 0x21 false 0
  | .expandKey => cmdWord 0x22 false 0
  | .subBytes => cmdWord 0x30 false 0
  | .invSubBytes => cmdWord 0x30 true 0
  | .shiftRows => cmdWord 0x31 false 0
  | .invShiftRows => cmdWord 0x31 true 0
  | .mixColumns => cmdWord 0x32 false 0
  | .invMixColumns => cmdWord 0x32 true 0
  | .addRoundKey r => cmdWord 0x33 false (BitVec.ofNat 4 r)
  | .encryptBlock => cmdWord 0x40 false 0
  | .decryptBlock => cmdWord 0x41 false 0

/-- A row of the opcode map: the CMD word that selects a command, under a mask (30_encoding.md R116). -/
structure OpcodeRow where
  bits : Word
  mask : Word
  deriving DecidableEq, Repr

/-- Whether a command word matches a row. -/
def OpcodeRow.selects (row : OpcodeRow) (v : Word) : Bool := v &&& row.mask == row.bits

/-- The row of each command, as the map prints it (30_encoding.md R116). -/
def opcodeRow : Instr → OpcodeRow
  | .nop => ⟨0x00000000, 0xFFFFFFFF⟩
  | .buildTables => ⟨0x00000001, 0xFFFFFFFF⟩
  | .gfAdd => ⟨0x00000010, 0xFFFFFFFF⟩
  | .gfXtime => ⟨0x00000011, 0xFFFFFFFF⟩
  | .gfMulLong => ⟨0x00000012, 0xFFFFFFFF⟩
  | .gfMul => ⟨0x00000013, 0xFFFFFFFF⟩
  | .gfInv => ⟨0x00000014, 0xFFFFFFFF⟩
  | .gfAffine => ⟨0x00000015, 0xFFFFFFFF⟩
  | .sboxLookup => ⟨0x00000016, 0xFFFFFFFF⟩
  | .invSboxLookup => ⟨0x00000017, 0xFFFFFFFF⟩
  | .rotWord => ⟨0x00000020, 0xFFFFFFFF⟩
  | .subWord => ⟨0x00000021, 0xFFFFFFFF⟩
  | .expandKey => ⟨0x00000022, 0xFFFFFFFF⟩
  | .subBytes => ⟨0x00000030, 0xFFFFFFFF⟩
  | .invSubBytes => ⟨0x00000130, 0xFFFFFFFF⟩
  | .shiftRows => ⟨0x00000031, 0xFFFFFFFF⟩
  | .invShiftRows => ⟨0x00000131, 0xFFFFFFFF⟩
  | .mixColumns => ⟨0x00000032, 0xFFFFFFFF⟩
  | .invMixColumns => ⟨0x00000132, 0xFFFFFFFF⟩
  | .addRoundKey _ => ⟨0x00000033, 0xFFF0FFFF⟩
  | .encryptBlock => ⟨0x00000040, 0xFFFFFFFF⟩
  | .decryptBlock => ⟨0x00000041, 0xFFFFFFFF⟩

/-- The command word that a row number of the opcode table writes: its low `nbits` bits, the bits above them 0. -/
def tableWord (nbits w : Nat) : Word := BitVec.ofNat 32 (w % 2 ^ nbits)

/-- The command the decoder reads from a word of the opcode table (bit 0 the least significant of the one word). -/
def decodeTableWord (nbits w : Nat) : Option Instr :=
  match decode (tableWord nbits w) with
  | .ok i => some i
  | .error _ => none

end Sys2Proof
end

