-- ==== Sys2Proof/Config.lean ====
section
/-! DEFINITION. What the spec leaves open for an implementation, as free values with no body, and the default of the
one build option. -/

namespace Sys2Proof

/-- The OPEN parameter `LOG0`: what entry 0 of the LOG table holds after the build (00_scope.md R8, 40_gf28_arith.md
R145). Nothing constrains it (log 6). -/
opaque Config.log0 : Byte

/-- The free values that a read while `BUSY = 1` returns (70_reset_and_hazards.md R358: "any 32-bit value, free at each
read, under no law"). The step applies it to a counter that every such read advances (log 7). -/
opaque Config.draw : Nat → Word

/-- The default of the build option `TRACE_EN` (00_scope.md R8: "0 or 1; default 1"). State carries the option itself,
so that statements over every state cover both builds (log 5). -/
def Config.traceEnDefault : Bool := true

end Sys2Proof
end

