-- ==== Sys2Proof/Machine/State.lean ====
section
/-! DEFINITION. The architectural state (spec/10_state.md), the reasons a step can stop, and the state after reset
(10_state.md R51). State is plain data; INVENTORY.md lists every item with its rule. -/

namespace Sys2Proof.Machine

/-- The one fault of the spec (70_reset_and_hazards.md R360). The spec says what the model does with it: a sticky mark,
and the run goes on. So it is recorded in `State.faulted` and NO step answers it as an outcome. -/
inductive Fault where
  /-- A host write to `CMD` or another RW register while `BUSY = 1` (R356, R357). Raised by `hostWrite`, into the mark.
  What the hardware does after it is not specified, so a claim about a faulted state is UNSAFE (log 8). -/
  | hostWriteWhileBusy
  deriving DecidableEq, Repr

/-- Why a step has no meaning. -/
inductive Refusal where
  /-- A command not modelled yet, by its mnemonic. No arm of `exec` answers it now. Safe. -/
  | notModelled (mnemonic : String)
  /-- A port access the protocol does not allow, read and write in one cycle (93_implementation_defined.md I18:
  "refuse. The model has only single reads and single writes"). Raised by `performEvent`. Safe (log 12). -/
  | portProtocol
  deriving DecidableEq, Repr

/-- The error codes that an error completion reports (60_exceptions.md R321). Codes 5 to 15 are "never produced" and
have no constructor (log 14). -/
inductive ErrCode where
  | invalidKeySize
  | malformedBlock
  | illegalCommand
  | roundKeyUnavailable
  deriving DecidableEq, Repr

/-- The sequencer's phase register (10_state.md R30). -/
inductive Phase where
  | idle
  | check
  | build
  | expand
  | exec
  | commit
  deriving DecidableEq, Repr

/-- The key sizes in scope; Nk and Nr are functions of it (00_scope.md R3). -/
inductive KeySize where
  | aes128
  | aes192
  | aes256
  deriving DecidableEq, Repr

/-- A key schedule held in `W`: the key size that `STATUS.NK` and `STATUS.NR` report, and the packed words
(10_state.md R43). -/
structure Schedule where
  size : KeySize
  words : List Word
  deriving DecidableEq, Repr

/-- One entry of the S-box construction trace (10_state.md R47). -/
structure SbtEntry where
  inv : Byte
  rot1 : Byte
  rot2 : Byte
  rot3 : Byte
  rot4 : Byte
  sbox : Byte
  deriving DecidableEq, Repr

/-- The field tables and the trace their build leaves (10_state.md R47, R48). The trace is empty when `TRACE_EN = 0`. -/
structure FieldTables where
  exp : ByteTable
  log : ByteTable
  sbox : ByteTable
  invSbox : ByteTable
  sbt : List SbtEntry
  deriving DecidableEq, Repr

/-- One entry of the key-expansion trace; a field that the step does not produce is absent (10_state.md R45). -/
structure KtEntry where
  index : Nat
  tempIn : Quad
  rot : Option Quad
  sub : Option Quad
  rcon : Option Quad
  xor : Option Quad
  prev : Quad
  fin : Quad
  deriving DecidableEq, Repr

/-- The round key an entry of the round trace records, with its number RKIDX (10_state.md R44). -/
structure RoundKeyUse where
  idx : Nat
  key : Block
  deriving DecidableEq, Repr

/-- One entry of the round trace (10_state.md R44, 45_cipher_fsm.md R285). -/
structure CtEntry where
  start : Option Block := none
  afterSub : Option Block := none
  afterShift : Option Block := none
  afterMix : Option Block := none
  afterKey : Option Block := none
  roundKey : Option RoundKeyUse := none
  sentinel : Bool := false
  deriving DecidableEq, Repr

/-- The round trace with its direction `CT_DIR` (10_state.md R40, R44). -/
structure CipherTrace where
  decrypting : Bool
  entries : List CtEntry
  deriving DecidableEq, Repr

/-- The row-rotation trace with `RROT_INV`: for each row the snapshots after each single rotation, so that `COUNT` is
how many there are (10_state.md R46). -/
structure RowTrace where
  inverse : Bool
  rows : Vector (List Quad) 4
  deriving DecidableEq, Repr

/-- What a successful command writes when it commits; an absent item is not written (the "writes" column of
10_state.md R52). -/
structure Results where
  res : Option Word := none
  block : Option Block := none
  tables : Option FieldTables := none
  sched : Option Schedule := none
  kt : Option (List KtEntry) := none
  ct : Option CipherTrace := none
  rrot : Option RowTrace := none
  deriving DecidableEq, Repr

/-- The outcome a command commits: its results, or an error code (45_cipher_fsm.md R283). -/
abbrev CmdOutcome := Except ErrCode Results

/-- The operand copies taken at acceptance (45_cipher_fsm.md R281, 20_memory.md R94). -/
structure Captured where
  keylen : Word
  blklen : Word
  opa : Word
  opb : Word
  keyReg : Vector Word 8
  stateReg : Vector Word 4
  sched : Option Schedule
  tablesReady : Bool
  deriving DecidableEq, Repr

/-- The sequencer's hidden state (10_state.md R30, R49). -/
structure Sequencer where
  /-- `PHASE`. -/
  phase : Phase
  /-- `CUR`, the accepted command word. -/
  cur : Word
  /-- The operand copies. -/
  ops : Captured
  /-- `S`, the 128-bit working state. -/
  work : Block
  /-- `rnd`, the number of the cipher step that EXEC does next. -/
  rnd : Nat
  /-- `wi`, the index of the word that EXPAND makes next. -/
  wi : Nat
  /-- The tables staged by BUILD. -/
  stagedTables : Option FieldTables
  /-- The words EXPAND has made so far. -/
  stagedW : List Quad
  /-- Their trace entries. -/
  stagedKt : List KtEntry
  /-- The round-trace entries EXEC has made so far. -/
  stagedCt : List CtEntry
  /-- The last row-rotation trace EXEC has made. -/
  stagedRrot : Option RowTrace
  /-- The outcome that COMMIT writes. -/
  staged : CmdOutcome
  deriving DecidableEq, Repr

/-- What can happen next, as data: a host access (20_memory.md R88, R89), a reset (70_reset_and_hazards.md R350), or a
turn of the sequencer (45_cipher_fsm.md R280; log 2). -/
inductive HostEvent where
  /-- `MemRead` of the word at an address. -/
  | read (a : Addr)
  /-- `MemWrite` of a word at an address. -/
  | write (a : Addr) (v : Word)
  /-- Both strobes in one cycle, which the port protocol does not allow (93_implementation_defined.md I18). -/
  | readWrite (a : Addr) (v : Word)
  /-- `rst_n` asserted. -/
  | reset
  /-- The sequencer does one internal phase step. -/
  | tick
  /-- The sequencer finishes the command in flight: CHECK to COMMIT collapsed into one step (45_cipher_fsm.md R280). -/
  | complete
  deriving DecidableEq, Repr

/-- The machine's state: every item of spec/10_state.md, and the model's own `schedule`, `lastRead` and `draws`. -/
structure State where
  /-- The hardwired parameter `TRACE_EN`, `STATUS[31]` (00_scope.md R8). No step changes it. -/
  traceEn : Bool
  /-- `CMD` (R33). -/
  cmd : Word
  /-- `STATUS.DONE` (R34). -/
  done : Bool
  /-- `STATUS.ERR` with `ERRCODE`: none when `ERR = 0` (R34). -/
  error : Option ErrCode
  /-- `KEYLEN` (R35). -/
  keylen : Word
  /-- `BLKLEN` (R36). -/
  blklen : Word
  /-- `OPA` (R37). -/
  opa : Word
  /-- `OPB` (R38). -/
  opb : Word
  /-- `RES` (R39). -/
  res : Word
  /-- `KEY0`..`KEY7` (R41). -/
  keyReg : Vector Word 8
  /-- `STATE0`..`STATE3` (R42). -/
  stateReg : Vector Word 4
  /-- The field tables and SBT, absent while `TABLES_READY = 0` (R47, R48). -/
  tables : Option FieldTables
  /-- `W` with `NK` and `NR`, absent while `SCHED_VALID = 0` (R43). -/
  sched : Option Schedule
  /-- `KT`; `KT_LEN` is its length (R45). -/
  kt : List KtEntry
  /-- `CT` with `CT_DIR`; `CT_LEN` is the number of its entries (R44). -/
  ct : Option CipherTrace
  /-- `RROT` with `RROT_INV`, absent while `RROT_VALID = 0` (R46). -/
  rrot : Option RowTrace
  /-- The sequencer's hidden state (R30, R49). -/
  seq : Sequencer
  /-- The sticky fault mark (70_reset_and_hazards.md R360). -/
  faulted : Option Fault
  /-- The MODEL's own: what happens next, first first (log 2). -/
  schedule : List HostEvent
  /-- The MODEL's own: the last read's address and value (log 13). -/
  lastRead : Option (Addr × Word)
  /-- The MODEL's own: how many free values have been drawn (log 7). -/
  draws : Nat
  deriving DecidableEq, Repr

/-- Four zero bytes. -/
def zeroQuad : Quad := ⟨0, 0, 0, 0⟩

/-- Sixteen zero bytes. -/
def zeroBlock : Block := ⟨zeroQuad, zeroQuad, zeroQuad, zeroQuad⟩

/-- The sequencer at rest. R51 gives only `PHASE = IDLE`; the rest is "not observable; any value", and zero here
(DESIGN CHOICE, log 9). -/
def Sequencer.rest : Sequencer where
  phase := .idle
  cur := 0
  ops :=
    { keylen := 0, blklen := 0, opa := 0, opb := 0, keyReg := Vector.replicate 8 0, stateReg := Vector.replicate 4 0
      sched := none, tablesReady := false }
  work := zeroBlock
  rnd := 0
  wi := 0
  stagedTables := none
  stagedW := []
  stagedKt := []
  stagedCt := []
  stagedRrot := none
  staged := .ok {}

/-- The machine right after reset (10_state.md R51). -/
def State.reset : State where
  traceEn := Config.traceEnDefault
  cmd := 0x00000000
  done := false
  error := none
  keylen := 0x00000010
  blklen := 0x00000010
  opa := 0x00000000
  opb := 0x00000000
  res := 0x00000000
  keyReg := Vector.replicate 8 0x00000000
  stateReg := Vector.replicate 4 0x00000000
  tables := none
  sched := none
  kt := []
  ct := none
  rrot := none
  seq := Sequencer.rest
  faulted := none
  schedule := []
  lastRead := none
  draws := 0

end Sys2Proof.Machine
end

