-- ==== Sys2Proof/Machine/Bytes.lean ====
section
/-! DEFINITION. Byte order and packing (spec/00_scope.md R9 to R14), the matrix view of a block (R11), and the numbers
that go with a key size (R3). -/

namespace Sys2Proof.Machine

/-- `pack`: byte 0 in bits [31:24], byte 3 in bits [7:0] (00_scope.md R12). -/
def pack (q : Quad) : Word := q.b0 ++ q.b1 ++ q.b2 ++ q.b3

/-- `unpack`, its inverse (00_scope.md R12). -/
def unpack (v : Word) : Quad := ⟨v.extractLsb' 24 8, v.extractLsb' 16 8, v.extractLsb' 8 8, v.extractLsb' 0 8⟩

/-- `zext_32` of a byte (00_scope.md R12, R13). -/
def zext (b : Byte) : Word := b.setWidth 32

/-- The low byte of a register, `v[7:0]` (10_state.md R37, R38). -/
def lowByte (v : Word) : Byte := v.extractLsb' 0 8

/-- Bytewise XOR of two words (00_scope.md R13). -/
def Quad.xor (p q : Quad) : Quad := ⟨p.b0 ^^^ q.b0, p.b1 ^^^ q.b1, p.b2 ^^^ q.b2, p.b3 ^^^ q.b3⟩

/-- A byte function on every byte of a word. -/
def Quad.map (f : Byte → Byte) (q : Quad) : Quad := ⟨f q.b0, f q.b1, f q.b2, f q.b3⟩

/-- Bytewise XOR of two blocks (00_scope.md R13). -/
def Block.xor (s k : Block) : Block := ⟨s.c0.xor k.c0, s.c1.xor k.c1, s.c2.xor k.c2, s.c3.xor k.c3⟩

/-- A column function on every column of a block. -/
def Block.mapCols (f : Quad → Quad) (s : Block) : Block := ⟨f s.c0, f s.c1, f s.c2, f s.c3⟩

/-- A byte function on every byte of a block. -/
def Block.map (f : Byte → Byte) (s : Block) : Block := s.mapCols (Quad.map f)

/-- The columns of a block, 0 to 3. -/
def Block.cols (s : Block) : List Quad := [s.c0, s.c1, s.c2, s.c3]

/-- The bytes of a word, 0 to 3. -/
def Quad.bytes (q : Quad) : List Byte := [q.b0, q.b1, q.b2, q.b3]

/-- Byte `s[i]` of a block: `s[4c + r]` is byte r of column c (00_scope.md R11). An index above 15 gives 0. -/
def Block.byte (s : Block) (i : Nat) : Byte := (((s.cols[i / 4]?).map Quad.bytes).getD [])[i % 4]?.getD 0

/-- Row r of the matrix view, `[M[r][0], M[r][1], M[r][2], M[r][3]]` (00_scope.md R11). -/
def Block.row (s : Block) (r : Fin 4) : Quad :=
  match r with
  | 0 => ⟨s.c0.b0, s.c1.b0, s.c2.b0, s.c3.b0⟩
  | 1 => ⟨s.c0.b1, s.c1.b1, s.c2.b1, s.c3.b1⟩
  | 2 => ⟨s.c0.b2, s.c1.b2, s.c2.b2, s.c3.b2⟩
  | 3 => ⟨s.c0.b3, s.c1.b3, s.c2.b3, s.c3.b3⟩

/-- The block with the given matrix rows (00_scope.md R11). -/
def Block.ofRows (r0 r1 r2 r3 : Quad) : Block :=
  ⟨⟨r0.b0, r1.b0, r2.b0, r3.b0⟩, ⟨r0.b1, r1.b1, r2.b1, r3.b1⟩, ⟨r0.b2, r1.b2, r2.b2, r3.b2⟩,
    ⟨r0.b3, r1.b3, r2.b3, r3.b3⟩⟩

/-- The block held in four registers, column c in register c (00_scope.md R12). -/
def Block.ofRegs (v : Vector Word 4) : Block := ⟨unpack v[0], unpack v[1], unpack v[2], unpack v[3]⟩

/-- The four register images of a block (00_scope.md R12). -/
def Block.toRegs (s : Block) : Vector Word 4 := #v[pack s.c0, pack s.c1, pack s.c2, pack s.c3]

/-- Nk, the key length in words (00_scope.md R3). -/
def KeySize.nk : KeySize → Nat
  | .aes128 => 4
  | .aes192 => 6
  | .aes256 => 8

/-- Nr = Nk + 6, the number of rounds (00_scope.md R3). -/
def KeySize.nr (size : KeySize) : Nat := size.nk + 6

/-- How many words a schedule has, 4·(Nr + 1) (10_state.md R43). -/
def KeySize.words (size : KeySize) : Nat := 4 * (size.nr + 1)

/-- The 4-bit code of an error (60_exceptions.md R321). -/
def ErrCode.bits : ErrCode → BitVec 4
  | .invalidKeySize => 1
  | .malformedBlock => 2
  | .illegalCommand => 3
  | .roundKeyUnavailable => 4

end Sys2Proof.Machine
end

