-- ==== Sys2Proof/Machine/Flags.lean ====
section
/-! DEFINITION. The flags and the register images made of them: STATUS, TRACE_INFO, and the information words of the
traces (spec/10_state.md R34, R40, R44, R45). Each is written most significant field first, reserved bits 0. -/

namespace Sys2Proof.Machine

/-- `BUSY`: `PHASE ≠ IDLE` (10_state.md R30, R34). -/
def State.busy (s : State) : Bool := s.seq.phase != .idle

/-- `ERR` (10_state.md R34). -/
def State.errFlag (s : State) : Bool := s.error.isSome

/-- `ERRCODE`, 0 when `ERR = 0` (10_state.md R34, 60_exceptions.md R321). -/
def State.errCode (s : State) : BitVec 4 := (s.error.map ErrCode.bits).getD 0

/-- `TABLES_READY` (10_state.md R34, R48). -/
def State.tablesReady (s : State) : Bool := s.tables.isSome

/-- `SCHED_VALID` (10_state.md R34, R43). -/
def State.schedValid (s : State) : Bool := s.sched.isSome

/-- `NK`, 0 when `SCHED_VALID = 0` (10_state.md R34). -/
def State.nkField (s : State) : Nat := (s.sched.map (fun x => x.size.nk)).getD 0

/-- `NR`, 0 when `SCHED_VALID = 0` (10_state.md R34). -/
def State.nrField (s : State) : Nat := (s.sched.map (fun x => x.size.nr)).getD 0

/-- The value of `STATUS` (10_state.md R34). -/
def statusWord (s : State) : Word :=
  BitVec.ofBool s.traceEn ++ 0#3 ++ BitVec.ofNat 4 s.nrField ++ 0#4 ++ BitVec.ofNat 4 s.nkField ++ 0#6 ++
    BitVec.ofBool s.schedValid ++ BitVec.ofBool s.tablesReady ++ s.errCode ++ 0#1 ++ BitVec.ofBool s.errFlag ++
    BitVec.ofBool s.done ++ BitVec.ofBool s.busy

/-- `CT_LEN` (10_state.md R40). -/
def State.ctLen (s : State) : Nat := (s.ct.map (fun c => c.entries.length)).getD 0

/-- `CT_DIR`, 0 when there is no round trace (10_state.md R40). -/
def State.ctDir (s : State) : Bool := (s.ct.map (fun c => c.decrypting)).getD false

/-- `RROT_INV`, 0 when `RROT_VALID = 0` (10_state.md R40). -/
def State.rrotInv (s : State) : Bool := (s.rrot.map (fun r => r.inverse)).getD false

/-- The value of `TRACE_INFO`; it reads 0 when `TRACE_EN = 0` (10_state.md R40). -/
def traceInfoWord (s : State) : Word :=
  if s.traceEn then
    0#14 ++ BitVec.ofBool s.rrotInv ++ BitVec.ofBool s.rrot.isSome ++ 0#2 ++ BitVec.ofNat 6 s.kt.length ++
      BitVec.ofBool s.ctDir ++ 0#2 ++ BitVec.ofNat 5 s.ctLen
  else 0

/-- `CT_INFO` of a round-trace entry (10_state.md R44). -/
def ctInfo (e : CtEntry) : Word :=
  0#15 ++ BitVec.ofBool e.sentinel ++ 0#4 ++ BitVec.ofNat 4 ((e.roundKey.map (fun k => k.idx)).getD 0) ++ 0#2 ++
    BitVec.ofBool e.roundKey.isSome ++ BitVec.ofBool e.afterKey.isSome ++ BitVec.ofBool e.afterMix.isSome ++
    BitVec.ofBool e.afterShift.isSome ++ BitVec.ofBool e.afterSub.isSome ++ BitVec.ofBool e.start.isSome

/-- `KT_INFO` of a key-trace entry (10_state.md R45). -/
def ktInfo (e : KtEntry) : Word :=
  0#20 ++ BitVec.ofBool e.xor.isSome ++ BitVec.ofBool e.rcon.isSome ++ BitVec.ofBool e.sub.isSome ++
    BitVec.ofBool e.rot.isSome ++ 0#2 ++ BitVec.ofNat 6 e.index

end Sys2Proof.Machine
end

