-- ==== Sys2Proof/Machine/Field.lean ====
section
/-! DEFINITION. The GF(2^8) arithmetic of spec/40_gf28_arith.md §1 to §3: pure functions, used by the commands. -/

namespace Sys2Proof.Machine

/-- The reduction polynomial m(x) = x^8 + x^4 + x^3 + x + 1, bit k the coefficient of x^k (40_gf28_arith.md R140). -/
def fieldPolynomial : BitVec 16 := 0x011B

/-- The sum of `y·x^k` over the bits k below n of a byte. -/
def polySum : Nat → Byte → BitVec 16 → BitVec 16
  | 0, _, _ => 0
  | n + 1, a, y => polySum n a y ^^^ (if a.getLsbD n then y <<< n else 0)

/-- The product of the polynomial of a byte and a polynomial of degree at most 8, not reduced: what law 1 of
40_gf28_arith.md R148 reduces modulo m(x). -/
def polyProduct (a : Byte) (y : BitVec 16) : BitVec 16 := polySum 8 a y

/-- `add(a, b)`, bitwise XOR (40_gf28_arith.md R141). -/
def gfAdd (a b : Byte) : Byte := a ^^^ b

/-- `xtime(b)`, field doubling (40_gf28_arith.md R142). -/
def xtime (b : Byte) : Byte := if b.getLsbD 7 then (b <<< 1) ^^^ 0x1B else b <<< 1

/-- The loop of `multiplyLong`, with a bound on its iterations: a byte has 8 bits, so it runs at most 8 times
(40_gf28_arith.md R143). -/
def multiplyLoop : Nat → Byte → Byte → Byte → Byte
  | 0, _, _, acc => acc
  | n + 1, a, b, acc =>
    if a = 0 then acc
    else multiplyLoop n (a >>> 1) (xtime b) (if a.getLsbD 0 then acc ^^^ b else acc)

/-- `multiplyLong(a, b)`, the Russian-peasant product, accumulator from 0 (40_gf28_arith.md R143). -/
def multiplyLong (a b : Byte) : Byte := multiplyLoop 8 a b 0

/-- `n` successive powers of the generator 3, from `v` (40_gf28_arith.md R144). -/
def powersOfThree : Nat → Byte → List Byte
  | 0, _ => []
  | n + 1, v => v :: powersOfThree n (multiplyLong v 0x03)

theorem powersOfThree_length (n : Nat) (v : Byte) : (powersOfThree n v).length = n := by
  induction n generalizing v with
  | zero => rfl
  | succ n ih => simp [powersOfThree, ih]

/-- The exponent table: entries 0 to 254 are powers of 3, entry 255 is 1 (40_gf28_arith.md R144). -/
def expTable : ByteTable := ⟨(powersOfThree 255 0x01 ++ [0x01]).toArray, by simp [powersOfThree_length]⟩

/-- The discrete-log table: `LOG[EXP[k]] = k` for k from 0 to 255, increasing. Entry 0 is never written and holds the
open parameter `LOG0` (40_gf28_arith.md R145). -/
def logTable : ByteTable :=
  expTable.toList.zipIdx.foldl (fun t p => t.set p.1.toNat (BitVec.ofNat 8 p.2) p.1.isLt)
    (Vector.replicate 256 Config.log0)

/-- Entry `b` of a table. -/
def tableAt (t : ByteTable) (b : Byte) : Byte := t[b.toNat]'b.isLt

/-- The index of a product in the exponent table: the sum, formed as a natural number, before the mod
(40_gf28_arith.md R146, R148 law 6). -/
def productIndex (log : ByteTable) (a b : Byte) : Nat := ((tableAt log a).toNat + (tableAt log b).toNat) % 255

theorem productIndex_lt (log : ByteTable) (a b : Byte) : productIndex log a b < 255 := Nat.mod_lt _ (by decide)

/-- `multiply(a, b)` by the tables (40_gf28_arith.md R146). Its laws are those of R148. -/
def multiply (exp log : ByteTable) (a b : Byte) : Byte :=
  if a = 0 ∨ b = 0 then 0
  else exp[productIndex log a b]'(Nat.lt_succ_of_lt (productIndex_lt log a b))

/-- The index of an inverse in the exponent table (40_gf28_arith.md R147, R148 law 6). -/
def inverseIndex (log : ByteTable) (b : Byte) : Nat := 255 - (tableAt log b).toNat

theorem inverseIndex_le (log : ByteTable) (b : Byte) : inverseIndex log b ≤ 255 := Nat.sub_le _ _

/-- `invert(b)` by the tables, 0 for 0 (40_gf28_arith.md R147). Its laws are those of R148. -/
def invert (exp log : ByteTable) (b : Byte) : Byte :=
  if b = 0 then 0 else exp[inverseIndex log b]'(Nat.lt_succ_of_le (inverseIndex_le log b))

end Sys2Proof.Machine
end

