-- ==== Sys2Proof/Machine/Tables.lean ====
section
/-! DEFINITION. The affine transform, the S-boxes, the construction trace and the table build of
spec/41_sbox_lut.md §1, §2. -/

namespace Sys2Proof.Machine

/-- Output bit j of the affine transform (41_sbox_lut.md R170). -/
def affineBit (x : Byte) (j : Nat) : Bool :=
  x.getLsbD j ^^ x.getLsbD ((j + 4) % 8) ^^ x.getLsbD ((j + 5) % 8) ^^ x.getLsbD ((j + 6) % 8) ^^
    x.getLsbD ((j + 7) % 8) ^^ (0x63#8).getLsbD j

/-- `affine(x)`: the 8 output bits assembled, bit j at place j (41_sbox_lut.md R170). -/
def affine (x : Byte) : Byte :=
  (List.range 8).foldl (fun y j => y ||| ((BitVec.ofBool (affineBit x j)).setWidth 8 <<< j)) 0

/-- Every byte, from 0 to 255. -/
def allBytes : List Byte := (List.range 256).map (BitVec.ofNat 8)

/-- The S-box and inverse S-box: for every byte i, `y = affine(invert(i))`, `SBOX[i] = y`, `INVSBOX[y] = i`
(41_sbox_lut.md R171). -/
def sboxTables (exp log : ByteTable) : ByteTable × ByteTable :=
  allBytes.foldl
    (fun (t : ByteTable × ByteTable) i =>
      let y := affine (invert exp log i)
      (t.1.set i.toNat y i.isLt, t.2.set y.toNat i y.isLt))
    (Vector.replicate 256 0, Vector.replicate 256 0)

/-- Entry b of the construction trace (41_sbox_lut.md R174): the rotations are `rotl8(x, 1..4)`. -/
def sbtEntry (exp log sbox : ByteTable) (b : Byte) : SbtEntry :=
  let x := invert exp log b
  { inv := x, rot1 := x.rotateLeft 1, rot2 := x.rotateLeft 2, rot3 := x.rotateLeft 3, rot4 := x.rotateLeft 4
    sbox := tableAt sbox b }

/-- The table build (41_sbox_lut.md R175): EXP, LOG, SBOX, INVSBOX, and SBT when `TRACE_EN = 1`. -/
def buildTables (traceEn : Bool) : FieldTables :=
  let boxes := sboxTables expTable logTable
  { exp := expTable, log := logTable, sbox := boxes.1, invSbox := boxes.2
    sbt := if traceEn then allBytes.map (sbtEntry expTable logTable boxes.1) else [] }

end Sys2Proof.Machine
end

