-- ==== Sys2Proof/Machine/Expansion.lean ====
section
/-! DEFINITION. The key expansion of spec/42_key_schedule.md §2, §3. -/

namespace Sys2Proof.Machine

/-- `rotateWord` (42_key_schedule.md R201). -/
def rotateWord (q : Quad) : Quad := ⟨q.b1, q.b2, q.b3, q.b0⟩

/-- `substituteWord` (42_key_schedule.md R202). -/
def substituteWord (t : FieldTables) (q : Quad) : Quad := q.map (tableAt t.sbox)

/-- `n` doublings of 1 (42_key_schedule.md R203). -/
def doublings : Nat → Byte
  | 0 => 0x01
  | n + 1 => xtime (doublings n)

/-- `Rcon[j] = [rc, 0, 0, 0]` with rc = 1 at j = 1, doubled at each step. Index 0 is never read (42_key_schedule.md
R203; log 11). -/
def rcon (j : Nat) : Quad := ⟨doublings (j - 1), 0, 0, 0⟩

/-- The words and trace entries an expansion has made so far. -/
structure ExpandAcc where
  w : List Quad
  kt : List KtEntry
  deriving DecidableEq, Repr

/-- One pass of the expansion loop: word i and its trace entry (42_key_schedule.md R204, R205). -/
def expandWord (t : FieldTables) (nk i : Nat) (acc : ExpandAcc) : ExpandAcc :=
  let temp := acc.w.getD (i - 1) zeroQuad
  let prev := acc.w.getD (i - nk) zeroQuad
  if i % nk = 0 then
    let r := rotateWord temp
    let s := substituteWord t r
    let x := s.xor (rcon (i / nk))
    { w := acc.w ++ [prev.xor x]
      kt := acc.kt ++
        [{ index := i, tempIn := temp, rot := some r, sub := some s, rcon := some (rcon (i / nk)), xor := some x
           prev := prev, fin := prev.xor x }] }
  else if nk = 8 ∧ i % nk = 4 then
    let s := substituteWord t temp
    { w := acc.w ++ [prev.xor s]
      kt := acc.kt ++
        [{ index := i, tempIn := temp, rot := none, sub := some s, rcon := none, xor := none
           prev := prev, fin := prev.xor s }] }
  else
    { w := acc.w ++ [prev.xor temp]
      kt := acc.kt ++
        [{ index := i, tempIn := temp, rot := none, sub := none, rcon := none, xor := none
           prev := prev, fin := prev.xor temp }] }

/-- The first `n` passes of the expansion loop on a key (42_key_schedule.md R204). -/
def expandSteps (t : FieldTables) (nk : Nat) (key : List Quad) (n : Nat) : ExpandAcc :=
  (List.range' nk n).foldl (fun acc i => expandWord t nk i acc) { w := key, kt := [] }

/-- `Expand(key)`: word i for i from Nk to 4·(Nr + 1) − 1 (42_key_schedule.md R204). -/
def expand (t : FieldTables) (size : KeySize) (key : List Quad) : ExpandAcc :=
  expandSteps t size.nk key (size.words - size.nk)

/-- Round key r: words `4r .. 4r + 3`, one word per column (42_key_schedule.md R206). -/
def roundKey (w : List Quad) (r : Nat) : Block :=
  ⟨w.getD (4 * r) zeroQuad, w.getD (4 * r + 1) zeroQuad, w.getD (4 * r + 2) zeroQuad, w.getD (4 * r + 3) zeroQuad⟩

end Sys2Proof.Machine
end

