-- ==== Sys2Proof/Machine/Transform.lean ====
section
/-! DEFINITION. The four state primitives as functions on a block: spec/43_state_transform.md R231 to R233 and
spec/44_mixcolumns.md R260 to R262. -/

namespace Sys2Proof.Machine

/-- `SubBytes(s, isInverse)` (43_state_transform.md R231). -/
def subBytes (t : FieldTables) (inverse : Bool) (s : Block) : Block :=
  s.map (tableAt (if inverse then t.invSbox else t.sbox))

/-- How many single rotations ShiftRows applies to a row (43_state_transform.md R232). -/
def rotationCount (inverse : Bool) (r : Nat) : Nat :=
  if r = 0 then 0 else if inverse then 4 - r else r

/-- The row after each of `n` single-position left rotations (43_state_transform.md R232). -/
def rotationSnaps : Nat → Quad → List Quad
  | 0, _ => []
  | n + 1, q => rotateWord q :: rotationSnaps n (rotateWord q)

/-- The snapshots of row r of a state. -/
def rowSnaps (inverse : Bool) (s : Block) (r : Fin 4) : List Quad := rotationSnaps (rotationCount inverse r) (s.row r)

/-- Row r after all its rotations. -/
def shiftedRow (inverse : Bool) (s : Block) (r : Fin 4) : Quad := (rowSnaps inverse s r).getLastD (s.row r)

/-- The state part of `ShiftRows(s, isInverse)` (43_state_transform.md R232). -/
def shiftRows (inverse : Bool) (s : Block) : Block :=
  Block.ofRows (shiftedRow inverse s 0) (shiftedRow inverse s 1) (shiftedRow inverse s 2) (shiftedRow inverse s 3)

/-- The trace part of `ShiftRows(s, isInverse)` (43_state_transform.md R232, 10_state.md R46). -/
def shiftTrace (inverse : Bool) (s : Block) : RowTrace :=
  { inverse := inverse
    rows := #v[rowSnaps inverse s 0, rowSnaps inverse s 1, rowSnaps inverse s 2, rowSnaps inverse s 3] }

/-- `AddRoundKey(s, k)` (43_state_transform.md R233). -/
def addRoundKey (s k : Block) : Block := s.xor k

/-- The rows of the mixing matrix: the base row `[2,3,1,1]` or `[14,11,13,9]` rotated right by the row number
(44_mixcolumns.md R260). -/
def mixMatrix (inverse : Bool) : Fin 4 → Quad
  | 0 => if inverse then ⟨0x0E, 0x0B, 0x0D, 0x09⟩ else ⟨0x02, 0x03, 0x01, 0x01⟩
  | 1 => if inverse then ⟨0x09, 0x0E, 0x0B, 0x0D⟩ else ⟨0x01, 0x02, 0x03, 0x01⟩
  | 2 => if inverse then ⟨0x0D, 0x09, 0x0E, 0x0B⟩ else ⟨0x01, 0x01, 0x02, 0x03⟩
  | 3 => if inverse then ⟨0x0B, 0x0D, 0x09, 0x0E⟩ else ⟨0x03, 0x01, 0x01, 0x02⟩

/-- A matrix row times a column, with `multiply` and `add` (44_mixcolumns.md R261). -/
def mixRow (t : FieldTables) (m col : Quad) : Byte :=
  gfAdd (gfAdd (multiply t.exp t.log m.b0 col.b0) (multiply t.exp t.log m.b1 col.b1))
    (gfAdd (multiply t.exp t.log m.b2 col.b2) (multiply t.exp t.log m.b3 col.b3))

/-- `MixColumn(col, isInverse)` (44_mixcolumns.md R261). -/
def mixColumn (t : FieldTables) (inverse : Bool) (col : Quad) : Quad :=
  ⟨mixRow t (mixMatrix inverse 0) col, mixRow t (mixMatrix inverse 1) col, mixRow t (mixMatrix inverse 2) col,
    mixRow t (mixMatrix inverse 3) col⟩

/-- `MixColumns(s, isInverse)` (44_mixcolumns.md R262). -/
def mixColumns (t : FieldTables) (inverse : Bool) (s : Block) : Block := s.mapCols (mixColumn t inverse)

end Sys2Proof.Machine
end

