-- ==== Sys2Proof/Machine/Rounds.lean ====
section
/-! DEFINITION. Whole-block encryption and decryption with their round trace (spec/45_cipher_fsm.md R285 to R292). -/

namespace Sys2Proof.Machine

/-- What a cipher run has made so far: the state `s`, the trace entries, and the last row-rotation trace. -/
structure CipherAcc where
  s : Block
  ct : List CtEntry
  rrot : Option RowTrace
  deriving DecidableEq, Repr

/-- The terminal entry: only START, with `SENTINEL = 1` (45_cipher_fsm.md R285). -/
def sentinelEntry (t : Block) : CtEntry := { start := some t, sentinel := true }

/-- Step `round` of `Encrypt`, 0 to Nr (45_cipher_fsm.md R286): the initial AddRoundKey, a full round, or the final
round with no MixColumns, which also appends the sentinel. -/
def encryptRound (t : FieldTables) (nr : Nat) (w : List Quad) (round : Nat) (acc : CipherAcc) : CipherAcc :=
  let rk := roundKey w round
  if round = 0 then
    let k := addRoundKey acc.s rk
    { s := k
      ct := acc.ct ++ [{ start := some acc.s, afterKey := some k, roundKey := some ⟨round, rk⟩ }]
      rrot := acc.rrot }
  else if round < nr then
    let a := subBytes t false acc.s
    let b := shiftRows false a
    let m := mixColumns t false b
    let k := addRoundKey m rk
    { s := k
      ct := acc.ct ++
        [{ start := some acc.s, afterSub := some a, afterShift := some b, afterMix := some m, afterKey := some k
           roundKey := some ⟨round, rk⟩ }]
      rrot := some (shiftTrace false a) }
  else
    let a := subBytes t false acc.s
    let b := shiftRows false a
    let k := addRoundKey b rk
    { s := k
      ct := acc.ct ++
        [{ start := some acc.s, afterSub := some a, afterShift := some b, afterKey := some k
           roundKey := some ⟨round, rk⟩ }, sentinelEntry k]
      rrot := some (shiftTrace false a) }

/-- Step `e` of `Decrypt`, 0 to Nr, with the round key Nr − e (45_cipher_fsm.md R291): entry 0 with no InvMixColumns, a
full inverse round, or the final AddRoundKey, which also appends the sentinel. -/
def decryptRound (t : FieldTables) (nr : Nat) (w : List Quad) (e : Nat) (acc : CipherAcc) : CipherAcc :=
  let rk := roundKey w (nr - e)
  let k := addRoundKey acc.s rk
  if e = 0 then
    let b := shiftRows true k
    let a := subBytes t true b
    { s := a
      ct := acc.ct ++
        [{ start := some acc.s, afterKey := some k, afterShift := some b, afterSub := some a
           roundKey := some ⟨nr - e, rk⟩ }]
      rrot := some (shiftTrace true k) }
  else if e < nr then
    let m := mixColumns t true k
    let b := shiftRows true m
    let a := subBytes t true b
    { s := a
      ct := acc.ct ++
        [{ start := some acc.s, afterKey := some k, afterMix := some m, afterShift := some b, afterSub := some a
           roundKey := some ⟨nr - e, rk⟩ }]
      rrot := some (shiftTrace true m) }
  else
    { s := k
      ct := acc.ct ++
        [{ start := some acc.s, afterKey := some k, roundKey := some ⟨nr - e, rk⟩ }, sentinelEntry k]
      rrot := acc.rrot }

/-- One cipher step in either direction. -/
def cipherRound (decrypting : Bool) (t : FieldTables) (nr : Nat) (w : List Quad) (e : Nat) (acc : CipherAcc) :
    CipherAcc :=
  if decrypting then decryptRound t nr w e acc else encryptRound t nr w e acc

/-- The first `n` steps of a cipher run on block `p`. -/
def cipherSteps (decrypting : Bool) (t : FieldTables) (nr : Nat) (w : List Quad) (p : Block) (n : Nat) : CipherAcc :=
  (List.range n).foldl (fun acc e => cipherRound decrypting t nr w e acc) { s := p, ct := [], rrot := none }

/-- `Encrypt(p, w)` (45_cipher_fsm.md R286). -/
def encrypt (t : FieldTables) (nr : Nat) (w : List Quad) (p : Block) : CipherAcc := cipherSteps false t nr w p (nr + 1)

/-- `Decrypt(c, w)` (45_cipher_fsm.md R291). -/
def decrypt (t : FieldTables) (nr : Nat) (w : List Quad) (c : Block) : CipherAcc := cipherSteps true t nr w c (nr + 1)

end Sys2Proof.Machine
end

