-- ==== Sys2Proof/Machine/Operands.lean ====
section
/-! DEFINITION. The operand forms of spec/30_encoding.md R115, read from the copies taken at acceptance, the checks on
them (spec/45_cipher_fsm.md R284), and which command uses what (spec/10_state.md R52). -/

namespace Sys2Proof.Machine

/-- The byte operand `a = OPA[7:0]` (30_encoding.md R115). -/
def byteA (o : Captured) : Byte := lowByte o.opa

/-- The byte operand `b = OPB[7:0]` (30_encoding.md R115). -/
def byteB (o : Captured) : Byte := lowByte o.opb

/-- The word operand `x = unpack(OPA)` (30_encoding.md R115). -/
def wordX (o : Captured) : Quad := unpack o.opa

/-- The block operand, from `STATE0..STATE3` (30_encoding.md R115, 10_state.md R42). -/
def blockS (o : Captured) : Block := Block.ofRegs o.stateReg

/-- The key operand, `KEY0..KEY(Nk−1)`; the other key registers are ignored (10_state.md R41). -/
def keyWords (o : Captured) (size : KeySize) : List Quad := (o.keyReg.toList.take size.nk).map unpack

/-- `KeyConfig()`: Nk and Nr from `KEYLEN`, all 32 bits compared (42_key_schedule.md R200). -/
def keyConfig (o : Captured) : Except ErrCode KeySize :=
  if o.keylen = 16 then .ok .aes128
  else if o.keylen = 24 then .ok .aes192
  else if o.keylen = 32 then .ok .aes256
  else .error .invalidKeySize

/-- `CheckBlock()`: `BLKLEN = 16`, all 32 bits compared (43_state_transform.md R234). -/
def checkBlock (o : Captured) : Except ErrCode Unit :=
  if o.blklen = 16 then .ok () else .error .malformedBlock

/-- The round key r of the schedule in `W`, or RoundKeyUnavailable when there is no schedule or r > NR
(43_state_transform.md R239, 60_exceptions.md R326). -/
def roundKeyOperand (o : Captured) (r : Nat) : Except ErrCode Block :=
  match o.sched with
  | none => .error .roundKeyUnavailable
  | some sc => if sc.size.nr < r then .error .roundKeyUnavailable else .ok (roundKey (sc.words.map unpack) r)

/-- The commands that use the key (45_cipher_fsm.md R280, R284). -/
def usesKey : Instr → Bool
  | .expandKey => true
  | .encryptBlock => true
  | .decryptBlock => true
  | .nop => false
  | .buildTables => false
  | .gfAdd => false
  | .gfXtime => false
  | .gfMulLong => false
  | .gfMul => false
  | .gfInv => false
  | .gfAffine => false
  | .sboxLookup => false
  | .invSboxLookup => false
  | .rotWord => false
  | .subWord => false
  | .subBytes => false
  | .invSubBytes => false
  | .shiftRows => false
  | .invShiftRows => false
  | .mixColumns => false
  | .invMixColumns => false
  | .addRoundKey _ => false

/-- The commands that use the state (45_cipher_fsm.md R284). -/
def usesBlock : Instr → Bool
  | .subBytes => true
  | .invSubBytes => true
  | .shiftRows => true
  | .invShiftRows => true
  | .mixColumns => true
  | .invMixColumns => true
  | .addRoundKey _ => true
  | .encryptBlock => true
  | .decryptBlock => true
  | .nop => false
  | .buildTables => false
  | .gfAdd => false
  | .gfXtime => false
  | .gfMulLong => false
  | .gfMul => false
  | .gfInv => false
  | .gfAffine => false
  | .sboxLookup => false
  | .invSboxLookup => false
  | .rotWord => false
  | .subWord => false
  | .expandKey => false

/-- The commands that need the tables, BUILD_TABLES among them (10_state.md R52). -/
def needsTables : Instr → Bool
  | .buildTables => true
  | .gfMul => true
  | .gfInv => true
  | .sboxLookup => true
  | .invSboxLookup => true
  | .subWord => true
  | .expandKey => true
  | .subBytes => true
  | .invSubBytes => true
  | .mixColumns => true
  | .invMixColumns => true
  | .encryptBlock => true
  | .decryptBlock => true
  | .nop => false
  | .gfAdd => false
  | .gfXtime => false
  | .gfMulLong => false
  | .gfAffine => false
  | .rotWord => false
  | .shiftRows => false
  | .invShiftRows => false
  | .addRoundKey _ => false

/-- The check on the round key, for ADD_ROUND_KEY only (45_cipher_fsm.md R284, test 4). -/
def checkRoundKey (o : Captured) : Instr → Except ErrCode Unit
  | .addRoundKey r => (roundKeyOperand o r).map (fun _ => ())
  | _ => .ok ()

/-- The tests 2 to 4 of 45_cipher_fsm.md R284 on a decoded command, in that order (60_exceptions.md R327). -/
def checkCommand (i : Instr) (o : Captured) : Except ErrCode Unit := do
  if usesKey i then
    let _ ← keyConfig o
  if usesBlock i then
    checkBlock o
  checkRoundKey o i

end Sys2Proof.Machine
end

