-- ==== Sys2Proof/Machine/Ops.lean ====
section
/-! DEFINITION. The shared operations: the address map with host reads and writes (spec/20_memory.md), acceptance,
commit and error completion (spec/45_cipher_fsm.md R281, R283; spec/60_exceptions.md R325), the table build a command
needs (spec/41_sbox_lut.md R175), and reset (spec/70_reset_and_hazards.md R350). -/

namespace Sys2Proof.Machine

/-! ## Command lifecycle -/

/-- The operand copies that acceptance takes (45_cipher_fsm.md R281, 20_memory.md R94). -/
def capture (s : State) : Captured where
  keylen := s.keylen
  blklen := s.blklen
  opa := s.opa
  opb := s.opb
  keyReg := s.keyReg
  stateReg := s.stateReg
  sched := s.sched
  tablesReady := s.tablesReady

/-- `submit(v)`, acceptance of a command word (45_cipher_fsm.md R281). Every word is accepted. -/
def accept (v : Word) (s : State) : State :=
  { s with
    cmd := v
    done := false
    error := none
    seq := { Sequencer.rest with phase := .check, cur := v, ops := capture s } }

/-- `commit(outcome)` in one indivisible step (45_cipher_fsm.md R283). On success every staged result is written. On an
error, the spec's whole "trap entry" (60_exceptions.md R325, R328), only `ERR`, `ERRCODE`, `DONE` and `BUSY` change. The
hidden registers go back to rest (log 9). Tables that are already built are never written again (41_sbox_lut.md R180). -/
def commit (o : CmdOutcome) (s : State) : State :=
  match o with
  | .ok r =>
    { s with
      res := r.res.getD s.res
      stateReg := (r.block.map Block.toRegs).getD s.stateReg
      tables := s.tables.or r.tables
      sched := r.sched.or s.sched
      kt := r.kt.getD s.kt
      ct := r.ct.or s.ct
      rrot := r.rrot.or s.rrot
      done := true
      error := none
      seq := Sequencer.rest }
  | .error c => { s with done := true, error := some c, seq := Sequencer.rest }

/-- The tables a command reads: the built ones, else the staged ones, else a fresh build (41_sbox_lut.md R175). -/
def ensureTables (s : State) : FieldTables := s.tables.getD (s.seq.stagedTables.getD (buildTables s.traceEn))

/-- A trace is a result only when `TRACE_EN = 1` (10_state.md R52). -/
def ifTraced {α : Type} (s : State) (x : α) : Option α := if s.traceEn then some x else none

/-! ## The address map -/

/-- What stands at a word address (20_memory.md R81). -/
inductive Item where
  | cmd
  | status
  | keylen
  | blklen
  | opa
  | opb
  | res
  | traceInfo
  | key (j : Fin 8)
  | stateCol (c : Fin 4)
  | w (i : Fin 60)
  | rrot (r : Fin 4) (k : Nat)
  | sbox (b : Fin 256)
  | invSbox (b : Fin 256)
  | exp (k : Fin 256)
  | log (b : Fin 256)
  | ct (e : Nat) (k : Nat)
  | kt (j : Nat) (k : Nat)
  | sbt (b : Nat) (k : Nat)
  | reserved
  deriving DecidableEq, Repr

/-- The address map by word address, a quarter of the byte offset (20_memory.md R81). -/
def itemAt (a : Addr) : Item :=
  let n := a.toNat
  if n = 0x0000 / 4 then .cmd
  else if n = 0x0004 / 4 then .status
  else if n = 0x0008 / 4 then .keylen
  else if n = 0x000C / 4 then .blklen
  else if n = 0x0010 / 4 then .opa
  else if n = 0x0014 / 4 then .opb
  else if n = 0x0018 / 4 then .res
  else if n = 0x001C / 4 then .traceInfo
  else if h : 0x0020 / 4 ≤ n ∧ n < 0x0040 / 4 then .key ⟨n - 0x0020 / 4, by omega⟩
  else if h : 0x0040 / 4 ≤ n ∧ n < 0x0050 / 4 then .stateCol ⟨n - 0x0040 / 4, by omega⟩
  else if h : 0x0100 / 4 ≤ n ∧ n < 0x01F0 / 4 then .w ⟨n - 0x0100 / 4, by omega⟩
  else if h : 0x0200 / 4 ≤ n ∧ n < 0x0240 / 4 then .rrot ⟨(n - 0x0200 / 4) / 4, by omega⟩ (n % 4)
  else if h : 0x0400 / 4 ≤ n ∧ n < 0x0800 / 4 then .sbox ⟨n - 0x0400 / 4, by omega⟩
  else if h : 0x0800 / 4 ≤ n ∧ n < 0x0C00 / 4 then .invSbox ⟨n - 0x0800 / 4, by omega⟩
  else if h : 0x0C00 / 4 ≤ n ∧ n < 0x1000 / 4 then .exp ⟨n - 0x0C00 / 4, by omega⟩
  else if h : 0x1000 / 4 ≤ n ∧ n < 0x1400 / 4 then .log ⟨n - 0x1000 / 4, by omega⟩
  else if 0x2000 / 4 ≤ n ∧ n < 0x2800 / 4 then .ct ((n - 0x2000 / 4) / 32) (n % 32)
  else if 0x3000 / 4 ≤ n ∧ n < 0x3680 / 4 then .kt ((n - 0x3000 / 4) / 8) (n % 8)
  else if 0x4000 / 4 ≤ n ∧ n < 0x6000 / 4 then .sbt ((n - 0x4000 / 4) / 8) (n % 8)
  else .reserved

/-- The address of `CMD`. -/
def cmdAddr : Addr := 0x0000 / 4

/-- The address of `STATUS`. -/
def statusAddr : Addr := 0x0004 / 4

/-- The address of `RES`. -/
def resAddr : Addr := 0x0018 / 4

/-! ## Host reads -/

/-- Word k of row r of the RROT window: COUNT, then the snapshots, absent ones 0 (10_state.md R46). -/
def rrotWord (snaps : List Quad) (k : Nat) : Word :=
  if k = 0 then BitVec.ofNat 32 snaps.length else ((snaps[k - 1]?).map pack).getD 0

/-- Column c of an optional block, 0 when absent (10_state.md R44). -/
def columnWord (b : Option Block) (c : Nat) : Word := (b.bind (fun x => (x.cols[c]?).map pack)).getD 0

/-- Word k of a round-trace entry, by the offsets of 10_state.md R44. -/
def ctWord (e : CtEntry) (k : Nat) : Word :=
  if k = 0 then ctInfo e
  else if k / 4 = 1 then columnWord e.start (k % 4)
  else if k / 4 = 2 then columnWord e.afterSub (k % 4)
  else if k / 4 = 3 then columnWord e.afterShift (k % 4)
  else if k / 4 = 4 then columnWord e.afterMix (k % 4)
  else if k / 4 = 5 then columnWord e.afterKey (k % 4)
  else if k / 4 = 6 then columnWord (e.roundKey.map (fun u => u.key)) (k % 4)
  else 0

/-- A packed word, 0 when absent (10_state.md R45). -/
def optWord (q : Option Quad) : Word := (q.map pack).getD 0

/-- Word k of a key-trace entry, by the offsets of 10_state.md R45. -/
def ktWord (e : KtEntry) (k : Nat) : Word :=
  match k with
  | 0 => ktInfo e
  | 1 => pack e.tempIn
  | 2 => optWord e.rot
  | 3 => optWord e.sub
  | 4 => optWord e.rcon
  | 5 => optWord e.xor
  | 6 => pack e.prev
  | 7 => pack e.fin
  | _ => 0

/-- Word k of an S-box construction entry, by the offsets of 10_state.md R47. -/
def sbtWord (e : SbtEntry) (k : Nat) : Word :=
  match k with
  | 0 => zext e.inv
  | 1 => zext e.rot1
  | 2 => zext e.rot2
  | 3 => zext e.rot3
  | 4 => zext e.rot4
  | 5 => zext e.sbox
  | _ => 0

/-- A window of the tables reads 0 while `TABLES_READY = 0` (20_memory.md R87). -/
def tableWindow (s : State) (read : FieldTables → Word) : Word := (s.tables.map read).getD 0

/-- A trace window is reserved, and reads 0, when `TRACE_EN = 0` (20_memory.md R81). -/
def traceWindow (s : State) (w : Word) : Word := if s.traceEn then w else 0

/-- Entry i of the W window: 0 at or above `4·(NR + 1)` and while `SCHED_VALID = 0` (10_state.md R43). -/
def wWindow (s : State) (i : Nat) : Word :=
  match s.sched with
  | none => 0
  | some sc => if i < sc.size.words then sc.words.getD i 0 else 0

/-- The 32-bit value of an item: the register, or the window word if its valid bit is set, else 0 (20_memory.md R87,
R88). -/
def itemValue (s : State) : Item → Word
  | .cmd => s.cmd
  | .status => statusWord s
  | .keylen => s.keylen
  | .blklen => s.blklen
  | .opa => s.opa
  | .opb => s.opb
  | .res => s.res
  | .traceInfo => traceInfoWord s
  | .key j => s.keyReg[j]
  | .stateCol c => s.stateReg[c]
  | .w i => wWindow s i
  | .rrot r k => traceWindow s ((s.rrot.map (fun t => rrotWord t.rows[r] k)).getD 0)
  | .sbox b => tableWindow s (fun t => zext t.sbox[b])
  | .invSbox b => tableWindow s (fun t => zext t.invSbox[b])
  | .exp k => tableWindow s (fun t => zext t.exp[k])
  | .log b => tableWindow s (fun t => zext t.log[b])
  | .ct e k => traceWindow s (((s.ct.bind (fun c => c.entries[e]?)).map (fun x => ctWord x k)).getD 0)
  | .kt j k => traceWindow s (((s.kt[j]?).map (fun x => ktWord x k)).getD 0)
  | .sbt b k => traceWindow s (tableWindow s (fun t => ((t.sbt[b]?).map (fun x => sbtWord x k)).getD 0))
  | .reserved => 0

/-- The value at an address: `MemRead(4·a, 4)` while the core is idle (20_memory.md R88). It changes no state. -/
def memRead (s : State) (a : Addr) : Word := itemValue s (itemAt a)

/-- The offsets with a defined value while `BUSY = 1` (70_reset_and_hazards.md R358). -/
def definedWhileBusy : Item → Bool
  | .cmd => true
  | .status => true
  | _ => false

/-- Whether a read gives a draw: any offset but `CMD` and `STATUS` while `BUSY = 1` (20_memory.md R88). -/
def readIsDraw (s : State) (a : Addr) : Bool := s.busy && !definedWhileBusy (itemAt a)

/-- `MemRead(4·a, 4)`: the defined value, or a fresh free value (20_memory.md R88, log 7). -/
def readValue (s : State) (a : Addr) : Word := if readIsDraw s a then Config.draw s.draws else memRead s a

/-- A host read, its value left in `lastRead`; a draw advances the counter (70_reset_and_hazards.md R358, 20_memory.md
R88). -/
def hostRead (a : Addr) (s : State) : State :=
  { s with
    lastRead := some (a, readValue s a)
    draws := if readIsDraw s a then s.draws + 1 else s.draws }

/-! ## Host writes -/

/-- The RW registers (10_state.md R32). -/
def Item.writable : Item → Bool
  | .cmd => true
  | .keylen => true
  | .blklen => true
  | .opa => true
  | .opb => true
  | .key _ => true
  | .stateCol _ => true
  | _ => false

/-- A write while idle: `CMD` submits, the other RW registers store, everything else ignores it (20_memory.md R89). -/
def writeItem (v : Word) (s : State) : Item → State
  | .cmd => accept v s
  | .keylen => { s with keylen := v }
  | .blklen => { s with blklen := v }
  | .opa => { s with opa := v }
  | .opb => { s with opb := v }
  | .key j => { s with keyReg := s.keyReg.set j v }
  | .stateCol c => { s with stateReg := s.stateReg.set c v }
  | .status => s
  | .res => s
  | .traceInfo => s
  | .w _ => s
  | .rrot _ _ => s
  | .sbox _ => s
  | .invSbox _ => s
  | .exp _ => s
  | .log _ => s
  | .ct _ _ => s
  | .kt _ _ => s
  | .sbt _ _ => s
  | .reserved => s

/-- A host write, `MemWrite(4·a, 4, v)` (20_memory.md R89). A write to an RW register while busy is the fault
HostWriteWhileBusy: the sticky mark is set and nothing else changes (70_reset_and_hazards.md R356, R357, R360). -/
def hostWrite (a : Addr) (v : Word) (s : State) : State :=
  if s.busy then
    if (itemAt a).writable then { s with faulted := some .hostWriteWhileBusy } else s
  else writeItem v s (itemAt a)

/-! ## Reset -/

/-- The reset event, enabled at any time, even while busy (70_reset_and_hazards.md R350, R351). Every item takes its
reset value; the hardwired `TRACE_EN` stays, and so does the sticky fault mark ("no later step clears, not even reset",
R360) and the model's own fields (log 16). -/
def resetEvent (s : State) : State :=
  { State.reset with
    traceEn := s.traceEn
    faulted := s.faulted
    schedule := s.schedule
    lastRead := s.lastRead
    draws := s.draws }

end Sys2Proof.Machine
end

