-- ==== Sys2Proof/Machine/GfArith.lean ====
section
/-! DEFINITION. The commands of gf28_arith_engine (spec/40_gf28_arith.md §4): the outcome of each, computed from the
operand copies, and its meaning, which commits that outcome. -/

namespace Sys2Proof.Machine

/-- The outcome of a primitive whose only result is `RES`, with no table. -/
def resultOnly (v : Word) : CmdOutcome := .ok { res := some v }

/-- The outcome of a primitive whose result is `RES` and which needs the tables (41_sbox_lut.md R175). -/
def resultWithTables (s : State) (v : FieldTables → Word) : CmdOutcome :=
  .ok { res := some (v (ensureTables s)), tables := some (ensureTables s) }

/-- GF_ADD: `RES <- zext_32(add(a, b))` (40_gf28_arith.md R149). -/
def gfAddOutcome (s : State) : CmdOutcome := resultOnly (zext (gfAdd (byteA s.seq.ops) (byteB s.seq.ops)))

/-- GF_ADD (40_gf28_arith.md R149). -/
def execGfAdd (s : State) : Host.Outcome State Fault Refusal := .next (commit (gfAddOutcome s) s)

/-- GF_XTIME: `RES <- zext_32(xtime(a))` (40_gf28_arith.md R150). -/
def gfXtimeOutcome (s : State) : CmdOutcome := resultOnly (zext (xtime (byteA s.seq.ops)))

/-- GF_XTIME (40_gf28_arith.md R150). -/
def execGfXtime (s : State) : Host.Outcome State Fault Refusal := .next (commit (gfXtimeOutcome s) s)

/-- GF_MUL_LONG: `RES <- zext_32(multiplyLong(a, b))` (40_gf28_arith.md R151). -/
def gfMulLongOutcome (s : State) : CmdOutcome := resultOnly (zext (multiplyLong (byteA s.seq.ops) (byteB s.seq.ops)))

/-- GF_MUL_LONG (40_gf28_arith.md R151). -/
def execGfMulLong (s : State) : Host.Outcome State Fault Refusal := .next (commit (gfMulLongOutcome s) s)

/-- GF_MUL: `EnsureTables(); RES <- zext_32(multiply(a, b))` (40_gf28_arith.md R152). -/
def gfMulOutcome (s : State) : CmdOutcome :=
  resultWithTables s (fun t => zext (multiply t.exp t.log (byteA s.seq.ops) (byteB s.seq.ops)))

/-- GF_MUL (40_gf28_arith.md R152). -/
def execGfMul (s : State) : Host.Outcome State Fault Refusal := .next (commit (gfMulOutcome s) s)

/-- GF_INV: `EnsureTables(); RES <- zext_32(invert(a))` (40_gf28_arith.md R153). -/
def gfInvOutcome (s : State) : CmdOutcome :=
  resultWithTables s (fun t => zext (invert t.exp t.log (byteA s.seq.ops)))

/-- GF_INV (40_gf28_arith.md R153). -/
def execGfInv (s : State) : Host.Outcome State Fault Refusal := .next (commit (gfInvOutcome s) s)

end Sys2Proof.Machine
end

