-- ==== Sys2Proof/Machine/SboxLut.lean ====
section
/-! DEFINITION. The commands of aes_sbox_lut (spec/41_sbox_lut.md §2). -/

namespace Sys2Proof.Machine

/-- BUILD_TABLES: `EnsureTables()` (41_sbox_lut.md R176). -/
def buildTablesOutcome (s : State) : CmdOutcome := .ok { tables := some (ensureTables s) }

/-- BUILD_TABLES (41_sbox_lut.md R176). -/
def execBuildTables (s : State) : Host.Outcome State Fault Refusal := .next (commit (buildTablesOutcome s) s)

/-- GF_AFFINE: `RES <- zext_32(affine(a))`; it needs no table (41_sbox_lut.md R177). -/
def gfAffineOutcome (s : State) : CmdOutcome := resultOnly (zext (affine (byteA s.seq.ops)))

/-- GF_AFFINE (41_sbox_lut.md R177). -/
def execGfAffine (s : State) : Host.Outcome State Fault Refusal := .next (commit (gfAffineOutcome s) s)

/-- SBOX_LOOKUP: `EnsureTables(); RES <- zext_32(SBOX[a])` (41_sbox_lut.md R178). -/
def sboxLookupOutcome (s : State) : CmdOutcome :=
  resultWithTables s (fun t => zext (tableAt t.sbox (byteA s.seq.ops)))

/-- SBOX_LOOKUP (41_sbox_lut.md R178). -/
def execSboxLookup (s : State) : Host.Outcome State Fault Refusal := .next (commit (sboxLookupOutcome s) s)

/-- INV_SBOX_LOOKUP: `EnsureTables(); RES <- zext_32(INVSBOX[a])` (41_sbox_lut.md R179). -/
def invSboxLookupOutcome (s : State) : CmdOutcome :=
  resultWithTables s (fun t => zext (tableAt t.invSbox (byteA s.seq.ops)))

/-- INV_SBOX_LOOKUP (41_sbox_lut.md R179). -/
def execInvSboxLookup (s : State) : Host.Outcome State Fault Refusal := .next (commit (invSboxLookupOutcome s) s)

end Sys2Proof.Machine
end

