-- ==== Sys2Proof/Machine/KeySchedule.lean ====
section
/-! DEFINITION. The commands of aes_key_schedule (spec/42_key_schedule.md §4). -/

namespace Sys2Proof.Machine

/-- ROT_WORD: `RES <- pack(rotateWord(unpack(OPA)))` (42_key_schedule.md R208). -/
def rotWordOutcome (s : State) : CmdOutcome := resultOnly (pack (rotateWord (wordX s.seq.ops)))

/-- ROT_WORD (42_key_schedule.md R208). -/
def execRotWord (s : State) : Host.Outcome State Fault Refusal := .next (commit (rotWordOutcome s) s)

/-- SUB_WORD: `EnsureTables(); RES <- pack(substituteWord(unpack(OPA)))` (42_key_schedule.md R209). -/
def subWordOutcome (s : State) : CmdOutcome :=
  resultWithTables s (fun t => pack (substituteWord t (wordX s.seq.ops)))

/-- SUB_WORD (42_key_schedule.md R209). -/
def execSubWord (s : State) : Host.Outcome State Fault Refusal := .next (commit (subWordOutcome s) s)

/-- The expansion of the captured key (42_key_schedule.md R204). -/
def expandedKey (s : State) (size : KeySize) : ExpandAcc := expand (ensureTables s) size (keyWords s.seq.ops size)

/-- What a command that ran the expansion `x` commits of it: `W`, `NK`, `NR`, `KT` and the tables (42_key_schedule.md
R210, 45_cipher_fsm.md R288). -/
def expansionResults (s : State) (size : KeySize) (x : ExpandAcc) : Results :=
  { tables := some (ensureTables s)
    sched := some { size := size, words := x.w.map pack }
    kt := ifTraced s x.kt }

/-- EXPAND_KEY (42_key_schedule.md R210). -/
def expandKeyOutcome (s : State) : CmdOutcome := do
  let size ← keyConfig s.seq.ops
  return expansionResults s size (expandedKey s size)

/-- EXPAND_KEY (42_key_schedule.md R210). -/
def execExpandKey (s : State) : Host.Outcome State Fault Refusal := .next (commit (expandKeyOutcome s) s)

end Sys2Proof.Machine
end

