-- ==== Sys2Proof/Machine/StateTransform.lean ====
section
/-! DEFINITION. The state commands SUB_BYTES, SHIFT_ROWS, their inverses, and ADD_ROUND_KEY
(spec/43_state_transform.md §2). -/

namespace Sys2Proof.Machine

/-- `CheckBlock(); EnsureTables(); STATE <- f(s)`: the shape of the state commands that need the tables
(43_state_transform.md R235, 44_mixcolumns.md R264). -/
def blockWithTables (s : State) (f : FieldTables → Block → Block) : CmdOutcome := do
  checkBlock s.seq.ops
  return { block := some (f (ensureTables s) (blockS s.seq.ops)), tables := some (ensureTables s) }

/-- `CheckBlock(); (s', rrot) = ShiftRows(s, i); STATE <- s'`, and the trace (43_state_transform.md R237, R238). -/
def blockShifted (s : State) (inverse : Bool) : CmdOutcome := do
  checkBlock s.seq.ops
  return { block := some (shiftRows inverse (blockS s.seq.ops))
           rrot := ifTraced s (shiftTrace inverse (blockS s.seq.ops)) }

/-- SUB_BYTES (43_state_transform.md R235). -/
def subBytesOutcome (s : State) : CmdOutcome := blockWithTables s (fun t => subBytes t false)

/-- SUB_BYTES (43_state_transform.md R235). -/
def execSubBytes (s : State) : Host.Outcome State Fault Refusal := .next (commit (subBytesOutcome s) s)

/-- INV_SUB_BYTES (43_state_transform.md R236). -/
def invSubBytesOutcome (s : State) : CmdOutcome := blockWithTables s (fun t => subBytes t true)

/-- INV_SUB_BYTES (43_state_transform.md R236). -/
def execInvSubBytes (s : State) : Host.Outcome State Fault Refusal := .next (commit (invSubBytesOutcome s) s)

/-- SHIFT_ROWS (43_state_transform.md R237). -/
def shiftRowsOutcome (s : State) : CmdOutcome := blockShifted s false

/-- SHIFT_ROWS (43_state_transform.md R237). -/
def execShiftRows (s : State) : Host.Outcome State Fault Refusal := .next (commit (shiftRowsOutcome s) s)

/-- INV_SHIFT_ROWS (43_state_transform.md R238). -/
def invShiftRowsOutcome (s : State) : CmdOutcome := blockShifted s true

/-- INV_SHIFT_ROWS (43_state_transform.md R238). -/
def execInvShiftRows (s : State) : Host.Outcome State Fault Refusal := .next (commit (invShiftRowsOutcome s) s)

/-- ADD_ROUND_KEY r: `CheckBlock()`, then the round key or RoundKeyUnavailable, then `STATE <- AddRoundKey(s, k)`
(43_state_transform.md R239). -/
def addRoundKeyOutcome (r : Nat) (s : State) : CmdOutcome := do
  checkBlock s.seq.ops
  let k ← roundKeyOperand s.seq.ops r
  return { block := some (addRoundKey (blockS s.seq.ops) k) }

/-- ADD_ROUND_KEY r (43_state_transform.md R239). -/
def execAddRoundKey (r : Nat) (s : State) : Host.Outcome State Fault Refusal := .next (commit (addRoundKeyOutcome r s) s)

end Sys2Proof.Machine
end

