-- ==== Sys2Proof/Machine/MixColumns.lean ====
section
/-! DEFINITION. The commands of aes_mixcolumns (spec/44_mixcolumns.md). -/

namespace Sys2Proof.Machine

/-- MIX_COLUMNS (44_mixcolumns.md R264). -/
def mixColumnsOutcome (s : State) : CmdOutcome := blockWithTables s (fun t => mixColumns t false)

/-- MIX_COLUMNS (44_mixcolumns.md R264). -/
def execMixColumns (s : State) : Host.Outcome State Fault Refusal := .next (commit (mixColumnsOutcome s) s)

/-- INV_MIX_COLUMNS (44_mixcolumns.md R265). -/
def invMixColumnsOutcome (s : State) : CmdOutcome := blockWithTables s (fun t => mixColumns t true)

/-- INV_MIX_COLUMNS (44_mixcolumns.md R265). -/
def execInvMixColumns (s : State) : Host.Outcome State Fault Refusal := .next (commit (invMixColumnsOutcome s) s)

end Sys2Proof.Machine
end

