-- ==== Sys2Proof/Machine/CipherFsm.lean ====
section
/-! DEFINITION. The cipher commands and NOP (spec/45_cipher_fsm.md R288, R293, R296). -/

namespace Sys2Proof.Machine

/-- What a cipher command commits of its expansion `x` and its run `c`: those of the expansion, and `STATE`, `CT` with
`CT_DIR`, and `RROT` (45_cipher_fsm.md R288). -/
def cipherResults (s : State) (decrypting : Bool) (size : KeySize) (x : ExpandAcc) (c : CipherAcc) : Results :=
  { expansionResults s size x with
    block := some c.s
    ct := ifTraced s { decrypting := decrypting, entries := c.ct }
    rrot := if s.traceEn then c.rrot else none }

/-- ENCRYPT_BLOCK: the key check, the block check, the tables, the expansion, the rounds (45_cipher_fsm.md R288). -/
def encryptBlockOutcome (s : State) : CmdOutcome := do
  let size ← keyConfig s.seq.ops
  checkBlock s.seq.ops
  let x := expandedKey s size
  return cipherResults s false size x (encrypt (ensureTables s) size.nr x.w (blockS s.seq.ops))

/-- ENCRYPT_BLOCK (45_cipher_fsm.md R288). -/
def execEncryptBlock (s : State) : Host.Outcome State Fault Refusal := .next (commit (encryptBlockOutcome s) s)

/-- DECRYPT_BLOCK: as ENCRYPT_BLOCK with `Decrypt` (45_cipher_fsm.md R293). -/
def decryptBlockOutcome (s : State) : CmdOutcome := do
  let size ← keyConfig s.seq.ops
  checkBlock s.seq.ops
  let x := expandedKey s size
  return cipherResults s true size x (decrypt (ensureTables s) size.nr x.w (blockS s.seq.ops))

/-- DECRYPT_BLOCK (45_cipher_fsm.md R293). -/
def execDecryptBlock (s : State) : Host.Outcome State Fault Refusal := .next (commit (decryptBlockOutcome s) s)

/-- NOP: nothing but the completion (45_cipher_fsm.md R296). -/
def nopOutcome (_s : State) : CmdOutcome := .ok {}

/-- NOP (45_cipher_fsm.md R296). -/
def execNop (s : State) : Host.Outcome State Fault Refusal := .next (commit (nopOutcome s) s)

end Sys2Proof.Machine
end

