-- ==== Sys2Proof/Machine/Dispatch.lean ====
section
/-! DEFINITION. One arm per command: each calls the command's own meaning. -/

namespace Sys2Proof.Machine

def exec (i : Instr) (s : State) : Host.Outcome State Fault Refusal :=
  match i with
  | .nop => Sys2Proof.Machine.execNop s
  | .buildTables => Sys2Proof.Machine.execBuildTables s
  | .gfAdd => Sys2Proof.Machine.execGfAdd s
  | .gfXtime => Sys2Proof.Machine.execGfXtime s
  | .gfMulLong => Sys2Proof.Machine.execGfMulLong s
  | .gfMul => Sys2Proof.Machine.execGfMul s
  | .gfInv => Sys2Proof.Machine.execGfInv s
  | .gfAffine => Sys2Proof.Machine.execGfAffine s
  | .sboxLookup => Sys2Proof.Machine.execSboxLookup s
  | .invSboxLookup => Sys2Proof.Machine.execInvSboxLookup s
  | .rotWord => Sys2Proof.Machine.execRotWord s
  | .subWord => Sys2Proof.Machine.execSubWord s
  | .expandKey => Sys2Proof.Machine.execExpandKey s
  | .subBytes => Sys2Proof.Machine.execSubBytes s
  | .invSubBytes => Sys2Proof.Machine.execInvSubBytes s
  | .shiftRows => Sys2Proof.Machine.execShiftRows s
  | .invShiftRows => Sys2Proof.Machine.execInvShiftRows s
  | .mixColumns => Sys2Proof.Machine.execMixColumns s
  | .invMixColumns => Sys2Proof.Machine.execInvMixColumns s
  | .addRoundKey r => Sys2Proof.Machine.execAddRoundKey r s
  | .encryptBlock => Sys2Proof.Machine.execEncryptBlock s
  | .decryptBlock => Sys2Proof.Machine.execDecryptBlock s

end Sys2Proof.Machine
end

