-- ==== Sys2Proof/Machine/Sequencer.lean ====
section
/-! DEFINITION. The sequencer (spec/45_cipher_fsm.md §1): its phases step by step (R280), the collapse of CHECK to
COMMIT into one step, which R280 allows, and what each event of the schedule does. -/

namespace Sys2Proof.Machine

/-- The outcome of a command, the same as its meaning commits. EXEC of every command but the ciphers stages it. -/
def outcomeOf (i : Instr) (s : State) : CmdOutcome :=
  match i with
  | .nop => nopOutcome s
  | .buildTables => buildTablesOutcome s
  | .gfAdd => gfAddOutcome s
  | .gfXtime => gfXtimeOutcome s
  | .gfMulLong => gfMulLongOutcome s
  | .gfMul => gfMulOutcome s
  | .gfInv => gfInvOutcome s
  | .gfAffine => gfAffineOutcome s
  | .sboxLookup => sboxLookupOutcome s
  | .invSboxLookup => invSboxLookupOutcome s
  | .rotWord => rotWordOutcome s
  | .subWord => subWordOutcome s
  | .expandKey => expandKeyOutcome s
  | .subBytes => subBytesOutcome s
  | .invSubBytes => invSubBytesOutcome s
  | .shiftRows => shiftRowsOutcome s
  | .invShiftRows => invShiftRowsOutcome s
  | .mixColumns => mixColumnsOutcome s
  | .invMixColumns => invMixColumnsOutcome s
  | .addRoundKey r => addRoundKeyOutcome r s
  | .encryptBlock => encryptBlockOutcome s
  | .decryptBlock => decryptBlockOutcome s

/-- The direction of a cipher command, none for the others. -/
def cipherDirection : Instr → Option Bool
  | .encryptBlock => some false
  | .decryptBlock => some true
  | _ => none

/-- Go to COMMIT with an outcome (45_cipher_fsm.md R280). -/
def stageOutcome (o : CmdOutcome) (s : State) : State := { s with seq := { s.seq with phase := .commit, staged := o } }

/-- The phase after CHECK or BUILD (45_cipher_fsm.md R280). -/
def workPhase (i : Instr) : Phase := if usesKey i then .expand else .exec

/-- The phase after a CHECK that passes (45_cipher_fsm.md R280). -/
def firstPhase (i : Instr) (o : Captured) : Phase :=
  if needsTables i && !o.tablesReady then .build else workPhase i

/-- Nk for the expansion loop; the CHECK phase has refused any other `KEYLEN` before it is used. -/
def captureNk (o : Captured) : Nat :=
  match keyConfig o with
  | .ok size => size.nk
  | .error _ => 0

/-- The key words the expansion starts from, none when `KEYLEN` is invalid. -/
def captureKey (o : Captured) : List Quad :=
  match keyConfig o with
  | .ok size => keyWords o size
  | .error _ => []

/-- CHECK passed: load `S`, `rnd`, `wi` and the key words, and go on (45_cipher_fsm.md R280). -/
def startWork (i : Instr) (s : State) : State :=
  { s with
    seq :=
      { s.seq with
        phase := firstPhase i s.seq.ops
        work := blockS s.seq.ops
        rnd := 0
        wi := captureNk s.seq.ops
        stagedW := captureKey s.seq.ops
        stagedKt := []
        stagedCt := []
        stagedRrot := none } }

/-- CHECK (45_cipher_fsm.md R284). -/
def tickCheck (s : State) : State :=
  match decode s.seq.cur with
  | .error _ => stageOutcome (.error .illegalCommand) s
  | .ok i =>
    match checkCommand i s.seq.ops with
    | .error c => stageOutcome (.error c) s
    | .ok _ => startWork i s

/-- BUILD (41_sbox_lut.md R175). -/
def tickBuild (i : Instr) (s : State) : State :=
  { s with seq := { s.seq with phase := workPhase i, stagedTables := some (buildTables s.traceEn) } }

/-- EXPAND: one word; on to EXEC after the last (42_key_schedule.md R204). -/
def tickExpand (size : KeySize) (s : State) : State :=
  let x := expandWord (ensureTables s) size.nk s.seq.wi { w := s.seq.stagedW, kt := s.seq.stagedKt }
  let last := s.seq.wi + 1 = size.words
  { s with
    seq :=
      { s.seq with
        phase := if last then .exec else .expand
        wi := if last then s.seq.wi else s.seq.wi + 1
        stagedW := x.w
        stagedKt := x.kt } }

/-- EXEC of a cipher command: one step of the cipher; after step Nr, to COMMIT (45_cipher_fsm.md R286, R291). -/
def tickCipher (decrypting : Bool) (size : KeySize) (s : State) : State :=
  let acc := cipherRound decrypting (ensureTables s) size.nr s.seq.stagedW s.seq.rnd
    { s := s.seq.work, ct := s.seq.stagedCt, rrot := s.seq.stagedRrot }
  if s.seq.rnd < size.nr then
    { s with
      seq :=
        { s.seq with work := acc.s, rnd := s.seq.rnd + 1, stagedCt := acc.ct, stagedRrot := acc.rrot } }
  else
    stageOutcome
      (.ok (cipherResults s decrypting size { w := s.seq.stagedW, kt := s.seq.stagedKt } acc)) s

/-- EXEC of EXPAND_KEY "does nothing" (45_cipher_fsm.md R280): what EXPAND made is staged. -/
def tickStageExpansion (size : KeySize) (s : State) : State :=
  stageOutcome (.ok (expansionResults s size { w := s.seq.stagedW, kt := s.seq.stagedKt })) s

/-- EXEC (45_cipher_fsm.md R280). -/
def tickExec (i : Instr) (s : State) : State :=
  if usesKey i then
    match keyConfig s.seq.ops with
    | .error c => stageOutcome (.error c) s
    | .ok size =>
      match cipherDirection i with
      | some decrypting => tickCipher decrypting size s
      | none => tickStageExpansion size s
  else stageOutcome (outcomeOf i s) s

/-- EXPAND of a command in flight; the CHECK phase has refused an invalid `KEYLEN` before. -/
def tickExpandPhase (s : State) : State :=
  match keyConfig s.seq.ops with
  | .error c => stageOutcome (.error c) s
  | .ok size => tickExpand size s

/-- One internal step of the sequencer (45_cipher_fsm.md R280); nothing while IDLE. Illegal words never get past CHECK,
so the `.error` case below is not reached from an accepted state. -/
def seqTick (s : State) : State :=
  match s.seq.phase with
  | .idle => s
  | .check => tickCheck s
  | .commit => commit s.seq.staged s
  | .build =>
    match decode s.seq.cur with
    | .error _ => stageOutcome (.error .illegalCommand) s
    | .ok i => tickBuild i s
  | .expand => tickExpandPhase s
  | .exec =>
    match decode s.seq.cur with
    | .error _ => stageOutcome (.error .illegalCommand) s
    | .ok i => tickExec i s

/-- Finish the command in flight, CHECK to COMMIT in one step (45_cipher_fsm.md R280 allows it): a legal word has its
meaning, an illegal one completes with IllegalCommand (60_exceptions.md R324). While idle nothing happens. -/
def completeCommand (s : State) : Host.Outcome State Fault Refusal :=
  if s.busy then
    match decode s.seq.cur with
    | .ok i => exec i s
    | .error _ => .next (commit (.error .illegalCommand) s)
  else .next s

/-- What one event does. -/
def performEvent (e : HostEvent) (s : State) : Host.Outcome State Fault Refusal :=
  match e with
  | .read a => .next (hostRead a s)
  | .write a v => .next (hostWrite a v s)
  | .readWrite _ _ => .refused .portProtocol
  | .reset => .next (resetEvent s)
  | .tick => .next (seqTick s)
  | .complete => completeCommand s

end Sys2Proof.Machine
end

