-- ==== Sys2Proof/Machine/HostAsm.lean ====
section
/-! DEFINITION. The host notation of spec/30_encoding.md R121 and R122: its lines as data, and their expansion into
host accesses. -/

namespace Sys2Proof.Machine

/-- The address of `KEYLEN`. -/
def keylenAddr : Addr := 0x0008 / 4

/-- The address of `KEYj`. -/
def keyAddr (j : Nat) : Addr := BitVec.ofNat 13 (0x0020 / 4 + j)

/-- The address of `STATEc`. -/
def stateAddr (c : Nat) : Addr := BitVec.ofNat 13 (0x0040 / 4 + c)

/-- A line of a host program (30_encoding.md R121, R122). -/
inductive AsmLine where
  | wr (a : Addr) (v : Word)
  | rd (a : Addr)
  | cmd (i : Instr)
  /-- `wait`, with the number of polls that read `BUSY = 1`, which the latency decides (log 20). -/
  | wait (polls : Nat)
  | run (i : Instr) (polls : Nat)
  | ldkey (size : KeySize) (k : Vector Quad 8)
  | ldblk (b : Block)
  | rdblk
  | check
  deriving DecidableEq, Repr

/-- The expansion of `wait`: reads of `STATUS` while busy, the completion, and the read that sees `BUSY = 0`
(30_encoding.md R122, 70_reset_and_hazards.md R363). -/
def waitEvents (polls : Nat) : List HostEvent :=
  List.replicate polls (.read statusAddr) ++ [.complete, .read statusAddr]

/-- The value that `ldkey` writes to `KEYLEN` (30_encoding.md R122). -/
def keylenValue (size : KeySize) : Word := BitVec.ofNat 32 (4 * size.nk)

/-- The expansion of a line into host accesses and the completions they wait for (30_encoding.md R122). -/
def AsmLine.expand : AsmLine → List HostEvent
  | .wr a v => [.write a v]
  | .rd a => [.read a]
  | .cmd i => [.write cmdAddr (encode i)]
  | .wait polls => waitEvents polls
  | .run i polls => .write cmdAddr (encode i) :: waitEvents polls
  | .ldkey size k =>
    .write keylenAddr (keylenValue size) ::
      ((k.toList.take size.nk).zipIdx.map fun p => .write (keyAddr p.2) (pack p.1))
  | .ldblk b => b.cols.zipIdx.map fun p => .write (stateAddr p.2) (pack p.1)
  | .rdblk => (List.range 4).map fun c => .read (stateAddr c)
  | .check => [.read statusAddr]

/-- `check`: the program is in error if bit 2 (ERR) of the value read is 1 (30_encoding.md R122). -/
def checkFails (status : Word) : Bool := status.getLsbD 2

/-- The accesses of a whole host program. -/
def programEvents (p : List AsmLine) : List HostEvent := p.flatMap AsmLine.expand

end Sys2Proof.Machine
end

