-- ==== Sys2Proof/Machine/Step.lean ====
section
/-! DEFINITION. One step of the machine: the next event of the schedule, or, when none is left, the completion of the
command in flight (spec/70_reset_and_hazards.md R363). -/

namespace Sys2Proof.Machine

/-- One step (log 2, log 3). -/
def step (s : State) : Host.Outcome State Fault Refusal :=
  match s.schedule with
  | [] => completeCommand s
  | e :: rest => performEvent e { s with schedule := rest }

/-- `s` with a command word accepted and nothing scheduled, so that the very next step runs exactly that command. The
core fetches nothing: a command comes from a host write to `CMD`, and this stands for that write (log 4). -/
def State.withFetchWord (s : State) (nbits w : Nat) : State := { accept (tableWord nbits w) s with schedule := [] }

end Sys2Proof.Machine
end

