-- ==== Sys2Proof/Machine/RunEnd.lean ====
section
/-! DEFINITION. The end of a run, good runs, and the observation of a run (spec/70_reset_and_hazards.md R364). -/

namespace Sys2Proof.Machine

/-! ## The end -/

/-- The host accesses: the reads and the writes of the port (20_memory.md R83). A reset and a turn of the sequencer are
none. -/
def HostEvent.isAccess : HostEvent → Bool
  | .read _ => true
  | .write _ _ => true
  | .readWrite _ _ => true
  | .reset => false
  | .tick => false
  | .complete => false

/-- The host makes no more accesses. -/
def State.AccessesOver (s : State) : Prop := ∀ e ∈ s.schedule, e.isAccess = false

/-- How many events there are through the last host access, 0 when there is none. -/
def throughLastAccess : List HostEvent → Nat
  | [] => 0
  | e :: rest =>
    match throughLastAccess rest with
    | 0 => if e.isAccess then 1 else 0
    | n + 1 => n + 2

/-- Reset, in the build given by `TRACE_EN`, with what happens next. -/
def State.start (traceEn : Bool) (events : List HostEvent) : State :=
  { State.reset with traceEn := traceEn, schedule := events }

/-- The run of the events from reset. "It ends after the host's last access" (70_reset_and_hazards.md R364): what comes
later is no part of it (log 21). -/
def runEnd (traceEn : Bool) (events : List HostEvent) : Host.Outcome State Fault Refusal :=
  core.run (throughLastAccess events) (State.start traceEn events)

/-! ## Good runs -/

/-- A good end: the host's last access is made, `BUSY = 0` and no fault is recorded (70_reset_and_hazards.md R364). -/
def State.Good (s : State) : Prop := s.AccessesOver ∧ s.busy = false ∧ s.faulted = none

/-- A run is good if its end is (70_reset_and_hazards.md R364). -/
def GoodRun (traceEn : Bool) (events : List HostEvent) : Prop := ∃ s, runEnd traceEn events = .next s ∧ s.Good

/-! ## The observation -/

/-- The addresses of the registers and the window words (20_memory.md R81). -/
def mappedAddrs : List Addr :=
  ((List.range 8192).map (BitVec.ofNat 13)).filter fun a => decide (itemAt a ≠ .reserved)

/-- What reads of these addresses return, made one after the other: each draw of a busy core is a fresh one
(20_memory.md R88, 70_reset_and_hazards.md R358). -/
def readEach : List Addr → State → List (Addr × Word)
  | [], _ => []
  | a :: rest, s => (a, readValue s a) :: readEach rest (hostRead a s)

/-- The observation of a state: "every register and window value", "as `MemRead` would return it"
(70_reset_and_hazards.md R364). -/
def State.observe (s : State) : List (Addr × Word) := readEach mappedAddrs s

/-- The observation of a run is that of its end; a run that is refused has none. -/
def runObservation (traceEn : Bool) (events : List HostEvent) : Option (List (Addr × Word)) :=
  match runEnd traceEn events with
  | .next s => some s.observe
  | .fault _ => none
  | .refused _ => none

end Sys2Proof.Machine
end

