-- ==== Sys2Proof/Safety.lean ====
section
/-! DEFINITION. What statements are made of, beside the end of a run: what each command may write (spec/10_state.md R52),
and the invariant of the machine. -/

namespace Sys2Proof.Machine

/-! ## What a command writes -/

/-- A set of the results that commands write (10_state.md R52). -/
structure Writes where
  res : Bool := false
  block : Bool := false
  tables : Bool := false
  sched : Bool := false
  kt : Bool := false
  ct : Bool := false
  rrot : Bool := false
  deriving DecidableEq, Repr

/-- The "writes" column of 10_state.md R52, with the table build that the "needs tables" column adds. -/
def writesOf : Instr → Writes
  | .nop => {}
  | .buildTables => { tables := true }
  | .gfAdd => { res := true }
  | .gfXtime => { res := true }
  | .gfMulLong => { res := true }
  | .gfMul => { res := true, tables := true }
  | .gfInv => { res := true, tables := true }
  | .gfAffine => { res := true }
  | .sboxLookup => { res := true, tables := true }
  | .invSboxLookup => { res := true, tables := true }
  | .rotWord => { res := true }
  | .subWord => { res := true, tables := true }
  | .expandKey => { tables := true, sched := true, kt := true }
  | .subBytes => { block := true, tables := true }
  | .invSubBytes => { block := true, tables := true }
  | .shiftRows => { block := true, rrot := true }
  | .invShiftRows => { block := true, rrot := true }
  | .mixColumns => { block := true, tables := true }
  | .invMixColumns => { block := true, tables := true }
  | .addRoundKey _ => { block := true }
  | .encryptBlock => { block := true, tables := true, sched := true, kt := true, ct := true, rrot := true }
  | .decryptBlock => { block := true, tables := true, sched := true, kt := true, ct := true, rrot := true }

/-- Whether the value read at an item may change when the results in `w` are written. `STATUS` always may. -/
def Writes.covers (w : Writes) : Item → Bool
  | .status => true
  | .res => w.res
  | .stateCol _ => w.block
  | .sbox _ => w.tables
  | .invSbox _ => w.tables
  | .exp _ => w.tables
  | .log _ => w.tables
  | .sbt _ _ => w.tables
  | .w _ => w.sched
  | .traceInfo => w.kt || w.ct || w.rrot
  | .kt _ _ => w.kt
  | .ct _ _ => w.ct
  | .rrot _ _ => w.rrot
  | .cmd => false
  | .keylen => false
  | .blklen => false
  | .opa => false
  | .opb => false
  | .key _ => false
  | .reserved => false

/-- What no command ever writes: the operand registers, `CMD`, the hardwired bit, the fault mark and the model's own
fields. -/
def SameInputs (s t : State) : Prop :=
  t.traceEn = s.traceEn ∧ t.cmd = s.cmd ∧ t.keylen = s.keylen ∧ t.blklen = s.blklen ∧ t.opa = s.opa ∧ t.opb = s.opb ∧
    t.keyReg = s.keyReg ∧ t.faulted = s.faulted ∧ t.schedule = s.schedule ∧ t.lastRead = s.lastRead ∧ t.draws = s.draws

/-- The frame of a set of writes: every field outside it is unchanged, and so is the value read at every address whose
item it does not cover. -/
def FrameExcept (w : Writes) (s t : State) : Prop :=
  SameInputs s t ∧
    (w.res = false → t.res = s.res) ∧
    (w.block = false → t.stateReg = s.stateReg) ∧
    (w.tables = false → t.tables = s.tables) ∧
    (w.sched = false → t.sched = s.sched) ∧
    (w.kt = false → t.kt = s.kt) ∧
    (w.ct = false → t.ct = s.ct) ∧
    (w.rrot = false → t.rrot = s.rrot) ∧
    ∀ a : Addr, w.covers (itemAt a) = false → memRead t a = memRead s a

/-- The command has completed with success: `BUSY = 0`, `DONE = 1`, `ERR = 0`, `ERRCODE = 0` (45_cipher_fsm.md R283). -/
def Succeeded (t : State) : Prop := t.busy = false ∧ t.done = true ∧ t.error = none

/-- The command has completed with an error and nothing else (60_exceptions.md R325): `BUSY = 0`, `DONE = 1`, `ERR = 1`,
`ERRCODE` is the code, and every other field and every address but `STATUS` is as before. -/
def FailedWith (c : ErrCode) (s t : State) : Prop :=
  t.busy = false ∧ t.done = true ∧ t.error = some c ∧ FrameExcept {} s t

/-! ## The invariant -/

/-- The tables, wherever the machine holds any, are the ones the build makes (41_sbox_lut.md R175, R180). -/
def State.TablesOk (s : State) : Prop :=
  (∀ t, s.tables = some t → t = buildTables s.traceEn) ∧
    (∀ t, s.seq.stagedTables = some t → t = buildTables s.traceEn)

/-- A schedule has as many words as its key size needs (10_state.md R43). -/
def Schedule.Ok (x : Schedule) : Prop := x.words.length = x.size.words

/-- The traces have one of the lengths of 10_state.md R40, the rotation counts of 43_state_transform.md R232, and are
empty when `TRACE_EN = 0` (10_state.md R44 to R46). -/
def State.TracesOk (s : State) : Prop :=
  (s.kt = [] ∨ ∃ size : KeySize, s.kt.length = size.words - size.nk) ∧
    (∀ c, s.ct = some c → ∃ size : KeySize, c.entries.length = size.nr + 2) ∧
    (∀ r, s.rrot = some r → ∀ i : Fin 4, r.rows[i].length = rotationCount r.inverse i) ∧
    (s.traceEn = false → s.kt = [] ∧ s.ct = none ∧ s.rrot = none)

/-- The outcome that the command in flight will commit. -/
def State.outcome (s : State) : CmdOutcome :=
  match decode s.seq.cur with
  | .ok i => outcomeOf i s
  | .error _ => .error .illegalCommand

/-- The command in flight decoded and passed its checks (45_cipher_fsm.md R284). -/
def State.Passed (s : State) (i : Instr) : Prop := decode s.seq.cur = .ok i ∧ checkCommand i s.seq.ops = .ok ()

/-- The cipher part of the sequencer is where a run of `rnd` steps leaves it. -/
def State.CipherAt (s : State) (decrypting : Bool) (size : KeySize) : Prop :=
  s.seq.rnd ≤ size.nr ∧
    ({ s := s.seq.work, ct := s.seq.stagedCt, rrot := s.seq.stagedRrot } : CipherAcc) =
      cipherSteps decrypting (buildTables s.traceEn) size.nr s.seq.stagedW (blockS s.seq.ops) s.seq.rnd

/-- The cipher part of the sequencer is as CHECK loads it. -/
def State.CipherLoaded (s : State) : Prop :=
  s.seq.work = blockS s.seq.ops ∧ s.seq.rnd = 0 ∧ s.seq.stagedCt = [] ∧ s.seq.stagedRrot = none

/-- What each phase has done so far (45_cipher_fsm.md R280): EXPAND has made the words before `wi`, EXEC of a cipher has
done the steps before `rnd`, COMMIT holds the outcome. -/
def State.Progress (s : State) : Prop :=
  match s.seq.phase with
  | .idle => s.seq = Sequencer.rest
  | .check => True
  | .build =>
    ∃ i, s.Passed i ∧ s.CipherLoaded ∧
      (usesKey i = true → ∃ size, keyConfig s.seq.ops = .ok size ∧ s.seq.wi = size.nk ∧
        s.seq.stagedW = keyWords s.seq.ops size ∧ s.seq.stagedKt = [])
  | .expand =>
    ∃ i size, s.Passed i ∧ s.CipherLoaded ∧ usesKey i = true ∧ keyConfig s.seq.ops = .ok size ∧
      size.nk ≤ s.seq.wi ∧ s.seq.wi < size.words ∧
      ({ w := s.seq.stagedW, kt := s.seq.stagedKt } : ExpandAcc) =
        expandSteps (buildTables s.traceEn) size.nk (keyWords s.seq.ops size) (s.seq.wi - size.nk)
  | .exec =>
    ∃ i, s.Passed i ∧
      (usesKey i = true → ∃ size, keyConfig s.seq.ops = .ok size ∧
        ({ w := s.seq.stagedW, kt := s.seq.stagedKt } : ExpandAcc) =
          expand (buildTables s.traceEn) size (keyWords s.seq.ops size) ∧
        ∀ decrypting, cipherDirection i = some decrypting → s.CipherAt decrypting size)
  | .commit => s.seq.staged = s.outcome

/-- While a command is in flight: the flags acceptance set, the word in flight in `CMD`, and the operand copies equal to
the registers, which no write can change (45_cipher_fsm.md R281, 70_reset_and_hazards.md R357). -/
def State.InFlight (s : State) : Prop :=
  s.done = false ∧ s.error = none ∧ s.cmd = s.seq.cur ∧ s.seq.ops = capture s

/-- The invariant of the machine. -/
structure State.Wf (s : State) : Prop where
  tables : s.TablesOk
  sched : ∀ x, s.sched = some x → x.Ok
  traces : s.TracesOk
  errorDone : s.error.isSome = true → s.done = true
  inFlight : s.busy = true → s.InFlight
  progress : s.Progress

end Sys2Proof.Machine
end

