-- ==== Sys2Proof/Certificates/Slice0/Obligations.lean ====
section
/-! DEFINITION. The statements for the provers, from the numbered rules of spec/. -/

open Sys2Proof Sys2Proof.Machine

/-! ## The command word -/

/-- 30_encoding.md R116, R117: words written out from the map decode to their commands, others are rejected by name. -/
def Obligations.SpecWordsDecodeToTheirCommands : Prop :=
  decode 0x00000000 = .ok .nop ∧ decode 0x00000001 = .ok .buildTables ∧ decode 0x00000012 = .ok .gfMulLong ∧
    decode 0x00000017 = .ok .invSboxLookup ∧ decode 0x00000022 = .ok .expandKey ∧
    decode 0x00000130 = .ok .invSubBytes ∧ decode 0x00000132 = .ok .invMixColumns ∧
    decode 0x000A0033 = .ok (.addRoundKey 10) ∧ decode 0x00000041 = .ok .decryptBlock ∧
    decode 0x00000133 = .error .invNotAllowed ∧ decode 0x00010010 = .error .ridxNotAllowed ∧
    decode 0x00000230 = .error .reservedBits ∧ decode 0x00000002 = .error .unassignedOp

/-- 30_encoding.md R116, R120: every well-formed command, with every operand its encoding admits, is read back from its
own word. -/
def Obligations.DecodeEncodeRoundTrip : Prop :=
  ∀ i : Instr, i.wellFormed = true → decode (encode i) = .ok i

/-- 30_encoding.md R116: the opcode map row by row, and "Exactly 21 + 16 = 37 of the 2^32 command words are legal". -/
def Obligations.LegalWordsAreTheOpcodeMap : Prop :=
  (∀ v : Word,
    (decode v = .ok .nop ↔ v = 0x00000000) ∧
    (decode v = .ok .buildTables ↔ v = 0x00000001) ∧
    (decode v = .ok .gfAdd ↔ v = 0x00000010) ∧
    (decode v = .ok .gfXtime ↔ v = 0x00000011) ∧
    (decode v = .ok .gfMulLong ↔ v = 0x00000012) ∧
    (decode v = .ok .gfMul ↔ v = 0x00000013) ∧
    (decode v = .ok .gfInv ↔ v = 0x00000014) ∧
    (decode v = .ok .gfAffine ↔ v = 0x00000015) ∧
    (decode v = .ok .sboxLookup ↔ v = 0x00000016) ∧
    (decode v = .ok .invSboxLookup ↔ v = 0x00000017) ∧
    (decode v = .ok .rotWord ↔ v = 0x00000020) ∧
    (decode v = .ok .subWord ↔ v = 0x00000021) ∧
    (decode v = .ok .expandKey ↔ v = 0x00000022) ∧
    (decode v = .ok .subBytes ↔ v = 0x00000030) ∧
    (decode v = .ok .invSubBytes ↔ v = 0x00000130) ∧
    (decode v = .ok .shiftRows ↔ v = 0x00000031) ∧
    (decode v = .ok .invShiftRows ↔ v = 0x00000131) ∧
    (decode v = .ok .mixColumns ↔ v = 0x00000032) ∧
    (decode v = .ok .invMixColumns ↔ v = 0x00000132) ∧
    (∀ r : Nat, decode v = .ok (.addRoundKey r) ↔
      v &&& 0xFFF0FFFF = 0x00000033 ∧ r = (v.extractLsb' 16 4).toNat) ∧
    (decode v = .ok .encryptBlock ↔ v = 0x00000040) ∧
    (decode v = .ok .decryptBlock ↔ v = 0x00000041)) ∧
  ∃ legal : List Word, legal.Nodup ∧ legal.length = 37 ∧ ∀ v : Word, (∃ i, decode v = .ok i) ↔ v ∈ legal

/-- 30_encoding.md R117, 60_exceptions.md R324: any illegal word written while idle is accepted, completes with
IllegalCommand (code 3) whatever the other registers hold, reads back from `CMD`, and changes nothing but `STATUS` and
`CMD`. -/
def Obligations.IllegalWordCompletesWithIllegalCommand : Prop :=
  ∀ (s : State) (v : Word) (e : DecodeError), s.busy = false → decode v = .error e →
    hostWrite cmdAddr v s = accept v s ∧
    ∃ t, completeCommand (accept v s) = .next t ∧ memRead t cmdAddr = v ∧ t.errCode = 3#4 ∧
      FailedWith .illegalCommand { s with cmd := v } t

/-! ## The command lifecycle -/

/-- 45_cipher_fsm.md R281: a write to `CMD` while idle is accepted at once: `CMD` and `CUR` take the word, the operands
are copied, `BUSY` is set, `DONE`, `ERR`, `ERRCODE` are cleared, `PHASE` is CHECK, and nothing else changes. A write while
busy is a fault and is not accepted. -/
def Obligations.CommandWriteIsAcceptedWhileIdle : Prop :=
  (∀ (s : State) (v : Word), s.busy = false →
    let t := hostWrite cmdAddr v s
    t.cmd = v ∧ t.seq.cur = v ∧ t.seq.phase = .check ∧ t.busy = true ∧ t.done = false ∧ t.error = none ∧
      t.seq.ops =
        { keylen := s.keylen, blklen := s.blklen, opa := s.opa, opb := s.opb, keyReg := s.keyReg
          stateReg := s.stateReg, sched := s.sched, tablesReady := s.tablesReady } ∧
      FrameExcept {} { s with cmd := v } t) ∧
  ∀ (s : State) (v : Word), s.busy = true →
    hostWrite cmdAddr v s = { s with faulted := some .hostWriteWhileBusy }

/-- The step runs the decoded command (45_cipher_fsm.md R282, R283; the collapse is R280's): with a legal word in flight,
when nothing is scheduled, or at the event `complete`, the step is the command's meaning; and the state that stands for
a command word just accepted (`withFetchWord`, log 4) steps to its meaning. With an illegal word in flight the same steps
complete with IllegalCommand (60_exceptions.md R324), code 3, and change nothing but `STATUS`. An idle core keeps its
state at them (60_exceptions.md R338). A step at a scheduled host access or tick is that access or tick. The schedule, its
events and the completion when nothing is scheduled are the model's own (log 2, log 3). -/
def Obligations.StepRunsTheDecodedCommand : Prop :=
  (∀ (s : State) (i : Instr), s.schedule = [] → s.busy = true → decode s.seq.cur = .ok i → step s = exec i s) ∧
  (∀ (s : State) (i : Instr) (rest : List HostEvent), s.schedule = .complete :: rest → s.busy = true →
    decode s.seq.cur = .ok i → step s = exec i { s with schedule := rest }) ∧
  (∀ (s : State) (i : Instr), i.wellFormed = true →
    step (s.withFetchWord 32 (encode i).toNat) = exec i (s.withFetchWord 32 (encode i).toNat)) ∧
  (∀ (s : State) (e : DecodeError), s.schedule = [] → s.busy = true → decode s.seq.cur = .error e →
    ∃ t, step s = .next t ∧ FailedWith .illegalCommand s t ∧ t.errCode = 3#4) ∧
  (∀ (s : State) (e : DecodeError) (rest : List HostEvent), s.schedule = .complete :: rest → s.busy = true →
    decode s.seq.cur = .error e →
    ∃ t, step s = .next t ∧ FailedWith .illegalCommand { s with schedule := rest } t ∧ t.errCode = 3#4) ∧
  (∀ (s : State) (v : Word) (e : DecodeError), decode v = .error e →
    ∃ t, step (s.withFetchWord 32 v.toNat) = .next t ∧
      FailedWith .illegalCommand (s.withFetchWord 32 v.toNat) t ∧ t.cmd = v ∧ t.errCode = 3#4) ∧
  (∀ s : State, s.schedule = [] → s.busy = false → step s = .next s) ∧
  (∀ (s : State) (rest : List HostEvent), s.schedule = .complete :: rest → s.busy = false →
    step s = .next { s with schedule := rest }) ∧
  ∀ (s : State) (rest : List HostEvent),
    (∀ a, s.schedule = .read a :: rest → step s = .next (hostRead a { s with schedule := rest })) ∧
    (∀ a v, s.schedule = .write a v :: rest → step s = .next (hostWrite a v { s with schedule := rest })) ∧
    (s.schedule = .tick :: rest → step s = .next (seqTick { s with schedule := rest }))

/-- 45_cipher_fsm.md R282: between acceptance and completion the sequencer "stages every result and writes no
host-visible register". -/
def Obligations.NoResultIsVisibleBeforeCommit : Prop :=
  ∀ s : State, s.seq.phase ≠ .commit →
    (∀ a, memRead (seqTick s) a = memRead s a) ∧ (seqTick s).busy = s.busy ∧ (seqTick s).seq.ops = s.seq.ops

/-- 45_cipher_fsm.md R284, 60_exceptions.md R327: a completion reports the first failing check in the order illegal word,
key length, block length, round key, and (60_exceptions.md R325) an error changes nothing but `STATUS`; when no check
fails the command succeeds, and (60_exceptions.md R330) only then. -/
def Obligations.FirstFailingCheckIsReported : Prop :=
  ∀ s : State, s.busy = true → ∃ t, completeCommand s = .next t ∧
    (∀ e, decode s.seq.cur = .error e → FailedWith .illegalCommand s t) ∧
    ∀ i, decode s.seq.cur = .ok i →
      let key := i ∈ [.expandKey, .encryptBlock, .decryptBlock] ∧
        s.seq.ops.keylen ≠ 16 ∧ s.seq.ops.keylen ≠ 24 ∧ s.seq.ops.keylen ≠ 32
      let block := (i ∈ [.subBytes, .invSubBytes, .shiftRows, .invShiftRows, .mixColumns, .invMixColumns, .encryptBlock,
        .decryptBlock] ∨ ∃ r, i = .addRoundKey r) ∧ s.seq.ops.blklen ≠ 16
      let round := ∃ r, i = .addRoundKey r ∧ ∀ x, s.seq.ops.sched = some x → x.size.nr < r
      (key → FailedWith .invalidKeySize s t) ∧ (¬ key → block → FailedWith .malformedBlock s t) ∧
        (¬ key → ¬ block → round → FailedWith .roundKeyUnavailable s t) ∧
        (¬ key → ¬ block → ¬ round → Succeeded t)

/-- 60_exceptions.md R321 to R323, R326: the commands that take a key, with a `KEYLEN` that is not 16, 24 or 32, complete
with code 1; those that take a block, with `BLKLEN ≠ 16` and no key error, with code 2; ADD_ROUND_KEY r with no schedule or
r > NR, with code 4; all 32 bits are compared, and nothing but `STATUS` changes (R325). -/
def Obligations.FailedChecksCompleteWithTheirCode : Prop :=
  (∀ (s : State) (i : Instr), i ∈ [.expandKey, .encryptBlock, .decryptBlock] →
    s.seq.ops.keylen ≠ 16 → s.seq.ops.keylen ≠ 24 → s.seq.ops.keylen ≠ 32 →
    ∃ t, exec i s = .next t ∧ FailedWith .invalidKeySize s t ∧ t.errCode = 1#4) ∧
  (∀ (s : State) (i : Instr),
    (i ∈ [.subBytes, .invSubBytes, .shiftRows, .invShiftRows, .mixColumns, .invMixColumns] ∨ (∃ r, i = .addRoundKey r) ∨
      (i ∈ [.encryptBlock, .decryptBlock] ∧
        (s.seq.ops.keylen = 16 ∨ s.seq.ops.keylen = 24 ∨ s.seq.ops.keylen = 32))) →
    s.seq.ops.blklen ≠ 16 →
    ∃ t, exec i s = .next t ∧ FailedWith .malformedBlock s t ∧ t.errCode = 2#4) ∧
  ∀ (s : State) (r : Nat), s.seq.ops.blklen = 16 → (∀ x, s.seq.ops.sched = some x → x.size.nr < r) →
    ∃ t, exec (.addRoundKey r) s = .next t ∧ FailedWith .roundKeyUnavailable s t ∧ t.errCode = 4#4

/-- 70_reset_and_hazards.md R363: every accepted command completes. From any state of the invariant with a command in
flight, 70 turns of the sequencer, one phase step each (log 10), finish it, whatever it is, in exactly the state that the
one-step completion gives. -/
def Obligations.SeventyTicksCompleteTheCommand : Prop :=
  ∀ (s : State) (rest : List HostEvent), s.Wf → s.busy = true →
    s.schedule = List.replicate 70 .tick ++ rest →
    ∃ t, completeCommand { s with schedule := rest } = .next t ∧ core.run 70 s = .next t ∧ t.busy = false ∧ t.done = true

/-- 30_encoding.md R122, with the accesses of an expansion as the schedule of an idle core (log 2). `run <MNEMONIC>` is
`cmd` then `wait`: with any number of polls that still see `BUSY = 1` (log 20), the run ends with the command's meaning
done, `BUSY = 0` and `DONE = 1`, and the last read of `STATUS` seeing it. `ldkey` writes 4·Nk to `KEYLEN` and the packed key
words to `KEY0..KEY(Nk−1)` and nothing else; `ldblk` writes the packed columns to `STATE0..STATE3` and nothing else; `rdblk`
reads `STATE0..STATE3` in order; `check` reads `STATUS`, and finds the program in error exactly if ERR = 1. -/
def Obligations.RunPseudoInstructionRunsItsCommand : Prop :=
  (∀ (s : State) (i : Instr) (polls : Nat) (rest : List HostEvent), s.busy = false → i.wellFormed = true →
    s.schedule = (AsmLine.run i polls).expand ++ rest →
    ∃ u, exec i (accept (encode i) { s with schedule := rest }) = .next u ∧ u.busy = false ∧ u.done = true ∧
      core.run (polls + 3) s = .next { u with lastRead := some (statusAddr, statusWord u) }) ∧
  (∀ (s : State) (size : KeySize) (k : Vector Quad 8) (rest : List HostEvent), s.busy = false →
    s.schedule = (AsmLine.ldkey size k).expand ++ rest →
    core.run (size.nk + 1) s = .next
      { s with
        schedule := rest
        keylen := BitVec.ofNat 32 (4 * size.nk)
        keyReg := Vector.ofFn fun j => if j.val < size.nk then pack k[j] else s.keyReg[j] }) ∧
  (∀ (s : State) (b : Block) (rest : List HostEvent), s.busy = false →
    s.schedule = (AsmLine.ldblk b).expand ++ rest →
    core.run 4 s = .next { s with schedule := rest, stateReg := b.toRegs }) ∧
  (∀ (s : State) (rest : List HostEvent), s.busy = false → s.schedule = AsmLine.rdblk.expand ++ rest →
    ∀ c : Fin 4, core.run (c + 1) s = .next
      { s with
        schedule := AsmLine.rdblk.expand.drop (c + 1) ++ rest
        lastRead := some (BitVec.ofNat 13 ((0x0040 + 4 * c) / 4), s.stateReg[c]) }) ∧
  ∀ (s : State) (rest : List HostEvent), s.busy = false → s.schedule = AsmLine.check.expand ++ rest →
    core.run 1 s = .next { s with schedule := rest, lastRead := some (statusAddr, statusWord s) } ∧
    (checkFails (statusWord s) = true ↔ s.error ≠ none)

/-! ## The register port -/

/-- 20_memory.md R81, R82: the registers at their byte offsets, and every reserved offset reads 0. -/
def Obligations.RegistersReadAtTheirOffsets : Prop :=
  (∀ s : State,
    memRead s (BitVec.ofNat 13 (0x0000 / 4)) = s.cmd ∧ memRead s (BitVec.ofNat 13 (0x0004 / 4)) = statusWord s ∧
    memRead s (BitVec.ofNat 13 (0x0008 / 4)) = s.keylen ∧ memRead s (BitVec.ofNat 13 (0x000C / 4)) = s.blklen ∧
    memRead s (BitVec.ofNat 13 (0x0010 / 4)) = s.opa ∧ memRead s (BitVec.ofNat 13 (0x0014 / 4)) = s.opb ∧
    memRead s (BitVec.ofNat 13 (0x0018 / 4)) = s.res ∧
    memRead s (BitVec.ofNat 13 (0x001C / 4)) = traceInfoWord s ∧
    (∀ j : Fin 8, memRead s (BitVec.ofNat 13 ((0x0020 + 4 * j) / 4)) = s.keyReg[j]) ∧
    ∀ c : Fin 4, memRead s (BitVec.ofNat 13 ((0x0040 + 4 * c) / 4)) = s.stateReg[c]) ∧
  ∀ (s : State) (a : Addr),
    (0x0050 ≤ 4 * a.toNat ∧ 4 * a.toNat < 0x0100) ∨ (0x01F0 ≤ 4 * a.toNat ∧ 4 * a.toNat < 0x0200) ∨
      (0x0240 ≤ 4 * a.toNat ∧ 4 * a.toNat < 0x0400) ∨ (0x1400 ≤ 4 * a.toNat ∧ 4 * a.toNat < 0x2000) ∨
      (0x2800 ≤ 4 * a.toNat ∧ 4 * a.toNat < 0x3000) ∨ (0x3680 ≤ 4 * a.toNat ∧ 4 * a.toNat < 0x4000) ∨
      0x6000 ≤ 4 * a.toNat → memRead s a = 0

/-- 20_memory.md R81, R87 and 10_state.md R43 to R48: each window word at its offset, 0 while its valid bit is clear; the
trace windows read 0 when `TRACE_EN = 0`. -/
def Obligations.WindowsReadAtTheirOffsets : Prop :=
  ∀ s : State,
    (∀ i : Fin 60, memRead s (BitVec.ofNat 13 ((0x0100 + 4 * i) / 4)) =
      match s.sched with
      | some x => if i.val < 4 * (x.size.nr + 1) then x.words.getD i 0 else 0
      | none => 0) ∧
    (∀ b : Fin 256,
      memRead s (BitVec.ofNat 13 ((0x0400 + 4 * b) / 4)) = (match s.tables with | some t => zext t.sbox[b] | none => 0) ∧
      memRead s (BitVec.ofNat 13 ((0x0800 + 4 * b) / 4)) =
        (match s.tables with | some t => zext t.invSbox[b] | none => 0) ∧
      memRead s (BitVec.ofNat 13 ((0x0C00 + 4 * b) / 4)) = (match s.tables with | some t => zext t.exp[b] | none => 0) ∧
      memRead s (BitVec.ofNat 13 ((0x1000 + 4 * b) / 4)) = (match s.tables with | some t => zext t.log[b] | none => 0)) ∧
    (∀ r k : Fin 4, memRead s (BitVec.ofNat 13 ((0x0200 + 0x10 * r + 4 * k) / 4)) =
      if s.traceEn then (match s.rrot with | some t => rrotWord t.rows[r] k | none => 0) else 0) ∧
    (∀ (e : Fin 16) (k : Fin 32), memRead s (BitVec.ofNat 13 ((0x2000 + 0x80 * e + 4 * k) / 4)) =
      if s.traceEn then
        (match s.ct.bind (fun c => c.entries[e.val]?) with | some x => ctWord x k | none => 0) else 0) ∧
    (∀ (j : Fin 52) (k : Fin 8), memRead s (BitVec.ofNat 13 ((0x3000 + 0x20 * j + 4 * k) / 4)) =
      if s.traceEn then (match s.kt[j.val]? with | some x => ktWord x k | none => 0) else 0) ∧
    ∀ (b : Fin 256) (k : Fin 8), memRead s (BitVec.ofNat 13 ((0x4000 + 0x20 * b + 4 * k) / 4)) =
      if s.traceEn then
        (match s.tables.bind (fun t => t.sbt[b.val]?) with | some x => sbtWord x k | none => 0) else 0

/-- 10_state.md R44 to R47: the words of a round-trace, key-trace, row-rotation and S-box construction entry at their
offsets, with the bits of `CT_INFO` and `KT_INFO`; absent fields and reserved words read 0. -/
def Obligations.TraceWordsStandAtTheirOffsets : Prop :=
  (∀ (x : CtEntry) (c : Fin 4),
    let col := fun (b : Option Block) => (b.map (fun y => y.toRegs[c])).getD 0
    ctWord x (0x10 / 4 + c) = col x.start ∧ ctWord x (0x20 / 4 + c) = col x.afterSub ∧
    ctWord x (0x30 / 4 + c) = col x.afterShift ∧ ctWord x (0x40 / 4 + c) = col x.afterMix ∧
    ctWord x (0x50 / 4 + c) = col x.afterKey ∧ ctWord x (0x60 / 4 + c) = col (x.roundKey.map (fun u => u.key)) ∧
    ctWord x (0x70 / 4 + c) = 0 ∧ (0 < c.val → ctWord x c = 0) ∧
    let v := ctWord x 0
    v.getLsbD 0 = x.start.isSome ∧ v.getLsbD 1 = x.afterSub.isSome ∧ v.getLsbD 2 = x.afterShift.isSome ∧
    v.getLsbD 3 = x.afterMix.isSome ∧ v.getLsbD 4 = x.afterKey.isSome ∧ v.getLsbD 5 = x.roundKey.isSome ∧
    v.extractLsb' 6 2 = 0#2 ∧ v.extractLsb' 8 4 = ((x.roundKey.map (fun u => BitVec.ofNat 4 u.idx)).getD 0) ∧
    v.extractLsb' 12 4 = 0#4 ∧ v.getLsbD 16 = x.sentinel ∧ v.extractLsb' 17 15 = 0#15) ∧
  (∀ x : KtEntry,
    ktWord x 1 = pack x.tempIn ∧ ktWord x 2 = (x.rot.map pack).getD 0 ∧ ktWord x 3 = (x.sub.map pack).getD 0 ∧
    ktWord x 4 = (x.rcon.map pack).getD 0 ∧ ktWord x 5 = (x.xor.map pack).getD 0 ∧ ktWord x 6 = pack x.prev ∧
    ktWord x 7 = pack x.fin ∧
    let v := ktWord x 0
    v.extractLsb' 0 6 = BitVec.ofNat 6 x.index ∧ v.extractLsb' 6 2 = 0#2 ∧ v.getLsbD 8 = x.rot.isSome ∧
    v.getLsbD 9 = x.sub.isSome ∧ v.getLsbD 10 = x.rcon.isSome ∧ v.getLsbD 11 = x.xor.isSome ∧
    v.extractLsb' 12 20 = 0#20) ∧
  (∀ snaps : List Quad, rrotWord snaps 0 = BitVec.ofNat 32 snaps.length ∧
    ∀ k : Fin 3, rrotWord snaps (k + 1) = ((snaps[k.val]?).map pack).getD 0) ∧
  ∀ x : SbtEntry, sbtWord x 0 = zext x.inv ∧ sbtWord x 1 = zext x.rot1 ∧ sbtWord x 2 = zext x.rot2 ∧
    sbtWord x 3 = zext x.rot3 ∧ sbtWord x 4 = zext x.rot4 ∧ sbtWord x 5 = zext x.sbox ∧ sbtWord x 6 = 0 ∧ sbtWord x 7 = 0

/-- 10_state.md R34, R40: the fields of `STATUS` and of `TRACE_INFO` at their bits, the reserved bits 0; `NK` is 4, 6 or 8
and `NR = NK + 6` when there is a schedule, and both are 0 when there is none; `TRACE_INFO` reads 0 when
`TRACE_EN = 0`. -/
def Obligations.StatusAndTraceInfoFields : Prop :=
  (∀ s : State,
    (statusWord s).getLsbD 0 = s.busy ∧ (statusWord s).getLsbD 1 = s.done ∧ (statusWord s).getLsbD 2 = s.error.isSome ∧
    (statusWord s).extractLsb' 3 1 = 0#1 ∧ (statusWord s).extractLsb' 4 4 = s.errCode ∧
    (statusWord s).getLsbD 8 = s.tables.isSome ∧ (statusWord s).getLsbD 9 = s.sched.isSome ∧
    (statusWord s).extractLsb' 10 6 = 0#6 ∧ (statusWord s).extractLsb' 16 4 = BitVec.ofNat 4 s.nkField ∧
    (statusWord s).extractLsb' 20 4 = 0#4 ∧ (statusWord s).extractLsb' 24 4 = BitVec.ofNat 4 s.nrField ∧
    (statusWord s).extractLsb' 28 3 = 0#3 ∧ (statusWord s).getLsbD 31 = s.traceEn) ∧
  (∀ s : State,
    let nk := (statusWord s).extractLsb' 16 4
    let nr := (statusWord s).extractLsb' 24 4
    (s.sched = none → nk = 0#4 ∧ nr = 0#4) ∧
    ∀ x, s.sched = some x → nk.toNat = x.size.nk ∧ nr = nk + 6#4 ∧ (nk = 4#4 ∨ nk = 6#4 ∨ nk = 8#4)) ∧
  (∀ s : State, s.traceEn = false → traceInfoWord s = 0) ∧
  ∀ s : State, s.traceEn = true →
    (traceInfoWord s).extractLsb' 0 5 = BitVec.ofNat 5 s.ctLen ∧ (traceInfoWord s).extractLsb' 5 2 = 0#2 ∧
    (traceInfoWord s).getLsbD 7 = s.ctDir ∧ (traceInfoWord s).extractLsb' 8 6 = BitVec.ofNat 6 s.kt.length ∧
    (traceInfoWord s).extractLsb' 14 2 = 0#2 ∧ (traceInfoWord s).getLsbD 16 = s.rrot.isSome ∧
    (traceInfoWord s).getLsbD 17 = s.rrotInv ∧ (traceInfoWord s).extractLsb' 18 14 = 0#14

/-- 20_memory.md R89 and 10_state.md R32: while idle, a write to an operand register stores all 32 bits, which read back
unchanged, and every other address reads as before. -/
def Obligations.OperandWriteReadsBack : Prop :=
  ∀ (s : State) (a : Addr) (v : Word), s.busy = false → (itemAt a).writable = true → a ≠ cmdAddr →
    memRead (hostWrite a v s) a = v ∧ (∀ b, b ≠ a → memRead (hostWrite a v s) b = memRead s b) ∧
      (hostWrite a v s).busy = false ∧ (hostWrite a v s).faulted = s.faulted

/-- 20_memory.md R82: "A host write to a reserved offset, or to an RO register or window, has no effect", idle or busy
(70_reset_and_hazards.md R357). The RW registers are `CMD` to 0x0000, 0x0008 to 0x0014 and 0x0020 to 0x004C. -/
def Obligations.ReadOnlyWriteHasNoEffect : Prop :=
  ∀ (s : State) (a : Addr) (v : Word),
    ¬ (4 * a.toNat = 0 ∨ (0x0008 ≤ 4 * a.toNat ∧ 4 * a.toNat ≤ 0x0014) ∨
      (0x0020 ≤ 4 * a.toNat ∧ 4 * a.toNat ≤ 0x004C)) → hostWrite a v s = s

/-- 70_reset_and_hazards.md R356, R357: a write to `CMD` or to an operand register while busy sets the fault mark and
changes nothing else: the register keeps its value and the command in flight goes on. -/
def Obligations.WriteWhileBusyOnlySetsTheFaultMark : Prop :=
  ∀ (s : State) (a : Addr) (v : Word), s.busy = true →
    (4 * a.toNat = 0 ∨ (0x0008 ≤ 4 * a.toNat ∧ 4 * a.toNat ≤ 0x0014) ∨
      (0x0020 ≤ 4 * a.toNat ∧ 4 * a.toNat ≤ 0x004C)) →
    hostWrite a v s = { s with faulted := some .hostWriteWhileBusy }

/-- 70_reset_and_hazards.md R360: no step clears the fault mark, not even reset, only a host write while busy sets it, and
a run whose state is faulted is never good. R364: a run ends with the host's last access, after which no access is left,
and is good if, at its end, `BUSY = 0` and no fault is recorded. The run is that of a list of events, which is the model's
own (log 2); that it ends at once after the last access is log 21. -/
def Obligations.FaultMarkIsSticky : Prop :=
  (∀ s t : State, step s = .next t →
    (s.faulted ≠ none → t.faulted ≠ none) ∧
    (s.faulted = none → t.faulted ≠ none →
      s.busy = true ∧ ∃ a v rest, s.schedule = .write a v :: rest ∧ (itemAt a).writable = true)) ∧
  (∀ (e : Bool) (l : List HostEvent) (k : Nat) (s : State), k ≤ throughLastAccess l →
    core.run k (State.start e l) = .next s → s.faulted ≠ none → ¬ GoodRun e l) ∧
  (∀ (e : Bool) (l : List HostEvent), GoodRun e l ↔
    ∃ s, core.run (throughLastAccess l) (State.start e l) = .next s ∧ s.busy = false ∧ s.faulted = none) ∧
  ∀ l : List HostEvent,
    (∀ x ∈ l.drop (throughLastAccess l), x.isAccess = false) ∧
    ∀ n, throughLastAccess l = n + 1 → ∃ x, l[n]? = some x ∧ x.isAccess = true

/-- 20_memory.md R85, R88 and 70_reset_and_hazards.md R358: a read while idle returns the item's value and changes no state
of the core; while busy a read of `STATUS` gives `BUSY = 1`, `DONE = 0`, `ERR = 0`, `ERRCODE = 0`, a read of `CMD` the word
in flight, and a read of any other offset any value at all (a draw, log 7). It is never a fault and changes nothing the
host can see. The observation of a state (R364) is what such reads of every register and window word give: the values
while idle; while busy the defined `STATUS` and `CMD`, and a draw at every other address. -/
def Obligations.HostReadsHaveNoSideEffect : Prop :=
  (∀ (s : State) (a : Addr), s.busy = false → hostRead a s = { s with lastRead := some (a, memRead s a) }) ∧
  (∀ (s : State) (a : Addr), s.Wf → s.busy = true →
    (∃ v, (hostRead a s).lastRead = some (a, v) ∧
      (a = statusAddr → v = statusWord s ∧ v.extractLsb' 0 8 = 0x01#8) ∧
      (a = cmdAddr → v = s.seq.cur) ∧
      (a ≠ statusAddr → a ≠ cmdAddr → v = Config.draw s.draws ∧ (hostRead a s).draws = s.draws + 1)) ∧
    (hostRead a s).faulted = s.faulted ∧ (hostRead a s).seq = s.seq ∧
    ∀ b, memRead (hostRead a s) b = memRead s b) ∧
  (∀ (s : State) (a : Addr), (∃ v, (a, v) ∈ s.observe) ↔ itemAt a ≠ .reserved) ∧
  (∀ (s : State) (a : Addr) (v : Word), s.busy = false → (a, v) ∈ s.observe → v = memRead s a) ∧
  ∀ (s : State) (a : Addr) (v : Word), s.Wf → s.busy = true → (a, v) ∈ s.observe →
    (a = statusAddr → v = statusWord s) ∧ (a = cmdAddr → v = s.seq.cur) ∧
    (a ≠ statusAddr → a ≠ cmdAddr → ∃ k, s.draws ≤ k ∧ v = Config.draw k)

/-! ## Reset -/

/-- 70_reset_and_hazards.md R350, R351 and 10_state.md R51: from any state, even with a command in flight, reset leaves
the core idle, `KEYLEN` and `BLKLEN` 16, `STATUS` only its hardwired bit, and every other offset reading 0. Reset is one
step (R350), taken when it is the next event of the schedule, which is the model's own (log 2); the fault mark
(R360) and the events still to come stay (log 16). -/
def Obligations.ResetGivesTheResetValues : Prop :=
  (∀ s : State,
    let t := resetEvent s
    t.seq.phase = .idle ∧ t.traceEn = s.traceEn ∧ t.faulted = s.faulted ∧
    ∀ a : Addr, memRead t a =
      if 4 * a.toNat = 0x0004 then (if s.traceEn then 0x80000000 else 0)
      else if 4 * a.toNat = 0x0008 ∨ 4 * a.toNat = 0x000C then 0x00000010
      else 0) ∧
  ∀ (s : State) (rest : List HostEvent), s.schedule = .reset :: rest →
    step s = .next (resetEvent { s with schedule := rest }) ∧ (resetEvent { s with schedule := rest }).schedule = rest

/-- The invariant holds at reset (10_state.md R51; that the hidden registers are at rest is the model's choice, log 9). -/
def Obligations.ResetMeetsTheInvariant : Prop := State.reset.Wf

/-! ## Invariants -/

/-- Every step keeps the invariant: tables as built, schedules and traces of legal length and shape, no error without
`DONE`, and a command in flight with its flags, its operand copies and its progress as acceptance and the phases leave
them (41_sbox_lut.md R175, 10_state.md R40, R43, 45_cipher_fsm.md R280, R281). That idle hidden registers are at rest is
the model's choice (log 9). -/
def Obligations.EveryStepKeepsTheInvariant : Prop :=
  ∀ s t : State, s.Wf → step s = .next t → t.Wf

/-- 41_sbox_lut.md R180, 10_state.md R34: once built, nothing writes the tables until reset, and after a reset the next
build writes the same contents; `TABLES_READY` and `SCHED_VALID` are cleared by reset only. -/
def Obligations.BuiltTablesNeverChange : Prop :=
  (∀ s t : State, step s = .next t → (∀ rest, s.schedule ≠ .reset :: rest) →
    (∀ x, s.tables = some x → t.tables = some x) ∧ (s.tablesReady = true → t.tablesReady = true) ∧
      (s.schedValid = true → t.schedValid = true)) ∧
  ∀ (s t : State) (x y : FieldTables), s.Wf → t.Wf → s.traceEn = t.traceEn → s.tables = some x → t.tables = some y → x = y

/-- No step answers a fault. The one fault of the spec, a host write to an RW register while busy
(70_reset_and_hazards.md R356, R357, R360), is a mark after which the machine goes on, and no outcome of a step: that is
the model's choice (log 8). The only refusal is a read and a write in one cycle, which the port protocol does not have
(93_implementation_defined.md I18: "refuse"; log 12). -/
def Obligations.NoStepFaults : Prop :=
  ∀ s : State, (∃ t, step s = .next t) ∨
    (step s = .refused .portProtocol ∧ ∃ a v rest, s.schedule = .readWrite a v :: rest)

/-! ## Frames -/

/-- 10_state.md R52: the primitives, NOP and BUILD_TABLES write `RES` or the tables as their row says, and nothing else
but `STATUS`. -/
def Obligations.PrimitivesWriteOnlyTheirResults : Prop :=
  ∀ (i : Instr) (s t : State),
    i ∈ [.nop, .buildTables, .gfAdd, .gfXtime, .gfMulLong, .gfMul, .gfInv, .gfAffine, .sboxLookup, .invSboxLookup,
      .rotWord, .subWord] → exec i s = .next t → FrameExcept (writesOf i) s t

/-- 10_state.md R52: the state commands write `STATE`, and the tables or the row trace as their row says, and nothing else
but `STATUS`. -/
def Obligations.StateCommandsWriteOnlyTheirResults : Prop :=
  ∀ (i : Instr) (s t : State),
    (i ∈ [.subBytes, .invSubBytes, .shiftRows, .invShiftRows, .mixColumns, .invMixColumns] ∨ ∃ r, i = .addRoundKey r) →
    exec i s = .next t →
    FrameExcept (writesOf i) s t ∧ (s.traceEn = false → t.kt = s.kt ∧ t.ct = s.ct ∧ t.rrot = s.rrot)

/-- 10_state.md R52: the key and cipher commands write what their row says and nothing else but `STATUS`; trace items only
when `TRACE_EN = 1`. -/
def Obligations.KeyCommandsWriteOnlyTheirResults : Prop :=
  ∀ (i : Instr) (s t : State), i ∈ [.expandKey, .encryptBlock, .decryptBlock] → exec i s = .next t →
    FrameExcept (writesOf i) s t ∧ (s.traceEn = false → t.kt = s.kt ∧ t.ct = s.ct ∧ t.rrot = s.rrot)

/-! ## Field arithmetic and tables -/

/-- 40_gf28_arith.md R148, its seven laws: (1) the table product is the Russian-peasant product, and that is the product
of the two polynomials modulo m(x) (R140: 0x11B), what is left of it once a multiple of m(x) is taken away; (2)
commutative and associative; (3) inverses; (4) `xtime` is doubling; (5) distributive over `add`; (6) the index sum lies in
0 to 510, and the two table indices in 0 to 254; (7) zero. -/
def Obligations.FieldLaws : Prop :=
  fieldPolynomial = 0x11B#16 ∧
  ∀ a b c : Byte,
    let mul := multiply expTable logTable
    let inv := invert expTable logTable
    let log := fun (x : Byte) => (tableAt logTable x).toNat
    mul a b = multiplyLong a b ∧
    (∃ q, polyProduct a (b.setWidth 16) = polyProduct q fieldPolynomial ^^^ (mul a b).setWidth 16) ∧
    mul a b = mul b a ∧ mul a (mul b c) = mul (mul a b) c ∧
    (a ≠ 0 → mul a (inv a) = 1) ∧ inv (inv a) = a ∧
    xtime a = mul a 2 ∧ mul a 2 = multiplyLong 2 a ∧
    mul a (gfAdd b c) = gfAdd (mul a b) (mul a c) ∧
    (log a + log b ≤ 510 ∧ productIndex logTable a b = (log a + log b) % 255 ∧ productIndex logTable a b ≤ 254 ∧
      (a ≠ 0 → b ≠ 0 → mul a b = tableAt expTable (BitVec.ofNat 8 (productIndex logTable a b)))) ∧
    (a ≠ 0 → 1 ≤ log a ∧ inverseIndex logTable a = 255 - log a ∧ inverseIndex logTable a ≤ 254 ∧
      inv a = tableAt expTable (BitVec.ofNat 8 (inverseIndex logTable a))) ∧
    gfAdd a 0 = a ∧ mul a 0 = 0 ∧ xtime 0 = 0 ∧ inv 0 = 0

/-- 40_gf28_arith.md R144, R145: the exponent table holds the powers of 3, its first 255 entries distinct and nonzero,
and the log table is its inverse, with `log[1] = 0xFF` and `LOG[0]` the open `LOG0` (whatever it is, log 6). -/
def Obligations.ExpAndLogTables : Prop :=
  let exp := fun (k : Nat) => tableAt expTable (BitVec.ofNat 8 k)
  let log := tableAt logTable
  exp 0 = 0x01 ∧ (∀ k, k < 254 → exp (k + 1) = multiplyLong (exp k) 0x03) ∧ multiplyLong (exp 254) 0x03 = 0x01 ∧
  exp 255 = 0x01 ∧ (∀ k, k < 255 → ∀ l, l < 255 → exp k = exp l → k = l) ∧ (∀ k, k < 255 → exp k ≠ 0) ∧
  (∀ b : Byte, b ≠ 0 → exp (log b).toNat = b) ∧ (∀ b : Byte, b ≠ 0 → b ≠ 1 → log b ≠ 0 ∧ log b ≠ 0xFF) ∧
  log 1 = 0xFF ∧ log 0 = Config.log0

/-- 41_sbox_lut.md R172, R173: `sbox` and `invSbox` are exact inverses, neither has a fixed point, and the zero entries
are 0x63 and 0x52. -/
def Obligations.SboxesAreInverse : Prop :=
  (∀ (e : Bool) (b : Byte),
    let t := buildTables e
    tableAt t.invSbox (tableAt t.sbox b) = b ∧ tableAt t.sbox (tableAt t.invSbox b) = b ∧
    tableAt t.sbox b ≠ b ∧ tableAt t.invSbox b ≠ b) ∧
  invert expTable logTable 0 = 0 ∧
  ∀ e : Bool, tableAt (buildTables e).sbox 0 = affine 0 ∧ affine 0 = 0x63 ∧
    tableAt (buildTables e).invSbox 0x63 = 0 ∧ tableAt (buildTables e).invSbox 0 = 0x52 ∧
    tableAt (buildTables e).sbox 0x52 = 0

/-- 41_sbox_lut.md R174: entry b of the construction trace, and the identity that always holds of it; no trace when
`TRACE_EN = 0`. -/
def Obligations.ConstructionTraceEntries : Prop :=
  (buildTables false).sbt = [] ∧ (buildTables true).sbt.length = 256 ∧
  ∀ b : Byte, ∃ x, (buildTables true).sbt[b.toNat]? = some x ∧
    x.inv = invert expTable logTable b ∧ x.rot1 = x.inv.rotateLeft 1 ∧ x.rot2 = x.inv.rotateLeft 2 ∧
    x.rot3 = x.inv.rotateLeft 3 ∧ x.rot4 = x.inv.rotateLeft 4 ∧ x.sbox = tableAt (buildTables true).sbox b ∧
    x.sbox = x.inv ^^^ x.rot1 ^^^ x.rot2 ^^^ x.rot3 ^^^ x.rot4 ^^^ 0x63

/-- 40_gf28_arith.md R149, R150 with R141, R142: GF_ADD, whose word "is legal only as exactly
0x00000010", is bitwise XOR, GF_XTIME field doubling; neither is ever an error. -/
def Obligations.GfAddAndXtimeResults : Prop :=
  (∀ v : Word, decode v = .ok .gfAdd ↔ v = 0x00000010) ∧ decode 0x00000011 = .ok .gfXtime ∧
  (∀ s : State, ∃ t, exec .gfAdd s = .next t ∧ Succeeded t ∧ FrameExcept { res := true } s t ∧
    t.res = zext (s.seq.ops.opa.extractLsb' 0 8 ^^^ s.seq.ops.opb.extractLsb' 0 8)) ∧
  ∀ s : State, ∃ t, exec .gfXtime s = .next t ∧ Succeeded t ∧ FrameExcept { res := true } s t ∧
    t.res = zext (if s.seq.ops.opa.getLsbD 7 then (s.seq.ops.opa.extractLsb' 0 8 <<< 1) ^^^ 0x1B
      else s.seq.ops.opa.extractLsb' 0 8 <<< 1)

/-- 40_gf28_arith.md R151: the result "equals GF_MUL on the same operands". -/
def Obligations.GfMulLongResult : Prop :=
  decode 0x00000012 = .ok .gfMulLong ∧
  ∀ s : State, ∃ t, exec .gfMulLong s = .next t ∧ Succeeded t ∧ FrameExcept { res := true } s t ∧
    t.res = zext (multiplyLong (s.seq.ops.opa.extractLsb' 0 8) (s.seq.ops.opb.extractLsb' 0 8)) ∧
    t.res = zext (multiply expTable logTable (s.seq.ops.opa.extractLsb' 0 8) (s.seq.ops.opb.extractLsb' 0 8))

/-- 40_gf28_arith.md R152, R146. -/
def Obligations.GfMulResult : Prop :=
  decode 0x00000013 = .ok .gfMul ∧
  ∀ s : State, s.TablesOk → ∃ t, exec .gfMul s = .next t ∧ Succeeded t ∧
    FrameExcept { res := true, tables := true } s t ∧ t.tables = some (buildTables s.traceEn) ∧
    t.res = zext (multiplyLong (s.seq.ops.opa.extractLsb' 0 8) (s.seq.ops.opb.extractLsb' 0 8))

/-- 40_gf28_arith.md R153: the inverse of a, 0 for 0; never an error. -/
def Obligations.GfInvResult : Prop :=
  decode 0x00000014 = .ok .gfInv ∧
  ∀ s : State, s.TablesOk → ∃ t x, exec .gfInv s = .next t ∧ Succeeded t ∧
    FrameExcept { res := true, tables := true } s t ∧ t.tables = some (buildTables s.traceEn) ∧ t.res = zext x ∧
    (s.seq.ops.opa.extractLsb' 0 8 = 0 → x = 0) ∧
    (s.seq.ops.opa.extractLsb' 0 8 ≠ 0 → multiplyLong (s.seq.ops.opa.extractLsb' 0 8) x = 1)

/-- 41_sbox_lut.md R176, 45_cipher_fsm.md R296: BUILD_TABLES builds the tables once, and a second time changes nothing but
`STATUS.DONE`; NOP changes nothing but `STATUS`, clears a previous error indication and leaves `CMD` 0. -/
def Obligations.BuildTablesAndNopResults : Prop :=
  decode 0x00000001 = .ok .buildTables ∧ decode 0x00000000 = .ok .nop ∧
  (∀ s : State, s.TablesOk → ∃ t, exec .buildTables s = .next t ∧ Succeeded t ∧
    FrameExcept { tables := true } s t ∧ t.tables = some (buildTables s.traceEn) ∧
    (s.tables ≠ none → t.tables = s.tables)) ∧
  (∀ s : State, ∃ t, exec .nop s = .next t ∧ Succeeded t ∧ FrameExcept {} s t) ∧
  ∀ s : State, s.busy = false → ∃ t, exec .nop (hostWrite cmdAddr 0x00000000 s) = .next t ∧ Succeeded t ∧ t.cmd = 0 ∧
    FrameExcept {} { s with cmd := 0 } t

/-- 41_sbox_lut.md R177, R170: bit j of the result is the XOR of five bits of a and of bit j of 0x63. -/
def Obligations.GfAffineResult : Prop :=
  decode 0x00000015 = .ok .gfAffine ∧
  ∀ s : State, ∃ t y, exec .gfAffine s = .next t ∧ Succeeded t ∧ FrameExcept { res := true } s t ∧ t.res = zext y ∧
    ∀ j : Fin 8, y.getLsbD j =
      (s.seq.ops.opa.getLsbD j ^^ s.seq.ops.opa.getLsbD ((j + 4) % 8) ^^ s.seq.ops.opa.getLsbD ((j + 5) % 8) ^^
        s.seq.ops.opa.getLsbD ((j + 6) % 8) ^^ s.seq.ops.opa.getLsbD ((j + 7) % 8) ^^ (0x63#8).getLsbD j)

/-- 41_sbox_lut.md R178, R179: SBOX_LOOKUP gives `affine(invert(a))`; INV_SBOX_LOOKUP the byte it maps to a. -/
def Obligations.SboxLookupResults : Prop :=
  decode 0x00000016 = .ok .sboxLookup ∧ decode 0x00000017 = .ok .invSboxLookup ∧
  (∀ s : State, s.TablesOk → ∃ t, exec .sboxLookup s = .next t ∧ Succeeded t ∧
    FrameExcept { res := true, tables := true } s t ∧ t.tables = some (buildTables s.traceEn) ∧
    t.res = zext (affine (invert expTable logTable (s.seq.ops.opa.extractLsb' 0 8)))) ∧
  ∀ s : State, s.TablesOk → ∃ t x, exec .invSboxLookup s = .next t ∧ Succeeded t ∧
    FrameExcept { res := true, tables := true } s t ∧ t.tables = some (buildTables s.traceEn) ∧ t.res = zext x ∧
    affine (invert expTable logTable x) = s.seq.ops.opa.extractLsb' 0 8

/-- 42_key_schedule.md R208, R201: a left rotation of the 32-bit value by 8 bits. -/
def Obligations.RotWordResult : Prop :=
  decode 0x00000020 = .ok .rotWord ∧
  ∀ s : State, ∃ t, exec .rotWord s = .next t ∧ Succeeded t ∧ FrameExcept { res := true } s t ∧
    t.res = (s.seq.ops.opa <<< 8) ||| (s.seq.ops.opa >>> 24)

/-- 42_key_schedule.md R209, R202: the S-box on each byte of the word. -/
def Obligations.SubWordResult : Prop :=
  decode 0x00000021 = .ok .subWord ∧
  ∀ s : State, s.TablesOk → ∃ t, exec .subWord s = .next t ∧ Succeeded t ∧
    FrameExcept { res := true, tables := true } s t ∧ t.tables = some (buildTables s.traceEn) ∧
    ∀ k : Fin 4, t.res.extractLsb' (8 * k) 8 =
      tableAt (buildTables s.traceEn).sbox (s.seq.ops.opa.extractLsb' (8 * k) 8)

/-! ## Key schedule -/

/-- 42_key_schedule.md R200, R203, R204, R207 and 00_scope.md R3: the three key sizes have Nk 4, 6, 8 and Nr 10, 12, 14,
Nr = Nk + 6; the words of an expansion, for any key of Nk words: the key words first, then each word the XOR of the word
Nk before it and of the transformed word before it. -/
def Obligations.ExpansionRecurrence : Prop :=
  (KeySize.aes128.nk = 4 ∧ KeySize.aes128.nr = 10 ∧ KeySize.aes192.nk = 6 ∧ KeySize.aes192.nr = 12 ∧
    KeySize.aes256.nk = 8 ∧ KeySize.aes256.nr = 14) ∧
  ∀ (t : FieldTables) (size : KeySize) (key : List Quad), key.length = size.nk →
    let w := (expand t size key).w
    let rc : List Byte := [0x01, 0x02, 0x04, 0x08, 0x10, 0x20, 0x40, 0x80, 0x1B, 0x36]
    size.nr = size.nk + 6 ∧
    w.length = 4 * (size.nr + 1) ∧ (∀ j, j < size.nk → w[j]? = key[j]?) ∧
    ∀ i, size.nk ≤ i → i < 4 * (size.nr + 1) →
      ∃ prev temp, w[i - size.nk]? = some prev ∧ w[i - 1]? = some temp ∧
        1 ≤ i / size.nk ∧ i / size.nk ≤ 10 ∧
        w[i]? = some (prev.xor
          (if i % size.nk = 0 then
            ((Quad.mk temp.b1 temp.b2 temp.b3 temp.b0).map (tableAt t.sbox)).xor
              ⟨rc.getD (i / size.nk - 1) 0, 0, 0, 0⟩
          else if size.nk = 8 ∧ i % 8 = 4 then temp.map (tableAt t.sbox)
          else temp))

/-- 42_key_schedule.md R205: the key-expansion trace, entry by entry. -/
def Obligations.KeyTraceEntries : Prop :=
  ∀ (t : FieldTables) (size : KeySize) (key : List Quad), key.length = size.nk →
    let x := expand t size key
    x.kt.length = 4 * (size.nr + 1) - size.nk ∧
    ∀ i, size.nk ≤ i → i < 4 * (size.nr + 1) →
      ∃ e prev temp, x.kt[i - size.nk]? = some e ∧ x.w[i - size.nk]? = some prev ∧ x.w[i - 1]? = some temp ∧
        e.index = i ∧ e.tempIn = temp ∧ e.prev = prev ∧ x.w[i]? = some e.fin ∧
        (i % size.nk = 0 → ∃ r s c, e.rot = some r ∧ e.sub = some s ∧ e.rcon = some c ∧ r = rotateWord temp ∧
          s = substituteWord t r ∧ c = rcon (i / size.nk) ∧ e.xor = some (s.xor c) ∧ e.fin = prev.xor (s.xor c)) ∧
        (i % size.nk ≠ 0 → size.nk = 8 ∧ i % 8 = 4 → e.rot = none ∧ e.rcon = none ∧ e.xor = none ∧
          e.sub = some (substituteWord t temp) ∧ e.fin = prev.xor (substituteWord t temp)) ∧
        (i % size.nk ≠ 0 → ¬ (size.nk = 8 ∧ i % 8 = 4) → e.rot = none ∧ e.sub = none ∧ e.rcon = none ∧ e.xor = none ∧
          e.fin = prev.xor temp)

/-- 42_key_schedule.md R210, 10_state.md R34: EXPAND_KEY with `KEYLEN` = 4·Nk completes, and leaves the schedule of the
first Nk key registers in `W`, `STATUS.NK` = Nk and `STATUS.NR` = Nk + 6, its trace in KT when `TRACE_EN = 1`, and the
tables built. -/
def Obligations.ExpandKeyResult : Prop :=
  decode 0x00000022 = .ok .expandKey ∧
  ∀ (s : State) (size : KeySize), s.TablesOk → s.seq.ops.keylen = BitVec.ofNat 32 (4 * size.nk) →
    ∃ t, exec .expandKey s = .next t ∧ Succeeded t ∧ FrameExcept { tables := true, sched := true, kt := true } s t ∧
      t.tables = some (buildTables s.traceEn) ∧
      (let x := expand (buildTables s.traceEn) size ((s.seq.ops.keyReg.toList.take size.nk).map unpack)
       t.sched = some { size := size, words := x.w.map pack } ∧
       (statusWord t).getLsbD 9 = true ∧ (statusWord t).extractLsb' 16 4 = BitVec.ofNat 4 size.nk ∧
       (statusWord t).extractLsb' 24 4 = BitVec.ofNat 4 (size.nk + 6) ∧
       t.kt = if s.traceEn then x.kt else s.kt)

/-! ## State primitives -/

/-- 00_scope.md R11, R12: packing puts byte 0 in bits [31:24] and byte 3 in bits [7:0], unpacking is its inverse, and byte
`s[4c + r]` of a block is byte r of the register that holds column c. -/
def Obligations.PackAndUnpackAreInverse : Prop :=
  (∀ q : Quad, pack q = (zext q.b0 <<< 24) ||| (zext q.b1 <<< 16) ||| (zext q.b2 <<< 8) ||| zext q.b3) ∧
  (∀ q : Quad, unpack (pack q) = q) ∧ (∀ v : Word, pack (unpack v) = v) ∧
  (∀ b : Block, Block.ofRegs b.toRegs = b) ∧ (∀ v : Vector Word 4, (Block.ofRegs v).toRegs = v) ∧
  ∀ (v : Vector Word 4) (c r : Fin 4), (Block.ofRegs v).byte (4 * c + r) = v[c].extractLsb' (8 * (3 - r)) 8

/-- 43_state_transform.md R232: forward ShiftRows moves `M[r][c]` to `M[r][(c − r) mod 4]`, inverse ShiftRows to
`M[r][(c + r) mod 4]`; the counts are 0, 1, 2, 3 and 0, 3, 2, 1; snapshot k is the row rotated k places. -/
def Obligations.ShiftRowsMovesTheRows : Prop :=
  ∀ (s : Block) (r c : Fin 4),
    (shiftRows false s).byte (4 * ((c + 4 - r) % 4) + r) = s.byte (4 * c + r) ∧
    (shiftRows true s).byte (4 * ((c + r) % 4) + r) = s.byte (4 * c + r) ∧
    (shiftTrace false s).rows[r].length = r ∧ (shiftTrace true s).rows[r].length = (4 - r.val) % 4 ∧
    ∀ (d : Bool) (k : Fin 3) (q : Quad), (shiftTrace d s).rows[r][k.val]? = some q →
      q.bytes[c.val]? = some (s.byte (4 * ((c + k + 1) % 4) + r))

/-- 43_state_transform.md R240: the laws of SubBytes, ShiftRows and AddRoundKey, for every state and key. -/
def Obligations.StatePrimitiveLaws : Prop :=
  ∀ (e i i' : Bool) (s k : Block),
    let t := buildTables e
    subBytes t true (subBytes t false s) = s ∧ subBytes t false (subBytes t true s) = s ∧
    shiftRows true (shiftRows false s) = s ∧ shiftRows false (shiftRows true s) = s ∧
    addRoundKey (addRoundKey s k) k = s ∧
    shiftRows i' (subBytes t i s) = subBytes t i (shiftRows i' s)

/-- 44_mixcolumns.md R263: the two forms of MixColumn undo each other, for every column and every state; each is linear;
a column of four equal bytes is a fixed point of both, since the rows sum to 1. -/
def Obligations.MixColumnsLaws : Prop :=
  2#8 ^^^ 3#8 ^^^ 1#8 ^^^ 1#8 = 1#8 ∧ 14#8 ^^^ 11#8 ^^^ 13#8 ^^^ 9#8 = 1#8 ∧
  ∀ (e i : Bool) (c d : Quad) (s : Block) (b : Byte),
    let t := buildTables e
    mixColumn t true (mixColumn t false c) = c ∧ mixColumn t false (mixColumn t true c) = c ∧
    mixColumns t true (mixColumns t false s) = s ∧ mixColumns t false (mixColumns t true s) = s ∧
    mixColumn t i (c.xor d) = (mixColumn t i c).xor (mixColumn t i d) ∧
    mixColumn t i ⟨b, b, b, b⟩ = ⟨b, b, b, b⟩

/-- 43_state_transform.md R235, R236: with `BLKLEN = 16`, every byte of `STATE` becomes its (inverse) S-box image. -/
def Obligations.SubBytesResults : Prop :=
  decode 0x00000030 = .ok .subBytes ∧ decode 0x00000130 = .ok .invSubBytes ∧
  ∀ s : State, s.TablesOk → s.seq.ops.blklen = 16 →
    (∃ t, exec .subBytes s = .next t ∧ Succeeded t ∧ FrameExcept { block := true, tables := true } s t ∧
      t.tables = some (buildTables s.traceEn) ∧
      ∀ j : Fin 16, (Block.ofRegs t.stateReg).byte j =
        tableAt (buildTables s.traceEn).sbox ((Block.ofRegs s.seq.ops.stateReg).byte j)) ∧
    ∃ t, exec .invSubBytes s = .next t ∧ Succeeded t ∧ FrameExcept { block := true, tables := true } s t ∧
      t.tables = some (buildTables s.traceEn) ∧
      ∀ j : Fin 16, (Block.ofRegs t.stateReg).byte j =
        tableAt (buildTables s.traceEn).invSbox ((Block.ofRegs s.seq.ops.stateReg).byte j)

/-- 43_state_transform.md R237, R238: with `BLKLEN = 16`, `STATE` is shifted and, when `TRACE_EN = 1`, the row trace holds
this evaluation; the tables are not touched. -/
def Obligations.ShiftRowsResults : Prop :=
  decode 0x00000031 = .ok .shiftRows ∧ decode 0x00000131 = .ok .invShiftRows ∧
  ∀ s : State, s.seq.ops.blklen = 16 →
    (∃ t, exec .shiftRows s = .next t ∧ Succeeded t ∧ FrameExcept { block := true, rrot := true } s t ∧
      t.stateReg = (shiftRows false (Block.ofRegs s.seq.ops.stateReg)).toRegs ∧
      t.rrot = if s.traceEn then some (shiftTrace false (Block.ofRegs s.seq.ops.stateReg)) else s.rrot) ∧
    ∃ t, exec .invShiftRows s = .next t ∧ Succeeded t ∧ FrameExcept { block := true, rrot := true } s t ∧
      t.stateReg = (shiftRows true (Block.ofRegs s.seq.ops.stateReg)).toRegs ∧
      t.rrot = if s.traceEn then some (shiftTrace true (Block.ofRegs s.seq.ops.stateReg)) else s.rrot

/-- 44_mixcolumns.md R264, R265: with `BLKLEN = 16`, `STATEc` becomes the mixed column, on its own; the inverse command
gives the column whose forward mixing is the operand. -/
def Obligations.MixColumnsResults : Prop :=
  decode 0x00000032 = .ok .mixColumns ∧ decode 0x00000132 = .ok .invMixColumns ∧
  ∀ s : State, s.TablesOk → s.seq.ops.blklen = 16 →
    (∃ t, exec .mixColumns s = .next t ∧ Succeeded t ∧ FrameExcept { block := true, tables := true } s t ∧
      t.tables = some (buildTables s.traceEn) ∧
      ∀ c : Fin 4, t.stateReg[c] = pack (mixColumn (buildTables s.traceEn) false (unpack s.seq.ops.stateReg[c]))) ∧
    ∃ t, exec .invMixColumns s = .next t ∧ Succeeded t ∧ FrameExcept { block := true, tables := true } s t ∧
      t.tables = some (buildTables s.traceEn) ∧
      ∀ c : Fin 4, pack (mixColumn (buildTables s.traceEn) false (unpack t.stateReg[c])) = s.seq.ops.stateReg[c]

/-- 44_mixcolumns.md R260, R261: forward and inverse mixing written out with the field product, row by row. -/
def Obligations.MixColumnIsTheMatrixProduct : Prop :=
  ∀ (e : Bool) (c : Quad),
    let t := buildTables e
    let m := multiplyLong
    mixColumn t false c =
      ⟨m 2 c.b0 ^^^ m 3 c.b1 ^^^ c.b2 ^^^ c.b3, c.b0 ^^^ m 2 c.b1 ^^^ m 3 c.b2 ^^^ c.b3,
        c.b0 ^^^ c.b1 ^^^ m 2 c.b2 ^^^ m 3 c.b3, m 3 c.b0 ^^^ c.b1 ^^^ c.b2 ^^^ m 2 c.b3⟩ ∧
    mixColumn t true c =
      ⟨m 14 c.b0 ^^^ m 11 c.b1 ^^^ m 13 c.b2 ^^^ m 9 c.b3, m 9 c.b0 ^^^ m 14 c.b1 ^^^ m 11 c.b2 ^^^ m 13 c.b3,
        m 13 c.b0 ^^^ m 9 c.b1 ^^^ m 14 c.b2 ^^^ m 11 c.b3, m 11 c.b0 ^^^ m 13 c.b1 ^^^ m 9 c.b2 ^^^ m 14 c.b3⟩

/-- 43_state_transform.md R239: with `BLKLEN = 16` and r ≤ NR, ADD_ROUND_KEY r XORs round key r of the schedule, words
`W[4r..4r+3]`, into `STATE`. -/
def Obligations.AddRoundKeyResult : Prop :=
  (∀ r : Fin 16, decode (0x00000033#32 ||| (BitVec.ofNat 32 r <<< 16)) = .ok (.addRoundKey r)) ∧
  ∀ (s : State) (x : Schedule) (r : Nat), s.seq.ops.blklen = 16 → s.seq.ops.sched = some x → x.Ok → r ≤ x.size.nr →
    ∃ t, exec (.addRoundKey r) s = .next t ∧ Succeeded t ∧ FrameExcept { block := true } s t ∧
      ∀ c : Fin 4, t.stateReg[c] = s.seq.ops.stateReg[c] ^^^ x.words.getD (4 * r + c) 0

/-! ## Whole-block cipher -/

/-- 45_cipher_fsm.md R288: with a valid `KEYLEN` and `BLKLEN = 16`, ENCRYPT_BLOCK completes: `STATE` is the ciphertext,
`W`, `NK`, `NR` the schedule it used, and with `TRACE_EN = 1` `KT`, `CT`, `CT_DIR` and `RROT` its traces. -/
def Obligations.EncryptBlockResult : Prop :=
  decode 0x00000040 = .ok .encryptBlock ∧
  ∀ (s : State) (size : KeySize), s.TablesOk → s.seq.ops.keylen = BitVec.ofNat 32 (4 * size.nk) →
    s.seq.ops.blklen = 16 →
    ∃ t, exec .encryptBlock s = .next t ∧ Succeeded t ∧ FrameExcept (writesOf .encryptBlock) s t ∧
      t.tables = some (buildTables s.traceEn) ∧
      (let x := expand (buildTables s.traceEn) size ((s.seq.ops.keyReg.toList.take size.nk).map unpack)
       let c := encrypt (buildTables s.traceEn) size.nr x.w (Block.ofRegs s.seq.ops.stateReg)
       t.stateReg = c.s.toRegs ∧ t.sched = some { size := size, words := x.w.map pack } ∧
       t.kt = (if s.traceEn then x.kt else s.kt) ∧
       t.ct = (if s.traceEn then some { decrypting := false, entries := c.ct } else s.ct) ∧
       (s.traceEn = true → ∃ y, c.rrot = some y ∧ t.rrot = some y ∧ y.inverse = false) ∧
       (s.traceEn = false → t.rrot = s.rrot))

/-- 45_cipher_fsm.md R293: DECRYPT_BLOCK, as ENCRYPT_BLOCK with `Decrypt`, `CT_DIR = 1` and `RROT_INV = 1`. -/
def Obligations.DecryptBlockResult : Prop :=
  decode 0x00000041 = .ok .decryptBlock ∧
  ∀ (s : State) (size : KeySize), s.TablesOk → s.seq.ops.keylen = BitVec.ofNat 32 (4 * size.nk) →
    s.seq.ops.blklen = 16 →
    ∃ t, exec .decryptBlock s = .next t ∧ Succeeded t ∧ FrameExcept (writesOf .decryptBlock) s t ∧
      t.tables = some (buildTables s.traceEn) ∧
      (let x := expand (buildTables s.traceEn) size ((s.seq.ops.keyReg.toList.take size.nk).map unpack)
       let c := decrypt (buildTables s.traceEn) size.nr x.w (Block.ofRegs s.seq.ops.stateReg)
       t.stateReg = c.s.toRegs ∧ t.sched = some { size := size, words := x.w.map pack } ∧
       t.kt = (if s.traceEn then x.kt else s.kt) ∧
       t.ct = (if s.traceEn then some { decrypting := true, entries := c.ct } else s.ct) ∧
       (s.traceEn = true → ∃ y, c.rrot = some y ∧ t.rrot = some y ∧ y.inverse = true) ∧
       (s.traceEn = false → t.rrot = s.rrot))

/-- 45_cipher_fsm.md R286, R287: the encryption trace: Nr + 2 entries; each START is the AFTER_KEY before it; each field is
its stage applied to the field before; `CT_INFO` as the rule gives it; the sentinel holds the ciphertext, and the
row-rotation trace is that of round Nr. -/
def Obligations.EncryptionTrace : Prop :=
  ∀ (t : FieldTables) (size : KeySize) (w : List Quad) (p : Block),
    let c := encrypt t size.nr w p
    c.ct.length = size.nr + 2 ∧
    c.ct[size.nr + 1]? = some { start := some c.s, sentinel := true } ∧
    (∀ x, c.ct[size.nr + 1]? = some x → ctInfo x = 0x00010001) ∧
    (∀ x, c.ct[0]? = some x → x.start = some p) ∧
    ∀ e, e ≤ size.nr → ∃ x y s k, c.ct[e]? = some x ∧ c.ct[e + 1]? = some y ∧ x.start = some s ∧
      x.roundKey = some ⟨e, roundKey w e⟩ ∧ x.afterKey = some k ∧ y.start = some k ∧
      (e = 0 → ctInfo x = 0x00000031 ∧ k = addRoundKey s (roundKey w 0)) ∧
      (0 < e → x.afterSub = some (subBytes t false s) ∧ x.afterShift = some (shiftRows false (subBytes t false s))) ∧
      (0 < e → e < size.nr → ctInfo x = 0x3F ||| (BitVec.ofNat 32 e <<< 8) ∧
        x.afterMix = some (mixColumns t false (shiftRows false (subBytes t false s))) ∧
        k = addRoundKey (mixColumns t false (shiftRows false (subBytes t false s))) (roundKey w e)) ∧
      (e = size.nr → ctInfo x = 0x37 ||| (BitVec.ofNat 32 size.nr <<< 8) ∧
        k = addRoundKey (shiftRows false (subBytes t false s)) (roundKey w e) ∧
        c.rrot = some (shiftTrace false (subBytes t false s)))

/-- 45_cipher_fsm.md R291, R292: the decryption trace: Nr + 2 entries in the order KEY, MIX, SHIFT, SUB, with the round
keys descending; each START is what the entry before it ended with; the sentinel holds the plaintext,
and the row-rotation trace is that of round 1. Decrypting what an encryption gave mirrors the encryption's trace. -/
def Obligations.DecryptionTrace : Prop :=
  (∀ (b : Bool) (size : KeySize) (w : List Quad) (p : Block) (e : Nat), 1 ≤ e → e ≤ size.nr - 1 →
    let enc := encrypt (buildTables b) size.nr w p
    let dec := decrypt (buildTables b) size.nr w enc.s
    ∃ x y, dec.ct[e]? = some x ∧ enc.ct[size.nr - e]? = some y ∧ x.afterSub = y.start ∧ x.afterKey = y.afterMix ∧
      y.start ≠ none ∧ y.afterMix ≠ none) ∧
  ∀ (t : FieldTables) (size : KeySize) (w : List Quad) (p : Block),
    let c := decrypt t size.nr w p
    c.ct.length = size.nr + 2 ∧
    c.ct[size.nr + 1]? = some { start := some c.s, sentinel := true } ∧
    (∀ x, c.ct[size.nr + 1]? = some x → ctInfo x = 0x00010001) ∧
    (∀ x, c.ct[0]? = some x → x.start = some p) ∧
    ∀ e, e ≤ size.nr → ∃ x y s k, c.ct[e]? = some x ∧ c.ct[e + 1]? = some y ∧ x.start = some s ∧
      x.roundKey = some ⟨size.nr - e, roundKey w (size.nr - e)⟩ ∧ x.afterKey = some k ∧
      k = addRoundKey s (roundKey w (size.nr - e)) ∧
      (e = 0 → ctInfo x = 0x37 ||| (BitVec.ofNat 32 size.nr <<< 8) ∧ x.afterShift = some (shiftRows true k) ∧
        x.afterSub = some (subBytes t true (shiftRows true k)) ∧ y.start = x.afterSub) ∧
      (0 < e → e < size.nr → ctInfo x = 0x3F ||| (BitVec.ofNat 32 (size.nr - e) <<< 8) ∧
        x.afterMix = some (mixColumns t true k) ∧ x.afterShift = some (shiftRows true (mixColumns t true k)) ∧
        x.afterSub = some (subBytes t true (shiftRows true (mixColumns t true k))) ∧ y.start = x.afterSub) ∧
      (e + 1 = size.nr → c.rrot = some (shiftTrace true (mixColumns t true k))) ∧
      (e = size.nr → ctInfo x = 0x00000031 ∧ y.start = some k)

/-- 45_cipher_fsm.md R294, the headline: "for any valid key and any 16-byte block, `decrypt(encrypt(block, key), key) ==
block`", in command terms: ENCRYPT_BLOCK then DECRYPT_BLOCK restores `STATE0..STATE3`, and so does the other order. -/
def Obligations.DecryptUndoesEncrypt : Prop :=
  ∀ s : State, s.TablesOk → s.busy = false → (s.keylen = 16 ∨ s.keylen = 24 ∨ s.keylen = 32) → s.blklen = 16 →
    (∃ t u, exec .encryptBlock (accept 0x00000040 s) = .next t ∧ exec .decryptBlock (accept 0x00000041 t) = .next u ∧
      u.stateReg = s.stateReg) ∧
    ∃ t u, exec .decryptBlock (accept 0x00000041 s) = .next t ∧ exec .encryptBlock (accept 0x00000040 t) = .next u ∧
      u.stateReg = s.stateReg

/-- 45_cipher_fsm.md R295 and 10_state.md R41: the results of ENCRYPT_BLOCK and DECRYPT_BLOCK depend on nothing but
`KEYLEN`, the first Nk key registers, `BLKLEN`, `STATE` and the constant tables. -/
def Obligations.CipherDependsOnlyOnItsOperands : Prop :=
  ∀ (i : Instr) (s s' t t' : State) (size : KeySize), i = .encryptBlock ∨ i = .decryptBlock →
    s.TablesOk → s'.TablesOk → s'.traceEn = s.traceEn →
    s.seq.ops.keylen = BitVec.ofNat 32 (4 * size.nk) → s'.seq.ops.keylen = s.seq.ops.keylen →
    (∀ j : Fin 8, j.val < size.nk → s'.seq.ops.keyReg[j] = s.seq.ops.keyReg[j]) →
    s.seq.ops.blklen = 16 → s'.seq.ops.blklen = 16 → s'.seq.ops.stateReg = s.seq.ops.stateReg →
    exec i s = .next t → exec i s' = .next t' →
    t'.stateReg = t.stateReg ∧ t'.sched = t.sched ∧ t'.tables = t.tables ∧
      (s.traceEn = true → t'.kt = t.kt ∧ t'.ct = t.ct ∧ t'.rrot = t.rrot)

/-- 60_exceptions.md R337: "No rule reads a trace, so `TRACE_EN` changes no non-trace result". Two states that differ in
`TRACE_EN` and in their traces give every command the same non-trace results. -/
def Obligations.TraceOptionChangesNoOtherResult : Prop :=
  ∀ (i : Instr) (s s' t t' : State), s.TablesOk → s'.TablesOk → s'.seq.ops = s.seq.ops →
    s'.res = s.res → s'.stateReg = s.stateReg → s'.sched = s.sched → s'.tablesReady = s.tablesReady →
    exec i s = .next t → exec i s' = .next t' →
    t'.res = t.res ∧ t'.stateReg = t.stateReg ∧ t'.sched = t.sched ∧ t'.tablesReady = t.tablesReady ∧
      t'.tables.map (fun x => (x.exp, x.log, x.sbox, x.invSbox)) =
        t.tables.map (fun x => (x.exp, x.log, x.sbox, x.invSbox)) ∧
      t'.done = t.done ∧ t'.error = t.error
end

