-- ==== Sys2Proof/Laws/Field.lean ====
section
/-! SUPPORT. The field arithmetic of spec/40_gf28_arith.md R148: the Russian-peasant product is additive in both
operands, so its laws follow from their values on single bits; the table product is the same product. -/

namespace Sys2Proof.Laws

open Sys2Proof.Machine

/-! ## Additive functions on bytes -/

/-- A byte under a bit: the byte or 0. -/
def sel (c : Bool) (x : Byte) : Byte := if c then x else 0

theorem sel_xor (c d : Bool) (x : Byte) : sel (c ^^ d) x = sel c x ^^^ sel d x := by
  cases c <;> cases d <;> simp [sel]

theorem sel_xor_right (c : Bool) (x y : Byte) : sel c (x ^^^ y) = sel c x ^^^ sel c y := by
  cases c <;> simp [sel]

/-- A function that takes XOR to XOR. -/
def Additive (f : Byte → Byte) : Prop := ∀ x y, f (x ^^^ y) = f x ^^^ f y

theorem Additive.zero {f : Byte → Byte} (h : Additive f) : f 0 = 0 := by
  have := h 0 0
  simpa using this

theorem Additive.sel {f : Byte → Byte} (h : Additive f) (c : Bool) (x : Byte) : f (sel c x) = Laws.sel c (f x) := by
  cases c
  · exact h.zero
  · rfl

theorem byte_bits (x : Byte) :
    x = sel (x.getLsbD 0) 1#8 ^^^ sel (x.getLsbD 1) 2#8 ^^^ sel (x.getLsbD 2) 4#8 ^^^ sel (x.getLsbD 3) 8#8 ^^^
      sel (x.getLsbD 4) 16#8 ^^^ sel (x.getLsbD 5) 32#8 ^^^ sel (x.getLsbD 6) 64#8 ^^^ sel (x.getLsbD 7) 128#8 := by
  revert x
  decide +kernel

/-- Two additive functions that agree on the eight single bits are equal. -/
theorem additive_ext {f g : Byte → Byte} (hf : Additive f) (hg : Additive g)
    (h : ∀ k : Fin 8, f (1#8 <<< k.val) = g (1#8 <<< k.val)) (x : Byte) : f x = g x := by
  have hs : ∀ (k : Fin 8) (b : Bool), f (sel b (1#8 <<< k.val)) = g (sel b (1#8 <<< k.val)) := by
    intro k b
    rw [hf.sel, hg.sel, h k]
  have hsum : ∀ {u : Byte → Byte}, Additive u → ∀ p q, u (p ^^^ q) = u p ^^^ u q := fun hu => hu
  rw [byte_bits x]
  simp only [hsum hf, hsum hg]
  congr
  exacts [hs 0 _, hs 1 _, hs 2 _, hs 3 _, hs 4 _, hs 5 _, hs 6 _, hs 7 _]

theorem additive_comp {f g : Byte → Byte} (hf : Additive f) (hg : Additive g) : Additive (fun x => f (g x)) := by
  intro x y
  change f (g (x ^^^ y)) = _
  rw [hg, hf]

/-! ## Doubling and the long product -/

theorem xtime_additive : Additive xtime := by
  have h : ∀ x : Byte, xtime x = (x <<< 1) ^^^ sel (x.getLsbD 7) 0x1B := by
    intro x
    unfold xtime sel
    split <;> simp_all
  intro x y
  rw [h, h, h, BitVec.shiftLeft_xor_distrib, BitVec.getLsbD_xor, sel_xor]
  ac_rfl

/-- The product as a sum over the bits of the first operand. -/
def bitSum : Nat → Byte → Byte → Byte
  | 0, _, _ => 0
  | n + 1, a, b => sel (a.getLsbD 0) b ^^^ bitSum n (a >>> 1) (xtime b)

theorem bitSum_zero (n : Nat) (b : Byte) : bitSum n 0 b = 0 := by
  induction n generalizing b with
  | zero => rfl
  | succ n ih =>
    have h : (0 : Byte) >>> 1 = 0 := by decide
    rw [bitSum, h, ih]
    simp [sel]

theorem multiplyLoop_eq (n : Nat) (a b acc : Byte) : multiplyLoop n a b acc = acc ^^^ bitSum n a b := by
  induction n generalizing a b acc with
  | zero => simp [multiplyLoop, bitSum]
  | succ n ih =>
    rw [multiplyLoop]
    split
    · rename_i h; subst h; rw [bitSum_zero]; simp
    · rw [ih, bitSum, sel]
      split
      · rw [BitVec.xor_assoc]
      · simp

theorem multiplyLong_eq_bitSum (a b : Byte) : multiplyLong a b = bitSum 8 a b := by
  simp [multiplyLong, multiplyLoop_eq]

theorem bitSum_additive_right (n : Nat) (a : Byte) : Additive (bitSum n a) := by
  induction n generalizing a with
  | zero => intro x y; simp [bitSum]
  | succ n ih =>
    intro x y
    simp only [bitSum, xtime_additive x y, ih _ _ _, sel_xor_right]
    ac_rfl

theorem bitSum_additive_left (n : Nat) (b : Byte) : Additive (fun a => bitSum n a b) := by
  induction n generalizing b with
  | zero => intro x y; simp [bitSum]
  | succ n ih =>
    intro x y
    have h := ih (xtime b) (x >>> 1) (y >>> 1)
    simp only at h
    simp only [bitSum, BitVec.ushiftRight_xor_distrib, h, BitVec.getLsbD_xor, sel_xor]
    ac_rfl

theorem multiplyLong_additive_right (a : Byte) : Additive (multiplyLong a) := by
  intro x y
  simp only [multiplyLong_eq_bitSum, bitSum_additive_right 8 a x y]

theorem multiplyLong_additive_left (b : Byte) : Additive (fun a => multiplyLong a b) := by
  intro x y
  simp only [multiplyLong_eq_bitSum]
  exact bitSum_additive_left 8 b x y

/-- The product distributes over `add` (40_gf28_arith.md R148, law 5). -/
theorem multiplyLong_xor_right (a b c : Byte) :
    multiplyLong a (b ^^^ c) = multiplyLong a b ^^^ multiplyLong a c := multiplyLong_additive_right a b c

theorem multiplyLong_xor_left (a b c : Byte) :
    multiplyLong (a ^^^ b) c = multiplyLong a c ^^^ multiplyLong b c := multiplyLong_additive_left c a b

theorem multiplyLong_zero_left (b : Byte) : multiplyLong 0 b = 0 := (multiplyLong_additive_left b).zero

/-- A product with 0 (40_gf28_arith.md R148, law 7). -/
theorem multiplyLong_zero_right (a : Byte) : multiplyLong a 0 = 0 := (multiplyLong_additive_right a).zero

/-- The product commutes (40_gf28_arith.md R148, law 2). -/
theorem multiplyLong_comm (a b : Byte) : multiplyLong a b = multiplyLong b a := by
  have h : ∀ k l : Fin 8, multiplyLong (1#8 <<< k.val) (1#8 <<< l.val) = multiplyLong (1#8 <<< l.val) (1#8 <<< k.val) := by
    decide +kernel
  refine additive_ext (multiplyLong_additive_left b) (multiplyLong_additive_right b) (fun k => ?_) a
  exact additive_ext (multiplyLong_additive_right _) (multiplyLong_additive_left _) (fun l => h k l) b

/-- The product is associative (40_gf28_arith.md R148, law 2). -/
theorem multiplyLong_assoc (a b c : Byte) :
    multiplyLong a (multiplyLong b c) = multiplyLong (multiplyLong a b) c := by
  have h : ∀ k l m : Fin 8, multiplyLong (1#8 <<< k.val) (multiplyLong (1#8 <<< l.val) (1#8 <<< m.val)) =
      multiplyLong (multiplyLong (1#8 <<< k.val) (1#8 <<< l.val)) (1#8 <<< m.val) := by
    decide +kernel
  refine additive_ext (multiplyLong_additive_left _)
    (additive_comp (multiplyLong_additive_left c) (multiplyLong_additive_left b)) (fun k => ?_) a
  refine additive_ext (additive_comp (multiplyLong_additive_right _) (multiplyLong_additive_left c))
    (additive_comp (multiplyLong_additive_left c) (multiplyLong_additive_right _)) (fun l => ?_) b
  exact additive_ext (additive_comp (multiplyLong_additive_right _) (multiplyLong_additive_right _))
    (multiplyLong_additive_right _) (fun m => h k l m) c

theorem multiplyLong_one (b : Byte) : multiplyLong 1 b = b :=
  additive_ext (g := id) (multiplyLong_additive_right 1) (fun _ _ => rfl) (by decide +kernel) b

/-- Doubling is the product with 2 (40_gf28_arith.md R148, law 4). -/
theorem xtime_eq (b : Byte) : xtime b = multiplyLong 2 b :=
  additive_ext xtime_additive (multiplyLong_additive_right 2) (by decide +kernel) b

/-! ## The tables -/

/-- The powers of the generator 3 (40_gf28_arith.md R144). -/
def powThree : Nat → Byte
  | 0 => 1
  | n + 1 => multiplyLong (powThree n) 3

theorem powThree_add (i j : Nat) : multiplyLong (powThree i) (powThree j) = powThree (i + j) := by
  induction j with
  | zero => rw [powThree, multiplyLong_comm, multiplyLong_one]; rfl
  | succ j ih => rw [powThree, multiplyLong_assoc, ih]; rfl

theorem powThree_period : powThree 255 = 1 := by decide +kernel

theorem powThree_add_period (n : Nat) : powThree (n + 255) = powThree n := by
  rw [← powThree_add, powThree_period, multiplyLong_comm, multiplyLong_one]

theorem powThree_mod (n : Nat) : powThree (n % 255) = powThree n := by
  have h : ∀ q r, powThree (r + 255 * q) = powThree r := by
    intro q r
    induction q with
    | zero => rfl
    | succ q ih => rw [Nat.mul_succ, ← Nat.add_assoc, powThree_add_period, ih]
  conv_rhs => rw [← Nat.mod_add_div n 255]
  rw [h]

theorem powersOfThree_getElem (n k j : Nat) (h : k < n) :
    (powersOfThree n (powThree j))[k]? = some (powThree (j + k)) := by
  induction n generalizing k j with
  | zero => omega
  | succ n ih =>
    cases k with
    | zero => rfl
    | succ k =>
      have := ih k (j + 1) (by omega)
      rw [powersOfThree, List.getElem?_cons_succ]
      change (powersOfThree n (powThree (j + 1)))[k]? = _
      rw [this, show j + 1 + k = j + (k + 1) by omega]

/-- Entry k of the exponent table is the k-th power of 3 (40_gf28_arith.md R144). -/
theorem expTable_getElem (k : Nat) (h : k < 256) : expTable[k] = powThree k := by
  have hl : expTable.toList[k]? = some (powThree k) := by
    have he : expTable.toList = powersOfThree 255 0x01 ++ [0x01] := by simp [expTable]
    rw [he]
    by_cases hk : k < 255
    · rw [List.getElem?_append_left (by rw [powersOfThree_length]; exact hk)]
      have := powersOfThree_getElem 255 k 0 hk
      rwa [Nat.zero_add] at this
    · have : k = 255 := by omega
      subst this
      rw [List.getElem?_append_right (by rw [powersOfThree_length]), powersOfThree_length, powThree_period]
      rfl
  have : expTable.toList[k]'(by simpa using h) = powThree k := by
    rw [← Option.some_inj, ← List.getElem?_eq_getElem, hl]
  simpa using this

/-- Every nonzero byte is a power of 3. -/
theorem mem_powersOfThree (b : Byte) (hb : b ≠ 0) : b ∈ powersOfThree 255 1 := by
  have h : ∀ b : Byte, b = 0 ∨ (powersOfThree 255 1).contains b = true := by decide +kernel
  simpa using (h b).resolve_left hb

/-- Filling a table by `LOG[EXP[k]] = k` leaves at every filled place an index of that place (40_gf28_arith.md R145). -/
theorem logFold (f : Byte → Byte) (l : List (Byte × Nat)) (hl : ∀ p ∈ l, f (BitVec.ofNat 8 p.2) = p.1) (t : ByteTable)
    (b : Byte) (h : b ∈ l.map Prod.fst ∨ f (tableAt t b) = b) :
    f (tableAt (l.foldl (fun t p => t.set p.1.toNat (BitVec.ofNat 8 p.2) p.1.isLt) t) b) = b := by
  induction l generalizing t with
  | nil => simpa using h
  | cons p l ih =>
    refine ih (fun q hq => hl q (List.mem_cons_of_mem _ hq)) _ ?_
    by_cases hp : b = p.1
    · right
      subst hp
      simpa [tableAt] using hl p List.mem_cons_self
    · have hne : p.1.toNat ≠ b.toNat := fun e => hp (BitVec.eq_of_toNat_eq e.symm)
      rcases h with h | h
      · left; simpa [hp] using h
      · right; simpa [tableAt, hne] using h

/-- The log table inverts the exponent table (40_gf28_arith.md R145). -/
theorem expTable_logTable (b : Byte) (hb : b ≠ 0) : tableAt expTable (tableAt logTable b) = b := by
  refine logFold (tableAt expTable) expTable.toList.zipIdx ?_ _ b (.inl ?_)
  · rintro ⟨x, k⟩ hp
    rw [List.mem_zipIdx_iff_getElem?] at hp
    obtain ⟨hk, hx⟩ := List.getElem?_eq_some_iff.1 hp
    have hk' : k < 256 := by simpa using hk
    change expTable[(BitVec.ofNat 8 k).toNat]'(BitVec.ofNat 8 k).isLt = x
    have : (BitVec.ofNat 8 k).toNat = k := by simp [Nat.mod_eq_of_lt hk']
    simp only [this]
    simpa using hx
  · have he : expTable.toList = powersOfThree 255 0x01 ++ [0x01] := by simp [expTable]
    rw [List.zipIdx_map_fst, he]
    exact List.mem_append_left _ (mem_powersOfThree b hb)

theorem powThree_ne_zero (n : Nat) : powThree n ≠ 0 := by
  intro h
  have hm := powThree_add n (254 * n)
  rw [h, multiplyLong_zero_left, show n + 254 * n = 0 + 255 * n by omega, ← powThree_mod] at hm
  simp [powThree] at hm

/-- Filling leaves every place alone that no entry names. -/
theorem logFold_other (l : List (Byte × Nat)) (t : ByteTable) (b : Byte) (h : ∀ p ∈ l, p.1 ≠ b) :
    tableAt (l.foldl (fun t p => t.set p.1.toNat (BitVec.ofNat 8 p.2) p.1.isLt) t) b = tableAt t b := by
  induction l generalizing t with
  | nil => rfl
  | cons p l ih =>
    rw [List.foldl_cons, ih _ (fun q hq => h q (List.mem_cons_of_mem _ hq))]
    have hne : p.1.toNat ≠ b.toNat := fun e => h p List.mem_cons_self (BitVec.eq_of_toNat_eq e)
    simp [tableAt, hne]

/-- Entry 0 of the log table is the open parameter (40_gf28_arith.md R145). -/
theorem log_zero : tableAt logTable 0 = Config.log0 := by
  refine (logFold_other expTable.toList.zipIdx _ 0 ?_).trans ?_
  · rintro ⟨x, k⟩ hp h0
    rw [List.mem_zipIdx_iff_getElem?] at hp
    obtain ⟨hk, hx⟩ := List.getElem?_eq_some_iff.1 hp
    have hk' : k < 256 := by simpa using hk
    have := expTable_getElem k hk'
    rw [← Vector.getElem_toList (by simpa using hk')] at this
    exact powThree_ne_zero k (this.symm.trans (hx.trans h0))
  · simp [tableAt]

theorem powThree_log (b : Byte) (hb : b ≠ 0) : powThree (tableAt logTable b).toNat = b := by
  conv_rhs => rw [← expTable_logTable b hb]
  exact (expTable_getElem _ (tableAt logTable b).isLt).symm

/-- The table product is the field product (40_gf28_arith.md R148, law 1). -/
theorem multiply_eq (a b : Byte) : multiply expTable logTable a b = multiplyLong a b := by
  unfold multiply
  split
  · rename_i h
    rcases h with h | h <;> subst h
    · rw [multiplyLong_zero_left]
    · rw [multiplyLong_zero_right]
  · rename_i h
    have ha : a ≠ 0 := fun h' => h (.inl h')
    have hb : b ≠ 0 := fun h' => h (.inr h')
    rw [expTable_getElem, productIndex, powThree_mod, ← powThree_add, powThree_log a ha, powThree_log b hb]

theorem log_one : tableAt logTable 1 = 0xFF := by decide +kernel

theorem log_ne_zero (b : Byte) (hb : b ≠ 0) : 0 < (tableAt logTable b).toNat := by
  rw [Nat.pos_iff_ne_zero]
  intro h
  have hp := powThree_log b hb
  rw [h] at hp
  have h1 : b = 1 := hp.symm
  subst h1
  rw [log_one] at h
  exact absurd h (by decide)

/-- The index of an inverse stays within 0 to 254 (40_gf28_arith.md R148, law 6). -/
theorem inverseIndex_lt (b : Byte) (hb : b ≠ 0) : inverseIndex logTable b < 255 := by
  have := log_ne_zero b hb
  unfold inverseIndex
  omega

/-- The inverse of 0 is 0 (40_gf28_arith.md R148, law 7). -/
theorem invert_zero : invert expTable logTable 0 = 0 := rfl

/-- `invert` gives the field inverse (40_gf28_arith.md R148, law 3). -/
theorem multiplyLong_invert (a : Byte) (ha : a ≠ 0) : multiplyLong a (invert expTable logTable a) = 1 := by
  have hl := (tableAt logTable a).isLt
  unfold invert
  rw [if_neg ha, expTable_getElem]
  conv_lhs => rw [← powThree_log a ha]
  rw [powThree_log a ha]
  conv_lhs => arg 1; rw [← powThree_log a ha]
  rw [inverseIndex, powThree_add, show (tableAt logTable a).toNat + (255 - (tableAt logTable a).toNat) = 255 by omega,
    powThree_period]

theorem invert_ne_zero (a : Byte) (ha : a ≠ 0) : invert expTable logTable a ≠ 0 := by
  intro h
  have := multiplyLong_invert a ha
  rw [h, multiplyLong_zero_right] at this
  exact absurd this (by decide)

/-- Inverting twice is the identity (40_gf28_arith.md R148, law 3). -/
theorem invert_invert (a : Byte) : invert expTable logTable (invert expTable logTable a) = a := by
  by_cases ha : a = 0
  · subst ha; rfl
  · have h1 := multiplyLong_invert a ha
    have h2 := multiplyLong_invert _ (invert_ne_zero a ha)
    generalize invert expTable logTable (invert expTable logTable a) = c at *
    generalize invert expTable logTable a = b at *
    have : multiplyLong (multiplyLong a b) c = multiplyLong a (multiplyLong b c) := (multiplyLong_assoc a b c).symm
    rw [h1, h2, multiplyLong_one, multiplyLong_comm, multiplyLong_one] at this
    exact this

/-! ## The product modulo m(x) -/

/-- A property that XOR keeps and the eight single bits have holds of every byte. -/
theorem byte_induction {P : Byte → Prop} (h0 : P 0) (hx : ∀ x y, P x → P y → P (x ^^^ y))
    (hb : ∀ k : Fin 8, P (1#8 <<< k.val)) (x : Byte) : P x := by
  have hs : ∀ (k : Fin 8) (c : Bool), P (sel c (1#8 <<< k.val)) := fun k c => by
    cases c
    · exact h0
    · exact hb k
  rw [byte_bits x]
  iterate 7 refine hx _ _ ?_ ?_
  exacts [hs 0 _, hs 1 _, hs 2 _, hs 3 _, hs 4 _, hs 5 _, hs 6 _, hs 7 _]

theorem polySum_xor_left (n : Nat) (a b : Byte) (y : BitVec 16) :
    polySum n (a ^^^ b) y = polySum n a y ^^^ polySum n b y := by
  induction n with
  | zero => simp [polySum]
  | succ n ih =>
    have hc : ∀ (c d : Bool) (z : BitVec 16), (if c ^^ d then z else 0) = (if c then z else 0) ^^^ if d then z else 0 := by
      intro c d z
      cases c <;> cases d <;> simp
    simp only [polySum, ih, BitVec.getLsbD_xor, hc]
    ac_rfl

theorem polySum_xor_right (n : Nat) (a : Byte) (y z : BitVec 16) :
    polySum n a (y ^^^ z) = polySum n a y ^^^ polySum n a z := by
  induction n with
  | zero => simp [polySum]
  | succ n ih =>
    have hc : ∀ (c : Bool) (u v : BitVec 16), (if c then u ^^^ v else 0) = (if c then u else 0) ^^^ if c then v else 0 := by
      intro c u v
      cases c <;> simp
    simp only [polySum, ih, BitVec.shiftLeft_xor_distrib, hc]
    ac_rfl

/-- `r` is what `p` leaves modulo m(x). -/
def Leaves (p : BitVec 16) (r : Byte) : Prop := ∃ q, p = polyProduct q fieldPolynomial ^^^ r.setWidth 16

theorem Leaves.xor {p p' : BitVec 16} {r r' : Byte} (h : Leaves p r) (h' : Leaves p' r') :
    Leaves (p ^^^ p') (r ^^^ r') := by
  obtain ⟨q, rfl⟩ := h
  obtain ⟨q', rfl⟩ := h'
  refine ⟨q ^^^ q', ?_⟩
  rw [polyProduct, polyProduct, polyProduct, polySum_xor_left, BitVec.setWidth_xor]
  ac_rfl

/-- The quotients of x^0 to x^14 by m(x). -/
def singleBitQuotients : List Byte := [0, 0, 0, 0, 0, 0, 0, 0, 0x01, 0x02, 0x04, 0x08, 0x11, 0x23, 0x46]

/-- `multiplyLong` is the product modulo m(x) (40_gf28_arith.md R148, law 1). -/
theorem multiplyLong_modulo (a b : Byte) : Leaves (polyProduct a (b.setWidth 16)) (multiplyLong a b) := by
  refine byte_induction (P := fun a => Leaves (polyProduct a (b.setWidth 16)) (multiplyLong a b)) ?_ ?_ ?_ a
  · rw [multiplyLong_zero_left]
    exact ⟨0, by simp [polyProduct, polySum]⟩
  · intro x y hx hy
    rw [polyProduct, polySum_xor_left, multiplyLong_xor_left]
    exact Leaves.xor hx hy
  · intro k
    refine byte_induction
      (P := fun b => Leaves (polyProduct (1#8 <<< k.val) (b.setWidth 16)) (multiplyLong (1#8 <<< k.val) b)) ?_ ?_ ?_ b
    · rw [multiplyLong_zero_right]
      revert k
      unfold Leaves
      exact fun k => ⟨0, by revert k; decide⟩
    · intro x y hx hy
      rw [polyProduct, BitVec.setWidth_xor, polySum_xor_right, multiplyLong_xor_right]
      exact Leaves.xor hx hy
    · intro j
      refine ⟨singleBitQuotients.getD (k.val + j.val) 0, ?_⟩
      revert k j
      decide

end Sys2Proof.Laws
end

