-- ==== Sys2Proof/Laws/Boxes.lean ====
section
/-! SUPPORT. What the table build makes (spec/41_sbox_lut.md R171 to R173): the S-box entry by entry, its inverse, and
that the two have no fixed point. -/

namespace Sys2Proof.Laws

open Sys2Proof.Machine

theorem buildTables_exp (e : Bool) : (buildTables e).exp = expTable := by simp only [buildTables]

theorem buildTables_log (e : Bool) : (buildTables e).log = logTable := by simp only [buildTables]

/-- The S-box image of a byte, without the tables (41_sbox_lut.md R171). -/
def boxOf (b : Byte) : Byte := affine (invert expTable logTable b)

theorem affine_injective : Function.Injective affine := by
  have h : ∀ x : Byte, (affine x).rotateLeft 1 ^^^ (affine x).rotateLeft 3 ^^^ (affine x).rotateLeft 6 ^^^ 0x05 = x := by
    decide +kernel
  intro x y hxy
  rw [← h x, ← h y, hxy]

theorem boxOf_injective : Function.Injective boxOf := by
  intro x y h
  have := affine_injective h
  rw [← invert_invert x, ← invert_invert y, this]

theorem boxOf_surjective : Function.Surjective boxOf := Finite.injective_iff_surjective.1 boxOf_injective

/-- One step of the S-box construction. -/
def boxStep (t : ByteTable × ByteTable) (i : Byte) : ByteTable × ByteTable :=
  (t.1.set i.toNat (boxOf i) i.isLt, t.2.set (boxOf i).toNat i (boxOf i).isLt)

theorem sboxTables_eq : sboxTables expTable logTable =
    allBytes.foldl boxStep (Vector.replicate 256 0, Vector.replicate 256 0) := rfl

theorem boxFold_fst (l : List Byte) (t : ByteTable × ByteTable) (b : Byte) :
    tableAt (l.foldl boxStep t).1 b = if b ∈ l then boxOf b else tableAt t.1 b := by
  induction l generalizing t with
  | nil => rfl
  | cons i l ih =>
    rw [List.foldl_cons, ih]
    by_cases hb : b ∈ l
    · simp [hb]
    · by_cases hi : b = i
      · subst hi; simp [hb, boxStep, tableAt]
      · have : i.toNat ≠ b.toNat := fun h => hi (BitVec.eq_of_toNat_eq h.symm)
        simp [hb, hi, boxStep, tableAt, this]

theorem boxFold_snd (l : List Byte) (t : ByteTable × ByteTable) (b : Byte) :
    tableAt (l.foldl boxStep t).2 (boxOf b) = if b ∈ l then b else tableAt t.2 (boxOf b) := by
  induction l generalizing t with
  | nil => rfl
  | cons i l ih =>
    rw [List.foldl_cons, ih]
    by_cases hb : b ∈ l
    · simp [hb]
    · by_cases hi : b = i
      · subst hi; simp [hb, boxStep, tableAt]
      · have : (boxOf i).toNat ≠ (boxOf b).toNat := fun h => hi (boxOf_injective (BitVec.eq_of_toNat_eq h.symm))
        simp [hb, hi, boxStep, tableAt, this]

theorem mem_allBytes (b : Byte) : b ∈ allBytes := by
  simp only [allBytes, List.mem_map, List.mem_range]
  exact ⟨b.toNat, b.isLt, by simp⟩

/-- Entry b of the S-box (41_sbox_lut.md R171). -/
theorem sbox_entry (e : Bool) (b : Byte) : tableAt (buildTables e).sbox b = affine (invert expTable logTable b) := by
  change tableAt (sboxTables expTable logTable).1 b = boxOf b
  rw [sboxTables_eq, boxFold_fst, if_pos (mem_allBytes b)]

/-- The inverse S-box undoes the S-box (41_sbox_lut.md R172). -/
theorem invSbox_sbox (e : Bool) (b : Byte) : tableAt (buildTables e).invSbox (tableAt (buildTables e).sbox b) = b := by
  rw [sbox_entry]
  change tableAt (sboxTables expTable logTable).2 (boxOf b) = b
  rw [sboxTables_eq, boxFold_snd, if_pos (mem_allBytes b)]

/-- The S-box undoes the inverse S-box (41_sbox_lut.md R172). -/
theorem sbox_invSbox (e : Bool) (b : Byte) : tableAt (buildTables e).sbox (tableAt (buildTables e).invSbox b) = b := by
  obtain ⟨x, rfl⟩ := boxOf_surjective b
  have h : boxOf x = tableAt (buildTables e).sbox x := (sbox_entry e x).symm
  rw [h, invSbox_sbox]

/-- The S-box has no fixed point (41_sbox_lut.md R172). -/
theorem sbox_ne (e : Bool) (b : Byte) : tableAt (buildTables e).sbox b ≠ b := by
  have hx : ∀ x : Byte, multiplyLong (affine x) x ≠ 1 := by decide +kernel
  rw [sbox_entry]
  intro h
  by_cases hb : b = 0
  · subst hb; rw [invert_zero] at h; exact absurd h (by decide)
  · have := multiplyLong_invert b hb
    generalize invert expTable logTable b = x at *
    subst h
    exact hx x this

/-- Nor has the inverse S-box. -/
theorem invSbox_ne (e : Bool) (b : Byte) : tableAt (buildTables e).invSbox b ≠ b := by
  intro h
  have := sbox_invSbox e b
  rw [h] at this
  exact sbox_ne e b this

end Sys2Proof.Laws
end

