-- ==== Sys2Proof/Laws/State.lean ====
section
/-! SUPPORT. One lemma per field per named update of State (acceptance, commit, staging, host access, reset), so that no
later proof unfolds a record update. -/

namespace Sys2Proof.Laws

open Sys2Proof.Machine

/-! ## Acceptance -/

@[simp] theorem accept_traceEn (v : Word) (s : State) : (accept v s).traceEn = s.traceEn := rfl

@[simp] theorem accept_cmd (v : Word) (s : State) : (accept v s).cmd = v := rfl

@[simp] theorem accept_done (v : Word) (s : State) : (accept v s).done = false := rfl

@[simp] theorem accept_error (v : Word) (s : State) : (accept v s).error = none := rfl

@[simp] theorem accept_keylen (v : Word) (s : State) : (accept v s).keylen = s.keylen := rfl

@[simp] theorem accept_blklen (v : Word) (s : State) : (accept v s).blklen = s.blklen := rfl

@[simp] theorem accept_opa (v : Word) (s : State) : (accept v s).opa = s.opa := rfl

@[simp] theorem accept_opb (v : Word) (s : State) : (accept v s).opb = s.opb := rfl

@[simp] theorem accept_res (v : Word) (s : State) : (accept v s).res = s.res := rfl

@[simp] theorem accept_keyReg (v : Word) (s : State) : (accept v s).keyReg = s.keyReg := rfl

@[simp] theorem accept_stateReg (v : Word) (s : State) : (accept v s).stateReg = s.stateReg := rfl

@[simp] theorem accept_tables (v : Word) (s : State) : (accept v s).tables = s.tables := rfl

@[simp] theorem accept_sched (v : Word) (s : State) : (accept v s).sched = s.sched := rfl

@[simp] theorem accept_kt (v : Word) (s : State) : (accept v s).kt = s.kt := rfl

@[simp] theorem accept_ct (v : Word) (s : State) : (accept v s).ct = s.ct := rfl

@[simp] theorem accept_rrot (v : Word) (s : State) : (accept v s).rrot = s.rrot := rfl

@[simp] theorem accept_seq (v : Word) (s : State) : (accept v s).seq = { Sequencer.rest with phase := .check, cur := v, ops := capture s } := rfl

@[simp] theorem accept_faulted (v : Word) (s : State) : (accept v s).faulted = s.faulted := rfl

@[simp] theorem accept_schedule (v : Word) (s : State) : (accept v s).schedule = s.schedule := rfl

@[simp] theorem accept_lastRead (v : Word) (s : State) : (accept v s).lastRead = s.lastRead := rfl

@[simp] theorem accept_draws (v : Word) (s : State) : (accept v s).draws = s.draws := rfl

@[simp] theorem accept_busy (v : Word) (s : State) : (accept v s).busy = true := rfl

/-! ## Commit -/

@[simp] theorem commit_traceEn (o : CmdOutcome) (s : State) : (commit o s).traceEn = s.traceEn := by cases o <;> rfl

@[simp] theorem commit_cmd (o : CmdOutcome) (s : State) : (commit o s).cmd = s.cmd := by cases o <;> rfl

@[simp] theorem commit_done (o : CmdOutcome) (s : State) : (commit o s).done = true := by cases o <;> rfl

@[simp] theorem commit_ok_error_flag (r : Results) (s : State) : (commit (.ok r) s).error = none := rfl

@[simp] theorem commit_error_error_flag (c : ErrCode) (s : State) : (commit (.error c) s).error = some c := rfl

@[simp] theorem commit_keylen (o : CmdOutcome) (s : State) : (commit o s).keylen = s.keylen := by cases o <;> rfl

@[simp] theorem commit_blklen (o : CmdOutcome) (s : State) : (commit o s).blklen = s.blklen := by cases o <;> rfl

@[simp] theorem commit_opa (o : CmdOutcome) (s : State) : (commit o s).opa = s.opa := by cases o <;> rfl

@[simp] theorem commit_opb (o : CmdOutcome) (s : State) : (commit o s).opb = s.opb := by cases o <;> rfl

@[simp] theorem commit_ok_res (r : Results) (s : State) : (commit (.ok r) s).res = r.res.getD s.res := rfl

@[simp] theorem commit_error_res (c : ErrCode) (s : State) : (commit (.error c) s).res = s.res := rfl

@[simp] theorem commit_keyReg (o : CmdOutcome) (s : State) : (commit o s).keyReg = s.keyReg := by cases o <;> rfl

@[simp] theorem commit_ok_stateReg (r : Results) (s : State) : (commit (.ok r) s).stateReg = (r.block.map Block.toRegs).getD s.stateReg := rfl

@[simp] theorem commit_error_stateReg (c : ErrCode) (s : State) : (commit (.error c) s).stateReg = s.stateReg := rfl

@[simp] theorem commit_ok_tables (r : Results) (s : State) : (commit (.ok r) s).tables = s.tables.or r.tables := rfl

@[simp] theorem commit_error_tables (c : ErrCode) (s : State) : (commit (.error c) s).tables = s.tables := rfl

@[simp] theorem commit_ok_sched (r : Results) (s : State) : (commit (.ok r) s).sched = r.sched.or s.sched := rfl

@[simp] theorem commit_error_sched (c : ErrCode) (s : State) : (commit (.error c) s).sched = s.sched := rfl

@[simp] theorem commit_ok_kt (r : Results) (s : State) : (commit (.ok r) s).kt = r.kt.getD s.kt := rfl

@[simp] theorem commit_error_kt (c : ErrCode) (s : State) : (commit (.error c) s).kt = s.kt := rfl

@[simp] theorem commit_ok_ct (r : Results) (s : State) : (commit (.ok r) s).ct = r.ct.or s.ct := rfl

@[simp] theorem commit_error_ct (c : ErrCode) (s : State) : (commit (.error c) s).ct = s.ct := rfl

@[simp] theorem commit_ok_rrot (r : Results) (s : State) : (commit (.ok r) s).rrot = r.rrot.or s.rrot := rfl

@[simp] theorem commit_error_rrot (c : ErrCode) (s : State) : (commit (.error c) s).rrot = s.rrot := rfl

@[simp] theorem commit_seq (o : CmdOutcome) (s : State) : (commit o s).seq = Sequencer.rest := by cases o <;> rfl

@[simp] theorem commit_faulted (o : CmdOutcome) (s : State) : (commit o s).faulted = s.faulted := by cases o <;> rfl

@[simp] theorem commit_schedule (o : CmdOutcome) (s : State) : (commit o s).schedule = s.schedule := by cases o <;> rfl

@[simp] theorem commit_lastRead (o : CmdOutcome) (s : State) : (commit o s).lastRead = s.lastRead := by cases o <;> rfl

@[simp] theorem commit_draws (o : CmdOutcome) (s : State) : (commit o s).draws = s.draws := by cases o <;> rfl

@[simp] theorem commit_busy (o : CmdOutcome) (s : State) : (commit o s).busy = false := by cases o <;> rfl

/-- Commit does not depend on the sequencer's hidden registers. -/
@[simp] theorem commit_with_seq (o : CmdOutcome) (s : State) (q : Sequencer) :
    commit o { s with seq := q } = commit o s := by cases o <;> rfl

/-- Commit carries the schedule along. -/
theorem commit_with_schedule (o : CmdOutcome) (s : State) (es : List HostEvent) :
    commit o { s with schedule := es } = { commit o s with schedule := es } := by cases o <;> rfl

/-! ## Staging an outcome -/

@[simp] theorem stageOutcome_traceEn (o : CmdOutcome) (s : State) : (stageOutcome o s).traceEn = s.traceEn := rfl

@[simp] theorem stageOutcome_cmd (o : CmdOutcome) (s : State) : (stageOutcome o s).cmd = s.cmd := rfl

@[simp] theorem stageOutcome_done (o : CmdOutcome) (s : State) : (stageOutcome o s).done = s.done := rfl

@[simp] theorem stageOutcome_error (o : CmdOutcome) (s : State) : (stageOutcome o s).error = s.error := rfl

@[simp] theorem stageOutcome_keylen (o : CmdOutcome) (s : State) : (stageOutcome o s).keylen = s.keylen := rfl

@[simp] theorem stageOutcome_blklen (o : CmdOutcome) (s : State) : (stageOutcome o s).blklen = s.blklen := rfl

@[simp] theorem stageOutcome_opa (o : CmdOutcome) (s : State) : (stageOutcome o s).opa = s.opa := rfl

@[simp] theorem stageOutcome_opb (o : CmdOutcome) (s : State) : (stageOutcome o s).opb = s.opb := rfl

@[simp] theorem stageOutcome_res (o : CmdOutcome) (s : State) : (stageOutcome o s).res = s.res := rfl

@[simp] theorem stageOutcome_keyReg (o : CmdOutcome) (s : State) : (stageOutcome o s).keyReg = s.keyReg := rfl

@[simp] theorem stageOutcome_stateReg (o : CmdOutcome) (s : State) : (stageOutcome o s).stateReg = s.stateReg := rfl

@[simp] theorem stageOutcome_tables (o : CmdOutcome) (s : State) : (stageOutcome o s).tables = s.tables := rfl

@[simp] theorem stageOutcome_sched (o : CmdOutcome) (s : State) : (stageOutcome o s).sched = s.sched := rfl

@[simp] theorem stageOutcome_kt (o : CmdOutcome) (s : State) : (stageOutcome o s).kt = s.kt := rfl

@[simp] theorem stageOutcome_ct (o : CmdOutcome) (s : State) : (stageOutcome o s).ct = s.ct := rfl

@[simp] theorem stageOutcome_rrot (o : CmdOutcome) (s : State) : (stageOutcome o s).rrot = s.rrot := rfl

@[simp] theorem stageOutcome_seq (o : CmdOutcome) (s : State) :
    (stageOutcome o s).seq = { s.seq with phase := .commit, staged := o } := rfl

@[simp] theorem stageOutcome_faulted (o : CmdOutcome) (s : State) : (stageOutcome o s).faulted = s.faulted := rfl

@[simp] theorem stageOutcome_schedule (o : CmdOutcome) (s : State) : (stageOutcome o s).schedule = s.schedule := rfl

@[simp] theorem stageOutcome_lastRead (o : CmdOutcome) (s : State) : (stageOutcome o s).lastRead = s.lastRead := rfl

@[simp] theorem stageOutcome_draws (o : CmdOutcome) (s : State) : (stageOutcome o s).draws = s.draws := rfl

/-! ## Host reads -/

@[simp] theorem hostRead_traceEn (a : Addr) (s : State) : (hostRead a s).traceEn = s.traceEn := rfl

@[simp] theorem hostRead_cmd (a : Addr) (s : State) : (hostRead a s).cmd = s.cmd := rfl

@[simp] theorem hostRead_done (a : Addr) (s : State) : (hostRead a s).done = s.done := rfl

@[simp] theorem hostRead_error (a : Addr) (s : State) : (hostRead a s).error = s.error := rfl

@[simp] theorem hostRead_keylen (a : Addr) (s : State) : (hostRead a s).keylen = s.keylen := rfl

@[simp] theorem hostRead_blklen (a : Addr) (s : State) : (hostRead a s).blklen = s.blklen := rfl

@[simp] theorem hostRead_opa (a : Addr) (s : State) : (hostRead a s).opa = s.opa := rfl

@[simp] theorem hostRead_opb (a : Addr) (s : State) : (hostRead a s).opb = s.opb := rfl

@[simp] theorem hostRead_res (a : Addr) (s : State) : (hostRead a s).res = s.res := rfl

@[simp] theorem hostRead_keyReg (a : Addr) (s : State) : (hostRead a s).keyReg = s.keyReg := rfl

@[simp] theorem hostRead_stateReg (a : Addr) (s : State) : (hostRead a s).stateReg = s.stateReg := rfl

@[simp] theorem hostRead_tables (a : Addr) (s : State) : (hostRead a s).tables = s.tables := rfl

@[simp] theorem hostRead_sched (a : Addr) (s : State) : (hostRead a s).sched = s.sched := rfl

@[simp] theorem hostRead_kt (a : Addr) (s : State) : (hostRead a s).kt = s.kt := rfl

@[simp] theorem hostRead_ct (a : Addr) (s : State) : (hostRead a s).ct = s.ct := rfl

@[simp] theorem hostRead_rrot (a : Addr) (s : State) : (hostRead a s).rrot = s.rrot := rfl

@[simp] theorem hostRead_seq (a : Addr) (s : State) : (hostRead a s).seq = s.seq := rfl

@[simp] theorem hostRead_faulted (a : Addr) (s : State) : (hostRead a s).faulted = s.faulted := rfl

@[simp] theorem hostRead_schedule (a : Addr) (s : State) : (hostRead a s).schedule = s.schedule := rfl

@[simp] theorem hostRead_lastRead (a : Addr) (s : State) : (hostRead a s).lastRead = some (a, readValue s a) := rfl

/-! ## Reset -/

@[simp] theorem resetEvent_traceEn (s : State) : (resetEvent s).traceEn = s.traceEn := rfl

@[simp] theorem resetEvent_cmd (s : State) : (resetEvent s).cmd = State.reset.cmd := rfl

@[simp] theorem resetEvent_done (s : State) : (resetEvent s).done = State.reset.done := rfl

@[simp] theorem resetEvent_error (s : State) : (resetEvent s).error = State.reset.error := rfl

@[simp] theorem resetEvent_keylen (s : State) : (resetEvent s).keylen = State.reset.keylen := rfl

@[simp] theorem resetEvent_blklen (s : State) : (resetEvent s).blklen = State.reset.blklen := rfl

@[simp] theorem resetEvent_opa (s : State) : (resetEvent s).opa = State.reset.opa := rfl

@[simp] theorem resetEvent_opb (s : State) : (resetEvent s).opb = State.reset.opb := rfl

@[simp] theorem resetEvent_res (s : State) : (resetEvent s).res = State.reset.res := rfl

@[simp] theorem resetEvent_keyReg (s : State) : (resetEvent s).keyReg = State.reset.keyReg := rfl

@[simp] theorem resetEvent_stateReg (s : State) : (resetEvent s).stateReg = State.reset.stateReg := rfl

@[simp] theorem resetEvent_tables (s : State) : (resetEvent s).tables = State.reset.tables := rfl

@[simp] theorem resetEvent_sched (s : State) : (resetEvent s).sched = State.reset.sched := rfl

@[simp] theorem resetEvent_kt (s : State) : (resetEvent s).kt = State.reset.kt := rfl

@[simp] theorem resetEvent_ct (s : State) : (resetEvent s).ct = State.reset.ct := rfl

@[simp] theorem resetEvent_rrot (s : State) : (resetEvent s).rrot = State.reset.rrot := rfl

@[simp] theorem resetEvent_seq (s : State) : (resetEvent s).seq = State.reset.seq := rfl

@[simp] theorem resetEvent_faulted (s : State) : (resetEvent s).faulted = s.faulted := rfl

@[simp] theorem resetEvent_schedule (s : State) : (resetEvent s).schedule = s.schedule := rfl

@[simp] theorem resetEvent_lastRead (s : State) : (resetEvent s).lastRead = s.lastRead := rfl

@[simp] theorem resetEvent_draws (s : State) : (resetEvent s).draws = s.draws := rfl

@[simp] theorem resetEvent_busy (s : State) : (resetEvent s).busy = false := rfl

end Sys2Proof.Laws
end

