-- ==== Sys2Proof/Laws/Exec.lean ====
section
/-! SUPPORT. What a command can do, said once: its meaning commits its outcome, the outcome is an error exactly when a
check fails, and completing a command is one commit. -/

namespace Sys2Proof.Laws

open Sys2Proof.Machine

/-- Every meaning commits the command's outcome (45_cipher_fsm.md R283). -/
theorem exec_eq_commit (i : Instr) (s : State) : exec i s = .next (commit (outcomeOf i s) s) := by
  cases i <;> rfl

/-- An outcome depends on the state only through the operand copies, the tables it would read, and `TRACE_EN`. -/
theorem outcomeOf_congr (i : Instr) (s s' : State) (hops : s'.seq.ops = s.seq.ops)
    (ht : ensureTables s' = ensureTables s) (he : s'.traceEn = s.traceEn) : outcomeOf i s' = outcomeOf i s := by
  cases i <;>
    simp only [outcomeOf, nopOutcome, buildTablesOutcome, gfAddOutcome, gfXtimeOutcome, gfMulLongOutcome,
      gfMulOutcome, gfInvOutcome, gfAffineOutcome, sboxLookupOutcome, invSboxLookupOutcome, rotWordOutcome,
      subWordOutcome, expandKeyOutcome, subBytesOutcome, invSubBytesOutcome, shiftRowsOutcome, invShiftRowsOutcome,
      mixColumnsOutcome, invMixColumnsOutcome, addRoundKeyOutcome, encryptBlockOutcome, decryptBlockOutcome,
      resultOnly, resultWithTables, blockWithTables, blockShifted, expandedKey, expansionResults, cipherResults,
      ifTraced, hops, ht, he]

/-- A failed check is the command's outcome (45_cipher_fsm.md R284, 60_exceptions.md R325). -/
theorem outcomeOf_of_check_error (i : Instr) (s : State) (c : ErrCode)
    (h : checkCommand i s.seq.ops = .error c) : outcomeOf i s = .error c := by
  cases hk : keyConfig s.seq.ops <;> cases hb : checkBlock s.seq.ops <;> cases i <;>
    simp_all [outcomeOf, checkCommand, usesKey, usesBlock, checkRoundKey, expandKeyOutcome, subBytesOutcome,
      invSubBytesOutcome, shiftRowsOutcome, invShiftRowsOutcome, mixColumnsOutcome, invMixColumnsOutcome,
      addRoundKeyOutcome, encryptBlockOutcome, decryptBlockOutcome, blockWithTables, blockShifted, bind, Except.bind,
      pure, Except.pure] <;>
    (rename_i r; cases hr : roundKeyOperand s.seq.ops r <;> simp_all [Except.map])

/-- When every check passes the outcome is a success. -/
theorem outcomeOf_of_check_ok (i : Instr) (s : State) (h : checkCommand i s.seq.ops = .ok ()) :
    ∃ r, outcomeOf i s = .ok r := by
  cases hk : keyConfig s.seq.ops <;> cases hb : checkBlock s.seq.ops <;> cases i <;>
    simp_all [outcomeOf, checkCommand, usesKey, usesBlock, checkRoundKey, nopOutcome, buildTablesOutcome, gfAddOutcome,
      gfXtimeOutcome, gfMulLongOutcome, gfMulOutcome, gfInvOutcome, gfAffineOutcome, sboxLookupOutcome,
      invSboxLookupOutcome, rotWordOutcome, subWordOutcome, expandKeyOutcome, subBytesOutcome, invSubBytesOutcome,
      shiftRowsOutcome, invShiftRowsOutcome, mixColumnsOutcome, invMixColumnsOutcome, addRoundKeyOutcome,
      encryptBlockOutcome, decryptBlockOutcome, resultOnly, resultWithTables, blockWithTables, blockShifted, bind,
      Except.bind, pure, Except.pure] <;>
    (rename_i r; cases hr : roundKeyOperand s.seq.ops r <;> simp_all [Except.map])

/-- Completing a command in flight is one commit of its outcome. -/
theorem completeCommand_of_busy (s : State) (h : s.busy = true) : completeCommand s = .next (commit s.outcome s) := by
  unfold completeCommand State.outcome
  rw [if_pos h]
  cases decode s.seq.cur with
  | error e => rfl
  | ok i => exact exec_eq_commit i s

/-- While idle, completing changes nothing. -/
theorem completeCommand_of_idle (s : State) (h : s.busy = false) : completeCommand s = .next s := by
  simp [completeCommand, h]

/-- The tables a command reads are the built ones, in every state whose tables are. -/
theorem ensureTables_of_ok (s : State) (h : s.TablesOk) : ensureTables s = buildTables s.traceEn := by
  obtain ⟨h1, h2⟩ := h
  unfold ensureTables
  cases ht : s.tables with
  | some t => exact h1 t ht
  | none =>
    cases hs : s.seq.stagedTables with
    | some t => exact h2 t hs
    | none => rfl

/-- An idle core is the one whose phase is IDLE. -/
theorem busy_eq_false_iff (s : State) : s.busy = false ↔ s.seq.phase = .idle := by
  simp [State.busy]

/-- A busy core is one whose phase is not IDLE. -/
theorem busy_eq_true_iff (s : State) : s.busy = true ↔ s.seq.phase ≠ .idle := by
  simp [State.busy]

/-- What a step that answers a next state can have done: a completion (when nothing is scheduled, or by the event), a
host read or write, a reset, or a tick. -/
theorem step_next_cases (s t : State) (h : step s = .next t) :
    (s.schedule = [] ∧ completeCommand s = .next t) ∨
    (∃ rest, s.schedule = .complete :: rest ∧ completeCommand { s with schedule := rest } = .next t) ∨
    (∃ a rest, s.schedule = .read a :: rest ∧ t = hostRead a { s with schedule := rest }) ∨
    (∃ a v rest, s.schedule = .write a v :: rest ∧ t = hostWrite a v { s with schedule := rest }) ∨
    (∃ rest, s.schedule = .reset :: rest ∧ t = resetEvent { s with schedule := rest }) ∨
    (∃ rest, s.schedule = .tick :: rest ∧ t = seqTick { s with schedule := rest }) := by
  unfold step at h
  cases hs : s.schedule with
  | nil => rw [hs] at h; exact .inl ⟨rfl, h⟩
  | cons e rest =>
    simp only [hs] at h
    cases e <;> simp only [performEvent, Host.Outcome.next.injEq, reduceCtorEq] at h
    all_goals first | (subst h; simp) | simp [h]

/-- What completing the command in flight can have done. -/
theorem completeCommand_cases (s t : State) (h : completeCommand s = .next t) :
    (s.busy = true ∧ t = commit s.outcome s) ∨ (s.busy = false ∧ t = s) := by
  cases hb : s.busy with
  | true => rw [completeCommand_of_busy s hb] at h; cases h; exact .inl ⟨rfl, rfl⟩
  | false => rw [completeCommand_of_idle s hb] at h; cases h; exact .inr ⟨rfl, rfl⟩

/-- A run of no step stays where it is. -/
theorem run_zero (s : State) : core.run 0 s = .next s := rfl

/-- A run of any machine goes on from the state its first step answers. -/
theorem machineRun_succ (M : Host.Core) (n : Nat) (s t : M.State) (h : M.step s = .next t) :
    M.run (n + 1) s = M.run n t := by
  simp only [Host.Core.run, h]

/-- A run goes on from the state its first step answers. -/
theorem run_succ (n : Nat) (s t : State) (h : step s = .next t) : core.run (n + 1) s = core.run n t :=
  machineRun_succ core n s t h

end Sys2Proof.Laws
end

