-- ==== Sys2Proof/Laws/Expansion.lean ====
section
/-! SUPPORT. The key expansion as a fold: one more pass, the lengths, and what a pass leaves alone. -/

namespace Sys2Proof.Laws

open Sys2Proof.Machine

/-- One more pass of the loop makes the word after the last. -/
theorem expandSteps_succ (t : FieldTables) (nk : Nat) (key : List Quad) (n : Nat) :
    expandSteps t nk key (n + 1) = expandWord t nk (nk + n) (expandSteps t nk key n) := by
  simp [expandSteps, List.range'_concat]

@[simp] theorem expandSteps_zero (t : FieldTables) (nk : Nat) (key : List Quad) :
    expandSteps t nk key 0 = { w := key, kt := [] } := rfl

/-- A pass appends one word and one trace entry. -/
theorem expandWord_append (t : FieldTables) (nk i : Nat) (acc : ExpandAcc) :
    ∃ q e, expandWord t nk i acc = { w := acc.w ++ [q], kt := acc.kt ++ [e] } := by
  unfold expandWord
  dsimp only
  split
  · exact ⟨_, _, rfl⟩
  · split <;> exact ⟨_, _, rfl⟩

theorem expandSteps_w_length (t : FieldTables) (nk : Nat) (key : List Quad) (n : Nat) :
    (expandSteps t nk key n).w.length = key.length + n := by
  induction n with
  | zero => rfl
  | succ n ih =>
    obtain ⟨q, e, h⟩ := expandWord_append t nk (nk + n) (expandSteps t nk key n)
    rw [expandSteps_succ, h]
    simp [ih]; omega

theorem expandSteps_kt_length (t : FieldTables) (nk : Nat) (key : List Quad) (n : Nat) :
    (expandSteps t nk key n).kt.length = n := by
  induction n with
  | zero => rfl
  | succ n ih =>
    obtain ⟨q, e, h⟩ := expandWord_append t nk (nk + n) (expandSteps t nk key n)
    rw [expandSteps_succ, h]
    simp [ih]

theorem keyWords_length (o : Captured) (size : KeySize) : (keyWords o size).length = size.nk := by
  cases size <;> simp [keyWords, KeySize.nk]

theorem nk_le_words (size : KeySize) : size.nk ≤ size.words := by cases size <;> decide

/-- The expansion of a captured key has 4·(Nr + 1) words (42_key_schedule.md R207). -/
theorem expand_w_length (t : FieldTables) (size : KeySize) (o : Captured) :
    (expand t size (keyWords o size)).w.length = size.words := by
  have := nk_le_words size
  simp [expand, expandSteps_w_length, keyWords_length]; omega

theorem expand_kt_length (t : FieldTables) (size : KeySize) (o : Captured) :
    (expand t size (keyWords o size)).kt.length = size.words - size.nk := by
  simp [expand, expandSteps_kt_length]

/-- Words already made stay: the first `m` words of a longer run are those of a shorter one. -/
theorem expandSteps_getElem?_stable (t : FieldTables) (nk : Nat) (key : List Quad) (n k j : Nat)
    (hj : j < key.length + n) : (expandSteps t nk key (n + k)).w[j]? = (expandSteps t nk key n).w[j]? := by
  induction k with
  | zero => rfl
  | succ k ih =>
    obtain ⟨q, e, h⟩ := expandWord_append t nk (nk + (n + k)) (expandSteps t nk key (n + k))
    rw [← Nat.add_assoc, expandSteps_succ, h]
    have hl := expandSteps_w_length t nk key (n + k)
    rw [← ih]
    exact List.getElem?_append_left (by rw [hl]; omega)

/-- A trace entry kept by a run stays in every longer run. -/
theorem expandSteps_kt_stable (t : FieldTables) (nk : Nat) (key : List Quad) (n k j : Nat) (hj : j < n) :
    (expandSteps t nk key (n + k)).kt[j]? = (expandSteps t nk key n).kt[j]? := by
  induction k with
  | zero => rfl
  | succ k ih =>
    obtain ⟨q, e, h⟩ := expandWord_append t nk (nk + (n + k)) (expandSteps t nk key (n + k))
    rw [← Nat.add_assoc, expandSteps_succ, h, ← ih]
    exact List.getElem?_append_left (by rw [expandSteps_kt_length]; omega)

/-- What the word and the entry of one pass are, case by case (42_key_schedule.md R204, R205). -/
structure EntryOf (t : FieldTables) (nk i : Nat) (prev temp : Quad) (e : KtEntry) : Prop where
  indexIs : e.index = i
  tempIs : e.tempIn = temp
  prevIs : e.prev = prev
  atMultiple : i % nk = 0 → ∃ r s c, e.rot = some r ∧ e.sub = some s ∧ e.rcon = some c ∧ r = rotateWord temp ∧
    s = substituteWord t r ∧ c = rcon (i / nk) ∧ e.xor = some (s.xor c) ∧ e.fin = prev.xor (s.xor c)
  atFour : i % nk ≠ 0 → nk = 8 ∧ i % nk = 4 → e.rot = none ∧ e.rcon = none ∧ e.xor = none ∧
    e.sub = some (substituteWord t temp) ∧ e.fin = prev.xor (substituteWord t temp)
  elsewhere : i % nk ≠ 0 → ¬ (nk = 8 ∧ i % nk = 4) → e.rot = none ∧ e.sub = none ∧ e.rcon = none ∧ e.xor = none ∧
    e.fin = prev.xor temp

/-- One pass appends the word of its entry, and the entry is as the rule gives it. -/
theorem expandWord_entry (t : FieldTables) (nk i : Nat) (acc : ExpandAcc) :
    ∃ q e, expandWord t nk i acc = { w := acc.w ++ [q], kt := acc.kt ++ [e] } ∧ e.fin = q ∧
      EntryOf t nk i (acc.w.getD (i - nk) zeroQuad) (acc.w.getD (i - 1) zeroQuad) e := by
  unfold expandWord
  dsimp only
  split_ifs with hm hf
  · refine ⟨_, _, rfl, rfl, ?_⟩
    constructor <;> simp [hm]
  · refine ⟨_, _, rfl, rfl, ?_⟩
    constructor <;> intros <;> trivial
  · refine ⟨_, _, rfl, rfl, ?_⟩
    constructor <;> intros <;> trivial

/-- Word `nk + n` and trace entry `n` of an expansion, from the words it has already (42_key_schedule.md R204, R205). -/
theorem expand_entry (t : FieldTables) (size : KeySize) (key : List Quad) (hl : key.length = size.nk) (n : Nat)
    (hn : size.nk + n < size.words) :
    ∃ e prev temp, (expand t size key).kt[n]? = some e ∧ (expand t size key).w[n]? = some prev ∧
      (expand t size key).w[size.nk + n - 1]? = some temp ∧ (expand t size key).w[size.nk + n]? = some e.fin ∧
      EntryOf t size.nk (size.nk + n) prev temp e := by
  have hp : 0 < size.nk := by cases size <;> decide
  obtain ⟨k, hk⟩ : ∃ k, size.words - size.nk = n + (1 + k) := ⟨size.words - size.nk - (n + 1), by omega⟩
  have hln := expandSteps_w_length t size.nk key n
  have hkn := expandSteps_kt_length t size.nk key n
  obtain ⟨_, e, hw, rfl, he⟩ := expandWord_entry t size.nk (size.nk + n) (expandSteps t size.nk key n)
  have hold : ∀ j, j < size.nk + n →
      (expand t size key).w[j]? = some ((expandSteps t size.nk key n).w.getD j zeroQuad) := by
    intro j hj
    rw [expand, hk, expandSteps_getElem?_stable _ _ _ n _ _ (by omega), List.getElem?_eq_getElem (by omega),
      List.getD_eq_getElem _ _ (by omega)]
  refine ⟨e, _, _, ?_, hold n (by omega), hold (size.nk + n - 1) (by omega), ?_, ?_⟩
  · rw [expand, hk, ← Nat.add_assoc, expandSteps_kt_stable _ _ _ (n + 1) k _ (by omega), expandSteps_succ, hw,
      List.getElem?_append_right (by omega)]
    simp [hkn]
  · rw [expand, hk, ← Nat.add_assoc, expandSteps_getElem?_stable _ _ _ (n + 1) k _ (by omega), expandSteps_succ, hw,
      List.getElem?_append_right (by omega)]
    simp [hln, hl]
  · rw [Nat.add_sub_cancel_left] at he
    exact he

end Sys2Proof.Laws
end

