-- ==== Sys2Proof/Laws/Rounds.lean ====
section
/-! SUPPORT. The cipher runs as folds: one more step, the length of the round trace, and the shape of the row-rotation
trace. -/

namespace Sys2Proof.Laws

open Sys2Proof.Machine

theorem cipherSteps_succ (d : Bool) (t : FieldTables) (nr : Nat) (w : List Quad) (p : Block) (n : Nat) :
    cipherSteps d t nr w p (n + 1) = cipherRound d t nr w n (cipherSteps d t nr w p n) := by
  simp [cipherSteps, List.range_succ]

@[simp] theorem cipherSteps_zero (d : Bool) (t : FieldTables) (nr : Nat) (w : List Quad) (p : Block) :
    cipherSteps d t nr w p 0 = { s := p, ct := [], rrot := none } := rfl

/-- A step before the last appends one entry to the round trace. -/
theorem cipherRound_ct_length_of_lt (d : Bool) (t : FieldTables) (nr : Nat) (w : List Quad) (e : Nat) (acc : CipherAcc)
    (h : e < nr) : (cipherRound d t nr w e acc).ct.length = acc.ct.length + 1 := by
  cases d <;> simp only [cipherRound, encryptRound, decryptRound, Bool.false_eq_true, if_false, if_true] <;>
    split <;> simp

/-- The last step also appends the sentinel. -/
theorem cipherRound_ct_length_last (d : Bool) (t : FieldTables) (nr : Nat) (w : List Quad) (acc : CipherAcc)
    (h : 0 < nr) : (cipherRound d t nr w nr acc).ct.length = acc.ct.length + 2 := by
  have h0 : ¬ nr = 0 := by omega
  cases d <;> simp [cipherRound, encryptRound, decryptRound, h0]

theorem cipherSteps_ct_length (d : Bool) (t : FieldTables) (nr : Nat) (w : List Quad) (p : Block) (n : Nat)
    (h : n ≤ nr) : (cipherSteps d t nr w p n).ct.length = n := by
  induction n with
  | zero => rfl
  | succ n ih => rw [cipherSteps_succ, cipherRound_ct_length_of_lt _ _ _ _ _ _ (by omega), ih (by omega)]

theorem nr_pos (size : KeySize) : 0 < size.nr := by cases size <;> decide

/-- A whole cipher run records Nr + 2 entries (45_cipher_fsm.md R286, R289). -/
theorem cipherSteps_ct_length_full (d : Bool) (t : FieldTables) (size : KeySize) (w : List Quad) (p : Block) :
    (cipherSteps d t size.nr w p (size.nr + 1)).ct.length = size.nr + 2 := by
  rw [cipherSteps_succ, cipherRound_ct_length_last _ _ _ _ _ (nr_pos size), cipherSteps_ct_length _ _ _ _ _ _ le_rfl]

/-- A row-rotation trace has the rotation counts of 43_state_transform.md R232. -/
def RowTraceOk (r : RowTrace) : Prop := ∀ i : Fin 4, r.rows[i].length = rotationCount r.inverse i

@[simp] theorem rotationSnaps_length (n : Nat) (q : Quad) : (rotationSnaps n q).length = n := by
  induction n generalizing q with
  | zero => rfl
  | succ n ih => simp [rotationSnaps, ih]

theorem shiftTrace_ok (inverse : Bool) (s : Block) : RowTraceOk (shiftTrace inverse s) := by
  intro i
  fin_cases i <;> simp [shiftTrace, rowSnaps]

theorem cipherRound_rrot_ok (d : Bool) (t : FieldTables) (nr : Nat) (w : List Quad) (e : Nat) (acc : CipherAcc)
    (h : ∀ r, acc.rrot = some r → RowTraceOk r) : ∀ r, (cipherRound d t nr w e acc).rrot = some r → RowTraceOk r := by
  intro r hr
  cases d <;> simp only [cipherRound, encryptRound, decryptRound, Bool.false_eq_true, if_false, if_true] at hr <;>
    split at hr <;> try split at hr
  all_goals first
    | exact h r hr
    | (simp only [Option.some.injEq] at hr; subst hr; exact shiftTrace_ok _ _)

theorem cipherSteps_rrot_ok (d : Bool) (t : FieldTables) (nr : Nat) (w : List Quad) (p : Block) (n : Nat) :
    ∀ r, (cipherSteps d t nr w p n).rrot = some r → RowTraceOk r := by
  induction n with
  | zero => intro r hr; cases hr
  | succ n ih => rw [cipherSteps_succ]; exact cipherRound_rrot_ok _ _ _ _ _ _ ih

/-- What a step adds to the round trace: its entry, which starts from the state before it, and after the last step the
sentinel. -/
theorem cipherRound_ct (d : Bool) (t : FieldTables) (nr : Nat) (w : List Quad) (e : Nat) (acc : CipherAcc) (hp : 0 < nr)
    (he : e ≤ nr) : ∃ x, x.start = some acc.s ∧ (cipherRound d t nr w e acc).ct =
      acc.ct ++ x :: (if e = nr then [sentinelEntry (cipherRound d t nr w e acc).s] else []) := by
  rcases Nat.eq_or_lt_of_le he with rfl | h
  · have h0 : ¬ e = 0 := by omega
    cases d <;> simp [cipherRound, encryptRound, decryptRound, h0]
  · have h1 : ¬ e = nr := by omega
    by_cases h0 : e = 0 <;> cases d <;> simp [cipherRound, encryptRound, decryptRound, h0, h, h1] <;> omega

/-- Entry `e` of a whole run is the one that step `e` appends. -/
theorem cipher_entry (d : Bool) (t : FieldTables) (nr : Nat) (w : List Quad) (p : Block) (hp : 0 < nr) (e : Nat)
    (he : e ≤ nr) :
    (cipherSteps d t nr w p (nr + 1)).ct[e]? = (cipherRound d t nr w e (cipherSteps d t nr w p e)).ct[e]? := by
  have step : ∀ n, e ≤ n → n ≤ nr →
      (cipherSteps d t nr w p (n + 1)).ct[e]? = (cipherSteps d t nr w p (e + 1)).ct[e]? := by
    intro n hn hn'
    induction n with
    | zero => rw [show e = 0 by omega]
    | succ n ih =>
      rcases Nat.eq_or_lt_of_le hn with rfl | hlt
      · rfl
      · obtain ⟨x, -, hx⟩ := cipherRound_ct d t nr w (n + 1) (cipherSteps d t nr w p (n + 1)) hp hn'
        rw [← ih (by omega) (by omega), cipherSteps_succ, hx]
        exact List.getElem?_append_left (by rw [cipherSteps_ct_length _ _ _ _ _ _ hn']; omega)
  rw [step nr he le_rfl, cipherSteps_succ]

/-- The entry after step `e` starts from the state that step `e` left. -/
theorem cipher_next_start (d : Bool) (t : FieldTables) (nr : Nat) (w : List Quad) (p : Block) (hp : 0 < nr) (e : Nat)
    (he : e ≤ nr) :
    ∃ y, (cipherSteps d t nr w p (nr + 1)).ct[e + 1]? = some y ∧ y.start = some (cipherSteps d t nr w p (e + 1)).s := by
  rcases Nat.eq_or_lt_of_le he with rfl | h
  · obtain ⟨x, -, hx⟩ := cipherRound_ct d t e w e (cipherSteps d t e w p e) hp le_rfl
    refine ⟨sentinelEntry (cipherSteps d t e w p (e + 1)).s, ?_, rfl⟩
    rw [cipherSteps_succ, hx, List.getElem?_append_right (by rw [cipherSteps_ct_length _ _ _ _ _ _ le_rfl]; omega),
      cipherSteps_ct_length _ _ _ _ _ _ le_rfl]
    simp
  · obtain ⟨x, hs, hx⟩ := cipherRound_ct d t nr w (e + 1) (cipherSteps d t nr w p (e + 1)) hp h
    refine ⟨x, ?_, hs⟩
    rw [cipher_entry _ _ _ _ _ hp _ h, hx,
      List.getElem?_append_right (by rw [cipherSteps_ct_length _ _ _ _ _ _ h]), cipherSteps_ct_length _ _ _ _ _ _ h]
    simp

end Sys2Proof.Laws
end

