-- ==== Sys2Proof/Laws/Results.lean ====
section
/-! SUPPORT. What the results of a command look like: the tables it builds, the length of its schedule and the shape of
its traces. Every commit of such results keeps the invariant's parts. -/

namespace Sys2Proof.Laws

open Sys2Proof.Machine

/-- The shape of results: what commit needs to keep the invariant. -/
structure ResultsOk (s : State) (r : Results) : Prop where
  tables : ∀ t, r.tables = some t → t = ensureTables s
  sched : ∀ x, r.sched = some x → x.Ok
  kt : ∀ k, r.kt = some k → s.traceEn = true ∧ ∃ size : KeySize, k.length = size.words - size.nk
  ct : ∀ c, r.ct = some c → s.traceEn = true ∧ ∃ size : KeySize, c.entries.length = size.nr + 2
  rrot : ∀ x, r.rrot = some x → s.traceEn = true ∧ RowTraceOk x

theorem ifTraced_eq_some {α : Type} (s : State) (x y : α) : ifTraced s x = some y ↔ s.traceEn = true ∧ x = y := by
  unfold ifTraced
  split <;> simp_all

theorem resultOnly_ok (s : State) (v : Word) : ResultsOk s { res := some v } := by
  constructor <;> intro x hx <;> cases hx

theorem expansionResults_ok (s : State) (size : KeySize) :
    ResultsOk s (expansionResults s size (expandedKey s size)) := by
  constructor
  · intro t ht; cases ht; rfl
  · intro x hx; cases hx; simp [Schedule.Ok, expandedKey, expand_w_length]
  · intro k hk
    obtain ⟨he, rfl⟩ := (ifTraced_eq_some _ _ _).1 hk
    exact ⟨he, size, expand_kt_length _ _ _⟩
  · intro c hc; cases hc
  · intro x hx; cases hx

theorem cipherResults_ok (s : State) (d : Bool) (size : KeySize) (p : Block) :
    ResultsOk s (cipherResults s d size (expandedKey s size)
      (cipherSteps d (ensureTables s) size.nr (expandedKey s size).w p (size.nr + 1))) := by
  have h := expansionResults_ok s size
  constructor
  · exact h.tables
  · exact h.sched
  · exact h.kt
  · intro c hc
    obtain ⟨he, rfl⟩ := (ifTraced_eq_some _ _ _).1 hc
    exact ⟨he, size, cipherSteps_ct_length_full _ _ _ _ _⟩
  · intro x hx
    simp only [cipherResults] at hx
    split at hx
    · exact ⟨‹_›, cipherSteps_rrot_ok _ _ _ _ _ _ x hx⟩
    · cases hx

theorem blockWithTables_ok (s : State) (f : FieldTables → Block → Block) (r : Results)
    (h : blockWithTables s f = .ok r) : ResultsOk s r := by
  cases hb : checkBlock s.seq.ops with
  | error c => simp [blockWithTables, hb, bind, Except.bind] at h
  | ok u =>
    simp only [blockWithTables, hb, bind, Except.bind, pure, Except.pure, Except.ok.injEq] at h
    subst h
    constructor <;> intro x hx <;> cases hx
    rfl

theorem blockShifted_ok (s : State) (inverse : Bool) (r : Results) (h : blockShifted s inverse = .ok r) :
    ResultsOk s r := by
  cases hb : checkBlock s.seq.ops with
  | error c => simp [blockShifted, hb, bind, Except.bind] at h
  | ok u =>
    simp only [blockShifted, hb, bind, Except.bind, pure, Except.pure, Except.ok.injEq] at h
    subst h
    constructor <;> intro x hx
    case rrot =>
      obtain ⟨he, rfl⟩ := (ifTraced_eq_some _ _ _).1 hx
      exact ⟨he, shiftTrace_ok _ _⟩
    all_goals cases hx

/-- The results of every command have the shape. -/
theorem outcomeOf_results_ok (i : Instr) (s : State) (r : Results) (h : outcomeOf i s = .ok r) : ResultsOk s r := by
  have htab : ∀ v, resultWithTables s v = .ok r → ResultsOk s r := by
    intro v hv
    cases hv
    constructor <;> intro x hx <;> cases hx
    rfl
  have hres : ∀ v, resultOnly v = .ok r → ResultsOk s r := by
    intro v hv; cases hv; exact resultOnly_ok s v
  cases i with
  | nop => cases h; constructor <;> intro x hx <;> cases hx
  | buildTables =>
    cases h
    constructor <;> intro x hx <;> cases hx
    rfl
  | gfAdd => exact hres _ h
  | gfXtime => exact hres _ h
  | gfMulLong => exact hres _ h
  | gfAffine => exact hres _ h
  | rotWord => exact hres _ h
  | gfMul => rw [outcomeOf, gfMulOutcome] at h; exact htab _ h
  | gfInv => rw [outcomeOf, gfInvOutcome] at h; exact htab _ h
  | sboxLookup => rw [outcomeOf, sboxLookupOutcome] at h; exact htab _ h
  | invSboxLookup => rw [outcomeOf, invSboxLookupOutcome] at h; exact htab _ h
  | subWord => rw [outcomeOf, subWordOutcome] at h; exact htab _ h
  | subBytes => rw [outcomeOf, subBytesOutcome] at h; exact blockWithTables_ok s _ r h
  | invSubBytes => rw [outcomeOf, invSubBytesOutcome] at h; exact blockWithTables_ok s _ r h
  | mixColumns => rw [outcomeOf, mixColumnsOutcome] at h; exact blockWithTables_ok s _ r h
  | invMixColumns => rw [outcomeOf, invMixColumnsOutcome] at h; exact blockWithTables_ok s _ r h
  | shiftRows => exact blockShifted_ok s _ r h
  | invShiftRows => exact blockShifted_ok s _ r h
  | addRoundKey k =>
    simp only [outcomeOf, addRoundKeyOutcome] at h
    cases hb : checkBlock s.seq.ops with
    | error c => simp [hb, bind, Except.bind] at h
    | ok u =>
      cases hr : roundKeyOperand s.seq.ops k with
      | error c => simp [hb, hr, bind, Except.bind] at h
      | ok b =>
        simp only [hb, hr, bind, Except.bind, pure, Except.pure, Except.ok.injEq] at h
        subst h
        constructor <;> intro x hx <;> cases hx
  | expandKey =>
    simp only [outcomeOf, expandKeyOutcome] at h
    cases hk : keyConfig s.seq.ops with
    | error c => simp [hk, bind, Except.bind] at h
    | ok size =>
      simp only [hk, bind, Except.bind, pure, Except.pure, Except.ok.injEq] at h
      subst h
      exact expansionResults_ok s size
  | encryptBlock =>
    simp only [outcomeOf, encryptBlockOutcome] at h
    cases hk : keyConfig s.seq.ops with
    | error c => simp [hk, bind, Except.bind] at h
    | ok size =>
      cases hb : checkBlock s.seq.ops with
      | error c => simp [hk, hb, bind, Except.bind] at h
      | ok u =>
        simp only [hk, hb, bind, Except.bind, pure, Except.pure, Except.ok.injEq] at h
        subst h
        exact cipherResults_ok s false size _
  | decryptBlock =>
    simp only [outcomeOf, decryptBlockOutcome] at h
    cases hk : keyConfig s.seq.ops with
    | error c => simp [hk, bind, Except.bind] at h
    | ok size =>
      cases hb : checkBlock s.seq.ops with
      | error c => simp [hk, hb, bind, Except.bind] at h
      | ok u =>
        simp only [hk, hb, bind, Except.bind, pure, Except.pure, Except.ok.injEq] at h
        subst h
        exact cipherResults_ok s true size _

/-- Committing an outcome keeps the invariant. -/
theorem commit_wf (s : State) (o : CmdOutcome) (ht : s.TablesOk) (hs : ∀ x, s.sched = some x → x.Ok)
    (hr : s.TracesOk) (ho : ∀ r, o = .ok r → ResultsOk s r) : (commit o s).Wf := by
  obtain ⟨h1, h2, h3, h4⟩ := hr
  have hrest : (commit o s).seq = Sequencer.rest := commit_seq o s
  have hstaged : ∀ t, (commit o s).seq.stagedTables = some t → t = buildTables (commit o s).traceEn := by
    intro t h; rw [hrest] at h; cases h
  have hprog : (commit o s).Progress := by
    unfold State.Progress; rw [hrest]; rfl
  have hfl : (commit o s).busy = true → (commit o s).InFlight := by simp
  cases o with
  | error c =>
    exact ⟨⟨ht.1, hstaged⟩, hs, ⟨h1, h2, h3, h4⟩, fun _ => rfl, hfl, hprog⟩
  | ok r =>
    have hrk := ho r rfl
    refine ⟨⟨?_, hstaged⟩, ?_, ⟨?_, ?_, ?_, ?_⟩, fun _ => rfl, hfl, hprog⟩
    · intro t h
      simp only [commit_ok_tables, Option.or_eq_some_iff] at h
      rcases h with h | ⟨-, h⟩
      · exact ht.1 t h
      · rw [hrk.tables t h]; exact ensureTables_of_ok s ht
    · intro x h
      simp only [commit_ok_sched, Option.or_eq_some_iff] at h
      rcases h with h | ⟨-, h⟩
      · exact hrk.sched x h
      · exact hs x h
    · cases hk : r.kt with
      | none => simpa [hk] using h1
      | some k => simpa [hk] using Or.inr (hrk.kt k hk).2
    · intro c h
      simp only [commit_ok_ct, Option.or_eq_some_iff] at h
      rcases h with h | ⟨-, h⟩
      · exact (hrk.ct c h).2
      · exact h2 c h
    · intro x h
      simp only [commit_ok_rrot, Option.or_eq_some_iff] at h
      rcases h with h | ⟨-, h⟩
      · exact (hrk.rrot x h).2
      · exact h3 x h
    · intro he
      rw [commit_traceEn] at he
      obtain ⟨ek, ec, er⟩ := h4 he
      refine ⟨?_, ?_, ?_⟩
      · cases hk : r.kt with
        | none => simp [hk, ek]
        | some k => have := (hrk.kt k hk).1; simp [he] at this
      · cases hc : r.ct with
        | none => simp [hc, ec]
        | some c => have := (hrk.ct c hc).1; simp [he] at this
      · cases hx : r.rrot with
        | none => simp [hx, er]
        | some x => have := (hrk.rrot x hx).1; simp [he] at this

end Sys2Proof.Laws
end

