-- ==== Sys2Proof/Laws/Frame.lean ====
section
/-! SUPPORT. What a commit can change (spec/10_state.md R52): an outcome whose results lie within a set of writes leaves
everything else alone, at every address too. -/

namespace Sys2Proof.Laws

open Sys2Proof.Machine

/-- Two states that agree on what no command writes and the host can read. -/
def InputsAlike (s t : State) : Prop :=
  t.traceEn = s.traceEn ∧ t.cmd = s.cmd ∧ t.keylen = s.keylen ∧ t.blklen = s.blklen ∧ t.opa = s.opa ∧ t.opb = s.opb ∧
    t.keyReg = s.keyReg

theorem SameInputs.alike {s t : State} (h : SameInputs s t) : InputsAlike s t := by
  unfold InputsAlike
  simp only [SameInputs] at h
  tauto

/-- The stored results outside `w` are the same in both states. -/
structure Kept (w : Writes) (s t : State) : Prop where
  res : w.res = false → t.res = s.res
  block : w.block = false → t.stateReg = s.stateReg
  tables : w.tables = false → t.tables = s.tables
  sched : w.sched = false → t.sched = s.sched
  kt : w.kt = false → t.kt = s.kt
  ct : w.ct = false → t.ct = s.ct
  rrot : w.rrot = false → t.rrot = s.rrot

/-- What is kept when nothing may change is kept whatever may change. -/
theorem Kept.weaken {w : Writes} {s t : State} (h : Kept {} s t) : Kept w s t where
  res _ := h.res rfl
  block _ := h.block rfl
  tables _ := h.tables rfl
  sched _ := h.sched rfl
  kt _ := h.kt rfl
  ct _ := h.ct rfl
  rrot _ := h.rrot rfl

/-- The value at every item but `STATUS` depends only on the fields that hold it. -/
theorem itemValue_congr (w : Writes) (s t : State) (hin : InputsAlike s t) (hk : Kept w s t) (it : Item)
    (h : w.covers it = false) : itemValue t it = itemValue s it := by
  obtain ⟨h1, h2, h3, h4, h5, h6, h7⟩ := hin
  cases it with
  | status => cases h
  | traceInfo =>
    simp only [Writes.covers, Bool.or_eq_false_iff] at h
    simp only [itemValue, traceInfoWord, h1, hk.kt h.1.1, hk.ct h.1.2, hk.rrot h.2, State.rrotInv, State.ctDir, State.ctLen]
  | cmd => exact h2
  | keylen => exact h3
  | blklen => exact h4
  | opa => exact h5
  | opb => exact h6
  | key j => simp only [itemValue, h7]
  | res => exact hk.res h
  | stateCol c => simp only [itemValue, hk.block h]
  | w i => simp only [itemValue, wWindow, hk.sched h]
  | rrot r k => simp only [itemValue, traceWindow, h1, hk.rrot h]
  | sbox b => simp only [itemValue, tableWindow, hk.tables h]
  | invSbox b => simp only [itemValue, tableWindow, hk.tables h]
  | exp b => simp only [itemValue, tableWindow, hk.tables h]
  | log b => simp only [itemValue, tableWindow, hk.tables h]
  | ct e k => simp only [itemValue, traceWindow, h1, hk.ct h]
  | kt j k => simp only [itemValue, traceWindow, h1, hk.kt h]
  | sbt b k => simp only [itemValue, traceWindow, tableWindow, h1, hk.tables h]
  | reserved => rfl

/-- Inputs and kept results give the frame. -/
theorem frameExcept_of_kept (w : Writes) (s t : State) (hin : SameInputs s t) (hk : Kept w s t) : FrameExcept w s t :=
  ⟨hin, hk.res, hk.block, hk.tables, hk.sched, hk.kt, hk.ct, hk.rrot,
    fun a => itemValue_congr w s t (SameInputs.alike hin) hk (itemAt a)⟩

/-- A frame keeps the results outside it. -/
theorem FrameExcept.kept {w : Writes} {s t : State} (h : FrameExcept w s t) : Kept w s t := by
  simp only [FrameExcept] at h
  constructor <;> tauto

/-- A commit changes no input, whatever its outcome. -/
theorem commit_sameInputs (o : CmdOutcome) (s : State) : SameInputs s (commit o s) := by
  simp [SameInputs]

/-- An error commit changes nothing but `STATUS` (60_exceptions.md R325). -/
theorem commit_error_failedWith (c : ErrCode) (s : State) : FailedWith c s (commit (.error c) s) :=
  ⟨rfl, rfl, rfl, frameExcept_of_kept _ _ _ (commit_sameInputs _ s) (by constructor <;> simp)⟩

/-- Results that stay within a set of writes. -/
structure Within (w : Writes) (r : Results) : Prop where
  res : w.res = false → r.res = none
  block : w.block = false → r.block = none
  tables : w.tables = false → r.tables = none
  sched : w.sched = false → r.sched = none
  kt : w.kt = false → r.kt = none
  ct : w.ct = false → r.ct = none
  rrot : w.rrot = false → r.rrot = none

/-- A success commit of results within `w` writes nothing outside `w`. -/
theorem commit_ok_frame (w : Writes) (r : Results) (s : State) (h : Within w r) :
    FrameExcept w s (commit (.ok r) s) := by
  refine frameExcept_of_kept _ _ _ (commit_sameInputs _ s) ?_
  constructor <;> intro hw
  · simp [h.res hw]
  · simp [h.block hw]
  · simp [h.tables hw]
  · simp [h.sched hw]
  · simp [h.kt hw]
  · simp [h.ct hw]
  · simp [h.rrot hw]

theorem FrameExcept.weaken {w : Writes} {s t : State} (h : FrameExcept {} s t) : FrameExcept w s t :=
  frameExcept_of_kept w s t h.1 (Kept.weaken (FrameExcept.kept h))

/-- Whatever a command's outcome, its results stay within the command's row of 10_state.md R52. -/
theorem outcomeOf_within (i : Instr) (s : State) (r : Results) (h : outcomeOf i s = .ok r) : Within (writesOf i) r := by
  cases hk : keyConfig s.seq.ops <;> cases hb : checkBlock s.seq.ops <;> cases i <;>
    simp only [outcomeOf, nopOutcome, buildTablesOutcome, gfAddOutcome, gfXtimeOutcome, gfMulLongOutcome,
      gfMulOutcome, gfInvOutcome, gfAffineOutcome, sboxLookupOutcome, invSboxLookupOutcome, rotWordOutcome,
      subWordOutcome, expandKeyOutcome, subBytesOutcome, invSubBytesOutcome, shiftRowsOutcome, invShiftRowsOutcome,
      mixColumnsOutcome, invMixColumnsOutcome, addRoundKeyOutcome, encryptBlockOutcome, decryptBlockOutcome,
      resultOnly, resultWithTables, blockWithTables, blockShifted, expansionResults, cipherResults, hk, hb, bind,
      Except.bind, pure, Except.pure, reduceCtorEq, Except.ok.injEq] at h <;>
    first
    | (subst h; constructor <;> intro hw <;> first | rfl | cases hw)
    | (rename_i k
       cases hr : roundKeyOperand s.seq.ops k <;> simp only [hr, reduceCtorEq, Except.ok.injEq] at h
       subst h; constructor <;> intro hw <;> first | rfl | cases hw)

/-- A command's commit keeps its frame, whether it succeeds or not. -/
theorem commit_outcome_frame (i : Instr) (s : State) : FrameExcept (writesOf i) s (commit (outcomeOf i s) s) := by
  cases h : outcomeOf i s with
  | ok r => exact commit_ok_frame _ _ s (outcomeOf_within i s r h)
  | error c => exact FrameExcept.weaken (commit_error_failedWith c s).2.2.2

/-- What a read-out of the core depends on: two states with the same host-visible fields read alike. -/
theorem memRead_congr (s t : State) (hin : InputsAlike s t) (hk : Kept {} s t) (hbusy : t.busy = s.busy)
    (hdone : t.done = s.done) (herr : t.error = s.error) (a : Addr) : memRead t a = memRead s a := by
  unfold memRead
  by_cases h : itemAt a = .status
  · rw [h]
    simp only [itemValue, statusWord, State.nrField, State.nkField, State.schedValid, State.tablesReady, State.errCode,
      State.errFlag, hin.1, hk.tables rfl, hk.sched rfl, hbusy, hdone, herr]
  · refine itemValue_congr { } s t hin hk (itemAt a) ?_
    cases hi : itemAt a <;> simp_all [Writes.covers]

end Sys2Proof.Laws
end

