-- ==== Sys2Proof/Laws/Checks.lean ====
section
/-! SUPPORT. What the checks of spec/45_cipher_fsm.md R284 test, each said once, and the check of a whole command in
terms of them. -/

namespace Sys2Proof.Laws

open Sys2Proof.Machine

/-- `KeyConfig()` succeeds on 16, 24 and 32 (42_key_schedule.md R200). -/
theorem keyConfig_ok_iff (o : Captured) (size : KeySize) :
    keyConfig o = .ok size ↔ o.keylen = BitVec.ofNat 32 (4 * size.nk) := by
  unfold keyConfig
  cases size <;> simp only [KeySize.nk] <;> (split <;> rename_i h1)
  all_goals first | (rw [h1]; decide) | (split <;> rename_i h2)
  all_goals first | (rw [h2]; decide) | (split <;> rename_i h3)
  all_goals first | (rw [h3]; decide) | (constructor <;> intro h <;> first | cases h | contradiction)

/-- `KeyConfig()` fails with InvalidKeySize on every other value. -/
theorem keyConfig_error (o : Captured) (h1 : o.keylen ≠ 16) (h2 : o.keylen ≠ 24) (h3 : o.keylen ≠ 32) :
    keyConfig o = .error .invalidKeySize := by
  rw [keyConfig, if_neg h1, if_neg h2, if_neg h3]

/-- `KeyConfig()` succeeds or fails with InvalidKeySize. -/
theorem keyConfig_cases (o : Captured) :
    (∃ size, keyConfig o = .ok size ∧ (o.keylen = 16 ∨ o.keylen = 24 ∨ o.keylen = 32)) ∨
    (keyConfig o = .error .invalidKeySize ∧ o.keylen ≠ 16 ∧ o.keylen ≠ 24 ∧ o.keylen ≠ 32) := by
  by_cases h : o.keylen = 16 ∨ o.keylen = 24 ∨ o.keylen = 32
  · obtain ⟨size, hs⟩ : ∃ size : KeySize, o.keylen = BitVec.ofNat 32 (4 * size.nk) := by
      rcases h with h | h | h <;> rw [h]
      exacts [⟨.aes128, rfl⟩, ⟨.aes192, rfl⟩, ⟨.aes256, rfl⟩]
    exact .inl ⟨size, (keyConfig_ok_iff o size).2 hs, h⟩
  · simp only [not_or] at h
    exact .inr ⟨keyConfig_error o h.1 h.2.1 h.2.2, h⟩

theorem keyConfig_of_valid (o : Captured) (h : o.keylen = 16 ∨ o.keylen = 24 ∨ o.keylen = 32) :
    ∃ size, keyConfig o = .ok size := by
  rcases keyConfig_cases o with ⟨size, hs, -⟩ | ⟨-, h1, h2, h3⟩
  · exact ⟨size, hs⟩
  · rcases h with h | h | h <;> contradiction

theorem checkBlock_ok (o : Captured) (h : o.blklen = 16) : checkBlock o = .ok () := by rw [checkBlock, if_pos h]

theorem checkBlock_error (o : Captured) (h : o.blklen ≠ 16) : checkBlock o = .error .malformedBlock := by
  rw [checkBlock, if_neg h]

/-- The round key is missing exactly when no schedule has it (60_exceptions.md R326). -/
theorem roundKeyOperand_error (o : Captured) (r : Nat) (h : ∀ x, o.sched = some x → x.size.nr < r) :
    roundKeyOperand o r = .error .roundKeyUnavailable := by
  unfold roundKeyOperand
  split
  · rfl
  · rw [if_pos (h _ ‹_›)]

theorem roundKeyOperand_ok (o : Captured) (r : Nat) (x : Schedule) (hx : o.sched = some x) (h : r ≤ x.size.nr) :
    roundKeyOperand o r = .ok (roundKey (x.words.map unpack) r) := by
  unfold roundKeyOperand
  rw [hx]
  simp [Nat.not_lt.2 h]

theorem roundKeyOperand_ok_of_not (o : Captured) (r : Nat) (h : ¬ ∀ x, o.sched = some x → x.size.nr < r) :
    ∃ k, roundKeyOperand o r = .ok k := by
  simp only [not_forall, not_lt] at h
  obtain ⟨x, hx, hr⟩ := h
  exact ⟨_, roundKeyOperand_ok o r x hx hr⟩

/-- The tests 2 to 4 of 45_cipher_fsm.md R284, as one equation. -/
theorem checkCommand_eq (i : Instr) (o : Captured) : checkCommand i o =
    match (if usesKey i then keyConfig o else .ok .aes128) with
    | .error c => .error c
    | .ok _ =>
      match (if usesBlock i then checkBlock o else .ok ()) with
      | .error c => .error c
      | .ok _ => checkRoundKey o i := by
  cases hk : keyConfig o <;> cases hb : checkBlock o <;> cases i <;>
    simp [checkCommand, usesKey, usesBlock, hk, hb, bind, Except.bind]

end Sys2Proof.Laws
end

