-- ==== Sys2Proof/Laws/Transform.lean ====
section
/-! SUPPORT. The laws of packing (spec/00_scope.md R12) and of the state primitives (spec/43_state_transform.md R240,
spec/44_mixcolumns.md R263), as equations on blocks. -/

namespace Sys2Proof.Laws

open Sys2Proof.Machine

/-! ## Packing -/

@[simp] theorem unpack_pack (q : Quad) : unpack (pack q) = q := by
  obtain ⟨a, b, c, d⟩ := q
  simp only [unpack, pack, Quad.mk.injEq]
  refine ⟨?_, ?_, ?_, ?_⟩ <;>
    (apply BitVec.eq_of_getLsbD_eq
     intro i hi
     simp only [BitVec.getLsbD_extractLsb', BitVec.getLsbD_append]
     interval_cases i <;> rfl)

@[simp] theorem pack_unpack (v : Word) : pack (unpack v) = v := by
  apply BitVec.eq_of_getLsbD_eq
  intro i hi
  simp only [pack, unpack, BitVec.getLsbD_append, BitVec.getLsbD_extractLsb']
  interval_cases i <;> rfl

@[simp] theorem ofRegs_toRegs (b : Block) : Block.ofRegs b.toRegs = b := by
  simp [Block.ofRegs, Block.toRegs]

@[simp] theorem toRegs_ofRegs (v : Vector Word 4) : (Block.ofRegs v).toRegs = v := by
  ext i hi
  have : i = 0 ∨ i = 1 ∨ i = 2 ∨ i = 3 := by omega
  rcases this with rfl | rfl | rfl | rfl <;> simp [Block.ofRegs, Block.toRegs]

theorem pack_xor (p q : Quad) : pack (p.xor q) = pack p ^^^ pack q := by
  obtain ⟨a, b, c, d⟩ := p
  obtain ⟨a', b', c', d'⟩ := q
  apply BitVec.eq_of_getLsbD_eq
  intro i hi
  simp only [pack, Quad.xor, BitVec.getLsbD_append, BitVec.getLsbD_xor]
  split
  · rfl
  · split
    · rfl
    · split <;> rfl

/-! ## SubBytes, ShiftRows, AddRoundKey -/

theorem Quad.map_map (f g : Byte → Byte) (q : Quad) (h : ∀ b, g (f b) = b) : (q.map f).map g = q := by
  obtain ⟨a, b, c, d⟩ := q
  simp [Quad.map, h]

theorem Block.map_map (f g : Byte → Byte) (s : Block) (h : ∀ b, g (f b) = b) : (s.map f).map g = s := by
  obtain ⟨a, b, c, d⟩ := s
  simp [Block.map, Block.mapCols, Quad.map_map f g _ h]

/-- SubBytes undoes itself in the other direction (43_state_transform.md R240, law 1). -/
theorem subBytes_inverse (e i : Bool) (s : Block) :
    subBytes (buildTables e) (!i) (subBytes (buildTables e) i s) = s := by
  unfold subBytes
  apply Block.map_map
  cases i
  · exact invSbox_sbox e
  · exact sbox_invSbox e

/-- ShiftRows undoes itself in the other direction (43_state_transform.md R240, law 2). -/
theorem shiftRows_inverse (i : Bool) (s : Block) : shiftRows (!i) (shiftRows i s) = s := by
  cases i <;> rfl

theorem Quad.xor_cancel (p q : Quad) : (p.xor q).xor q = p := by
  obtain ⟨a, b, c, d⟩ := p
  simp [Quad.xor]

/-- AddRoundKey is its own inverse (43_state_transform.md R240, law 3). -/
theorem addRoundKey_cancel (s k : Block) : addRoundKey (addRoundKey s k) k = s := by
  obtain ⟨a, b, c, d⟩ := s
  simp [addRoundKey, Block.xor, Quad.xor_cancel]

/-- ShiftRows and SubBytes commute (43_state_transform.md R240, law 4). -/
theorem shiftRows_subBytes (t : FieldTables) (i i' : Bool) (s : Block) :
    shiftRows i' (subBytes t i s) = subBytes t i (shiftRows i' s) := by
  cases i' <;> rfl

/-! ## MixColumns -/

/-- A row of the mixing product with the field product (44_mixcolumns.md R261). -/
theorem mixRow_eq (e : Bool) (m c : Quad) : mixRow (buildTables e) m c =
    (multiplyLong m.b0 c.b0 ^^^ multiplyLong m.b1 c.b1) ^^^ (multiplyLong m.b2 c.b2 ^^^ multiplyLong m.b3 c.b3) := by
  simp only [mixRow, buildTables_exp, buildTables_log, multiply_eq, gfAdd]

/-- A sum of four products with one coefficient 1 and the others 0. -/
theorem unitRow (m0 m1 m2 m3 x0 x1 x2 x3 : Byte) :
    (m0 = 1 → m1 = 0 → m2 = 0 → m3 = 0 → (multiplyLong m0 x0 ^^^ multiplyLong m1 x1) ^^^
      (multiplyLong m2 x2 ^^^ multiplyLong m3 x3) = x0) ∧
    (m0 = 0 → m1 = 1 → m2 = 0 → m3 = 0 → (multiplyLong m0 x0 ^^^ multiplyLong m1 x1) ^^^
      (multiplyLong m2 x2 ^^^ multiplyLong m3 x3) = x1) ∧
    (m0 = 0 → m1 = 0 → m2 = 1 → m3 = 0 → (multiplyLong m0 x0 ^^^ multiplyLong m1 x1) ^^^
      (multiplyLong m2 x2 ^^^ multiplyLong m3 x3) = x2) ∧
    (m0 = 0 → m1 = 0 → m2 = 0 → m3 = 1 → (multiplyLong m0 x0 ^^^ multiplyLong m1 x1) ^^^
      (multiplyLong m2 x2 ^^^ multiplyLong m3 x3) = x3) := by
  refine ⟨?_, ?_, ?_, ?_⟩ <;> rintro rfl rfl rfl rfl <;>
    simp only [multiplyLong_zero_left, multiplyLong_one] <;> simp

/-- A row of a product of two matrices. -/
theorem rowProduct (a b c d m00 m01 m02 m03 m10 m11 m12 m13 m20 m21 m22 m23 m30 m31 m32 m33 x0 x1 x2 x3 : Byte) :
    (multiplyLong a (multiplyLong m00 x0 ^^^ multiplyLong m01 x1 ^^^ (multiplyLong m02 x2 ^^^ multiplyLong m03 x3)) ^^^
      multiplyLong b (multiplyLong m10 x0 ^^^ multiplyLong m11 x1 ^^^ (multiplyLong m12 x2 ^^^ multiplyLong m13 x3))) ^^^
    (multiplyLong c (multiplyLong m20 x0 ^^^ multiplyLong m21 x1 ^^^ (multiplyLong m22 x2 ^^^ multiplyLong m23 x3)) ^^^
      multiplyLong d (multiplyLong m30 x0 ^^^ multiplyLong m31 x1 ^^^ (multiplyLong m32 x2 ^^^ multiplyLong m33 x3))) =
    (multiplyLong ((multiplyLong a m00 ^^^ multiplyLong b m10) ^^^ (multiplyLong c m20 ^^^ multiplyLong d m30)) x0 ^^^
      multiplyLong ((multiplyLong a m01 ^^^ multiplyLong b m11) ^^^ (multiplyLong c m21 ^^^ multiplyLong d m31)) x1) ^^^
    (multiplyLong ((multiplyLong a m02 ^^^ multiplyLong b m12) ^^^ (multiplyLong c m22 ^^^ multiplyLong d m32)) x2 ^^^
      multiplyLong ((multiplyLong a m03 ^^^ multiplyLong b m13) ^^^ (multiplyLong c m23 ^^^ multiplyLong d m33)) x3) := by
  simp only [multiplyLong_xor_left, multiplyLong_xor_right, ← multiplyLong_assoc]
  ac_rfl

/-- MixColumn undoes itself in the other direction (44_mixcolumns.md R263). -/
theorem mixColumn_inverse (e i : Bool) (c : Quad) :
    mixColumn (buildTables e) (!i) (mixColumn (buildTables e) i c) = c := by
  obtain ⟨x0, x1, x2, x3⟩ := c
  cases i <;>
    (simp only [mixColumn, mixRow_eq, rowProduct, mixMatrix, Bool.not_false, Bool.not_true, if_true, Bool.false_eq_true,
      if_false, Quad.mk.injEq]
     exact ⟨(unitRow _ _ _ _ _ _ _ _).1 (by decide) (by decide) (by decide) (by decide),
       (unitRow _ _ _ _ _ _ _ _).2.1 (by decide) (by decide) (by decide) (by decide),
       (unitRow _ _ _ _ _ _ _ _).2.2.1 (by decide) (by decide) (by decide) (by decide),
       (unitRow _ _ _ _ _ _ _ _).2.2.2 (by decide) (by decide) (by decide) (by decide)⟩)

/-- MixColumns undoes itself in the other direction (44_mixcolumns.md R263). -/
theorem mixColumns_inverse (e i : Bool) (s : Block) :
    mixColumns (buildTables e) (!i) (mixColumns (buildTables e) i s) = s := by
  obtain ⟨a, b, c, d⟩ := s
  simp only [mixColumns, Block.mapCols, mixColumn_inverse]

/-- MixColumn takes XOR to XOR (44_mixcolumns.md R263). -/
theorem mixColumn_xor (e i : Bool) (c d : Quad) :
    mixColumn (buildTables e) i (c.xor d) = (mixColumn (buildTables e) i c).xor (mixColumn (buildTables e) i d) := by
  simp only [mixColumn, mixRow_eq, Quad.xor, multiplyLong_xor_right, Quad.mk.injEq]
  refine ⟨?_, ?_, ?_, ?_⟩ <;> ac_rfl

/-- A column of four equal bytes stays (44_mixcolumns.md R263). -/
theorem mixColumn_const (e i : Bool) (b : Byte) : mixColumn (buildTables e) i ⟨b, b, b, b⟩ = ⟨b, b, b, b⟩ := by
  cases i <;>
    (simp only [mixColumn, mixRow_eq, mixMatrix, ← multiplyLong_xor_left, if_true, Bool.false_eq_true, if_false,
      Quad.mk.injEq]
     refine ⟨?_, ?_, ?_, ?_⟩ <;> exact multiplyLong_one b)

end Sys2Proof.Laws
end

