-- ==== Sys2Proof/Laws/Cipher.lean ====
section
/-! SUPPORT. The state part of the cipher steps (spec/45_cipher_fsm.md R286, R291), and the round trip (R294) in terms of
blocks and words. -/

namespace Sys2Proof.Laws

open Sys2Proof.Machine

theorem cipherRound_false (t : FieldTables) (nr : Nat) (w : List Quad) (e : Nat) (acc : CipherAcc) :
    cipherRound false t nr w e acc = encryptRound t nr w e acc := rfl

theorem cipherRound_true (t : FieldTables) (nr : Nat) (w : List Quad) (e : Nat) (acc : CipherAcc) :
    cipherRound true t nr w e acc = decryptRound t nr w e acc := rfl

theorem undo_first (e : Bool) (s : Block) :
    subBytes (buildTables e) true (shiftRows true (shiftRows false (subBytes (buildTables e) false s))) = s := by
  rw [show true = !false from rfl, shiftRows_inverse false, subBytes_inverse e false]

theorem undo_middle (e : Bool) (s : Block) :
    subBytes (buildTables e) true (shiftRows true (mixColumns (buildTables e) true
      (mixColumns (buildTables e) false (shiftRows false (subBytes (buildTables e) false s))))) = s := by
  have h := mixColumns_inverse e false (shiftRows false (subBytes (buildTables e) false s))
  simp only [Bool.not_false] at h
  rw [h, undo_first]

theorem redo_first (e : Bool) (s : Block) :
    shiftRows false (subBytes (buildTables e) false (subBytes (buildTables e) true (shiftRows true s))) = s := by
  have h := subBytes_inverse e true (shiftRows true s)
  simp only [Bool.not_true] at h
  rw [h]
  exact shiftRows_inverse true s

theorem redo_middle (e : Bool) (s : Block) :
    mixColumns (buildTables e) false (shiftRows false (subBytes (buildTables e) false
      (subBytes (buildTables e) true (shiftRows true (mixColumns (buildTables e) true s))))) = s := by
  rw [redo_first]
  exact mixColumns_inverse e true s

theorem encryptRound_first (t : FieldTables) (nr : Nat) (w : List Quad) (acc : CipherAcc) :
    (encryptRound t nr w 0 acc).s = addRoundKey acc.s (roundKey w 0) := rfl

theorem encryptRound_middle (t : FieldTables) (nr : Nat) (w : List Quad) (e : Nat) (acc : CipherAcc) (h0 : 0 < e)
    (h : e < nr) : (encryptRound t nr w e acc).s =
      addRoundKey (mixColumns t false (shiftRows false (subBytes t false acc.s))) (roundKey w e) := by
  simp [encryptRound, show ¬ e = 0 by omega, h]

theorem encryptRound_last (t : FieldTables) (nr : Nat) (w : List Quad) (acc : CipherAcc) (h0 : 0 < nr) :
    (encryptRound t nr w nr acc).s = addRoundKey (shiftRows false (subBytes t false acc.s)) (roundKey w nr) := by
  simp [encryptRound, show ¬ nr = 0 by omega]

theorem decryptRound_first (t : FieldTables) (nr : Nat) (w : List Quad) (acc : CipherAcc) :
    (decryptRound t nr w 0 acc).s = subBytes t true (shiftRows true (addRoundKey acc.s (roundKey w nr))) := rfl

theorem decryptRound_middle (t : FieldTables) (nr : Nat) (w : List Quad) (e : Nat) (acc : CipherAcc) (h0 : 0 < e)
    (h : e < nr) : (decryptRound t nr w e acc).s =
      subBytes t true (shiftRows true (mixColumns t true (addRoundKey acc.s (roundKey w (nr - e))))) := by
  simp [decryptRound, show ¬ e = 0 by omega, h]

theorem decryptRound_last (t : FieldTables) (nr : Nat) (w : List Quad) (acc : CipherAcc) (h0 : 0 < nr) :
    (decryptRound t nr w nr acc).s = addRoundKey acc.s (roundKey w 0) := by
  simp [decryptRound, show ¬ nr = 0 by omega]

/-- Decryption walks back through the states of the encryption. -/
theorem decrypt_walks_back (e : Bool) (nr : Nat) (w : List Quad) (p : Block) (hnr : 0 < nr) (n : Nat) (hn : n < nr) :
    (cipherSteps true (buildTables e) nr w (encrypt (buildTables e) nr w p).s (n + 1)).s =
      (cipherSteps false (buildTables e) nr w p (nr - n)).s := by
  induction n with
  | zero =>
    rw [cipherSteps_succ, cipherSteps_zero, cipherRound_true, decryptRound_first, encrypt, cipherSteps_succ,
      cipherRound_false, encryptRound_last _ _ _ _ hnr, addRoundKey_cancel, undo_first, Nat.sub_zero]
  | succ n ih =>
    have hk : nr - n = (nr - (n + 1)) + 1 := by omega
    rw [cipherSteps_succ, cipherRound_true, decryptRound_middle _ _ _ _ _ (by omega) (by omega), ih (by omega), hk,
      cipherSteps_succ, cipherRound_false, encryptRound_middle _ _ _ _ _ (by omega) (by omega), addRoundKey_cancel,
      undo_middle]

/-- Decryption undoes encryption under the same words (45_cipher_fsm.md R294). -/
theorem decrypt_encrypt (e : Bool) (nr : Nat) (w : List Quad) (p : Block) (hnr : 0 < nr) :
    (decrypt (buildTables e) nr w (encrypt (buildTables e) nr w p).s).s = p := by
  have hb := decrypt_walks_back e nr w p hnr (nr - 1) (by omega)
  rw [show nr - 1 + 1 = nr by omega, show nr - (nr - 1) = 0 + 1 by omega] at hb
  rw [decrypt, cipherSteps_succ, cipherRound_true, decryptRound_last _ _ _ _ hnr, hb, cipherSteps_succ,
    cipherRound_false, encryptRound_first, addRoundKey_cancel, cipherSteps_zero]

/-- Encryption walks back through the states of the decryption. -/
theorem encrypt_walks_back (e : Bool) (nr : Nat) (w : List Quad) (c : Block) (hnr : 0 < nr) (n : Nat) (hn : n < nr) :
    (cipherSteps false (buildTables e) nr w (decrypt (buildTables e) nr w c).s (n + 1)).s =
      (cipherSteps true (buildTables e) nr w c (nr - n)).s := by
  induction n with
  | zero =>
    rw [cipherSteps_succ, cipherSteps_zero, cipherRound_false, encryptRound_first, decrypt, cipherSteps_succ,
      cipherRound_true, decryptRound_last _ _ _ _ hnr, addRoundKey_cancel, Nat.sub_zero]
  | succ n ih =>
    have hk : nr - n = (nr - (n + 1)) + 1 := by omega
    rw [cipherSteps_succ, cipherRound_false, encryptRound_middle _ _ _ _ _ (by omega) (by omega), ih (by omega), hk,
      cipherSteps_succ, cipherRound_true, decryptRound_middle _ _ _ _ _ (by omega) (by omega), redo_middle,
      show nr - (nr - (n + 1)) = n + 1 by omega, addRoundKey_cancel]

/-- Encryption undoes decryption under the same words (45_cipher_fsm.md R294). -/
theorem encrypt_decrypt (e : Bool) (nr : Nat) (w : List Quad) (c : Block) (hnr : 0 < nr) :
    (encrypt (buildTables e) nr w (decrypt (buildTables e) nr w c).s).s = c := by
  have hb := encrypt_walks_back e nr w c hnr (nr - 1) (by omega)
  rw [show nr - 1 + 1 = nr by omega, show nr - (nr - 1) = 0 + 1 by omega] at hb
  rw [encrypt, cipherSteps_succ, cipherRound_false, encryptRound_last _ _ _ _ hnr, hb, cipherSteps_succ,
    cipherRound_true, decryptRound_first, redo_first, addRoundKey_cancel, cipherSteps_zero]

/-! The rounds and the expansion read no trace (spec/60_exceptions.md R337): a build with `TRACE_EN = 0` gives the same. -/

theorem substituteWord_traceEn (e : Bool) : substituteWord (buildTables e) = substituteWord (buildTables false) := by
  funext q; simp only [substituteWord, buildTables]

theorem subBytes_traceEn (e i : Bool) : subBytes (buildTables e) i = subBytes (buildTables false) i := by
  funext q; simp only [subBytes, buildTables]

theorem mixColumns_traceEn (e i : Bool) : mixColumns (buildTables e) i = mixColumns (buildTables false) i := by
  funext q; simp only [mixColumns]
  congr 1

theorem expandWord_traceEn (e : Bool) : expandWord (buildTables e) = expandWord (buildTables false) := by
  funext nk i acc; simp only [expandWord, substituteWord_traceEn e]

theorem expand_traceEn (e : Bool) : expand (buildTables e) = expand (buildTables false) := by
  funext size key; simp only [expand, expandSteps, expandWord_traceEn e]

theorem cipherRound_traceEn (d e : Bool) : cipherRound d (buildTables e) = cipherRound d (buildTables false) := by
  funext nr w k acc; simp only [cipherRound, encryptRound, decryptRound, subBytes_traceEn e, mixColumns_traceEn e]

theorem cipherSteps_traceEn (d e : Bool) : cipherSteps d (buildTables e) = cipherSteps d (buildTables false) := by
  funext nr w p n; simp only [cipherSteps, cipherRound_traceEn d e]

end Sys2Proof.Laws
end

