-- ==== Sys2Proof/Laws/HostAsm.lean ====
section
/-! SUPPORT. A step at a host access of an idle core, where the RW registers of a pseudo-instruction stand, and the
accesses that `ldkey` and `ldblk` make, written out (spec/30_encoding.md R122). -/

namespace Sys2Proof.Laws

open Sys2Proof.Machine

/-- A scheduled write to an idle core stores at its item (20_memory.md R89). -/
theorem step_write_of_idle (s : State) (a : Addr) (v : Word) (rest : List HostEvent) (hb : s.busy = false)
    (h : s.schedule = .write a v :: rest) : step s = .next (writeItem v { s with schedule := rest } (itemAt a)) := by
  have hb' : ({ s with schedule := rest } : State).busy = false := hb
  simp [step, h, performEvent, hostWrite, hb']

/-- A scheduled read of an idle core records the value (20_memory.md R88). -/
theorem step_read_of_idle (s : State) (a : Addr) (rest : List HostEvent) (hb : s.busy = false)
    (h : s.schedule = .read a :: rest) :
    step s = .next { s with schedule := rest, lastRead := some (a, memRead s a) } := by
  have hb' : ({ s with schedule := rest } : State).busy = false := hb
  have hm : memRead { s with schedule := rest } a = memRead s a := rfl
  simp [step, h, performEvent, hostRead, readValue, readIsDraw, hb', hm]

/-- `KEYLEN` stands where `ldkey` writes it (20_memory.md R81). -/
theorem itemAt_keylenAddr : itemAt keylenAddr = .keylen := by decide

/-- `KEYj` stands where `ldkey` writes it. -/
theorem itemAt_keyAddr : ∀ j : Fin 8, itemAt (keyAddr j) = .key j := by decide

/-- `STATEc` stands where `ldblk` writes it and `rdblk` reads it. -/
theorem itemAt_stateAddr : ∀ c : Fin 4, itemAt (stateAddr c) = .stateCol c := by decide

/-- `ldkey` writes `KEYLEN`, then the first Nk key registers in order. -/
theorem ldkey_expand (size : KeySize) (k : Vector Quad 8) : (AsmLine.ldkey size k).expand =
    .write keylenAddr (keylenValue size) ::
      ((List.finRange 8).take size.nk).map fun j => .write (keyAddr j) (pack k[j]) := by
  have hk : k.toList = (List.finRange 8).map fun j => k[j] :=
    List.ext_getElem (by simp) fun n h1 h2 => by simp
  simp only [AsmLine.expand, hk]
  cases size <;> rfl

/-- `ldblk` writes the four columns in order. -/
theorem ldblk_expand (b : Block) : (AsmLine.ldblk b).expand =
    (List.finRange 4).map fun c => .write (stateAddr c) b.toRegs[c] := rfl

/-- `rdblk` reads the four columns in order. -/
theorem rdblk_expand : AsmLine.rdblk.expand = (List.finRange 4).map fun c => .read (stateAddr c) := rfl

/-! ## Runs that begin with an access -/

/-- A run of an idle core that begins with a write goes on from the store. -/
theorem run_write_of_idle {s : State} {a : Addr} {v : Word} {rest : List HostEvent} {n : Nat}
    {x : Host.Outcome State Fault Refusal} (hb : s.busy = false) (h : s.schedule = .write a v :: rest)
    (hr : core.run n (writeItem v { s with schedule := rest } (itemAt a)) = x) : core.run (n + 1) s = x :=
  (run_succ _ _ _ (step_write_of_idle s a v rest hb h)).trans hr

/-- A run of an idle core that begins with a read goes on with the value recorded. -/
theorem run_read_of_idle {s : State} {a : Addr} {rest : List HostEvent} {n : Nat}
    {x : Host.Outcome State Fault Refusal} (hb : s.busy = false) (h : s.schedule = .read a :: rest)
    (hr : core.run n { s with schedule := rest, lastRead := some (a, memRead s a) } = x) : core.run (n + 1) s = x :=
  (run_succ _ _ _ (step_read_of_idle s a rest hb h)).trans hr

/-- The same for a write to a key register. -/
theorem run_writeKey_of_idle {s : State} {j : Fin 8} {v : Word} {rest : List HostEvent} {n : Nat}
    {x : Host.Outcome State Fault Refusal} (hb : s.busy = false) (h : s.schedule = .write (keyAddr j) v :: rest)
    (hr : core.run n { s with schedule := rest, keyReg := s.keyReg.set j v } = x) : core.run (n + 1) s = x := by
  refine run_write_of_idle hb h ?_
  rw [itemAt_keyAddr]
  exact hr

/-- The same for a write to a state register. -/
theorem run_writeColumn_of_idle {s : State} {c : Fin 4} {v : Word} {rest : List HostEvent} {n : Nat}
    {x : Host.Outcome State Fault Refusal} (hb : s.busy = false) (h : s.schedule = .write (stateAddr c) v :: rest)
    (hr : core.run n { s with schedule := rest, stateReg := s.stateReg.set c v } = x) : core.run (n + 1) s = x := by
  refine run_write_of_idle hb h ?_
  rw [itemAt_stateAddr]
  exact hr

/-- The same for a read of a state register. -/
theorem run_readColumn_of_idle {s : State} {c : Fin 4} {rest : List HostEvent} {n : Nat}
    {x : Host.Outcome State Fault Refusal} (hb : s.busy = false) (h : s.schedule = .read (stateAddr c) :: rest)
    (hr : core.run n { s with schedule := rest, lastRead := some (stateAddr c, s.stateReg[c]) } = x) :
    core.run (n + 1) s = x := by
  refine run_read_of_idle hb h ?_
  rw [memRead, itemAt_stateAddr]
  exact hr

/-- Bit 2 of `STATUS` is ERR (10_state.md R34), so `check` finds an error exactly when there is one. -/
theorem checkFails_statusWord (s : State) : checkFails (statusWord s) = s.errFlag := by
  simp only [checkFails, statusWord, BitVec.getLsbD_append, BitVec.getLsbD_ofBool]
  simp

end Sys2Proof.Laws
end

