-- ==== Sys2Proof/Laws/Map.lean ====
section
/-! SUPPORT. The address map of spec/20_memory.md R81: which addresses hold the RW registers, and that each of those
stands at one address. -/

namespace Sys2Proof.Laws

open Sys2Proof.Machine

/-- The word address of an RW register. -/
def writableAddr : Item → Option Nat
  | .cmd => some 0
  | .keylen => some 2
  | .blklen => some 3
  | .opa => some 4
  | .opb => some 5
  | .key j => some (8 + j)
  | .stateCol c => some (16 + c)
  | _ => none

/-- An RW register stands at its address, and nothing else is writable. -/
theorem writableAddr_itemAt (a : Addr) : writableAddr (itemAt a) =
    if a.toNat = 0 ∨ (2 ≤ a.toNat ∧ a.toNat ≤ 5) ∨ (8 ≤ a.toNat ∧ a.toNat ≤ 19) then some a.toNat else none := by
  unfold itemAt
  by_cases h0 : a.toNat = 0x0000 / 4
  · rw [if_pos h0, if_pos (by omega), h0]; rfl
  rw [if_neg h0]
  by_cases h1 : a.toNat = 0x0004 / 4
  · rw [if_pos h1, if_neg (by omega)]; rfl
  rw [if_neg h1]
  by_cases h2 : a.toNat = 0x0008 / 4
  · rw [if_pos h2, if_pos (by omega), h2]; rfl
  rw [if_neg h2]
  by_cases h3 : a.toNat = 0x000C / 4
  · rw [if_pos h3, if_pos (by omega), h3]; rfl
  rw [if_neg h3]
  by_cases h4 : a.toNat = 0x0010 / 4
  · rw [if_pos h4, if_pos (by omega), h4]; rfl
  rw [if_neg h4]
  by_cases h5 : a.toNat = 0x0014 / 4
  · rw [if_pos h5, if_pos (by omega), h5]; rfl
  rw [if_neg h5]
  by_cases h6 : a.toNat = 0x0018 / 4
  · rw [if_pos h6, if_neg (by omega)]; rfl
  rw [if_neg h6]
  by_cases h7 : a.toNat = 0x001C / 4
  · rw [if_pos h7, if_neg (by omega)]; rfl
  rw [if_neg h7]
  by_cases h8 : 0x0020 / 4 ≤ a.toNat ∧ a.toNat < 0x0040 / 4
  · rw [dif_pos h8, if_pos (by omega)]; exact congrArg some (by dsimp only; omega)
  rw [dif_neg h8]
  by_cases h9 : 0x0040 / 4 ≤ a.toNat ∧ a.toNat < 0x0050 / 4
  · rw [dif_pos h9, if_pos (by omega)]; exact congrArg some (by dsimp only; omega)
  rw [dif_neg h9]
  rw [if_neg (show ¬ (a.toNat = 0 ∨ (2 ≤ a.toNat ∧ a.toNat ≤ 5) ∨ (8 ≤ a.toNat ∧ a.toNat ≤ 19)) by omega)]
  by_cases k0 : 0x0100 / 4 ≤ a.toNat ∧ a.toNat < 0x01F0 / 4
  · rw [dif_pos k0]; rfl
  rw [dif_neg k0]
  by_cases k1 : 0x0200 / 4 ≤ a.toNat ∧ a.toNat < 0x0240 / 4
  · rw [dif_pos k1]; rfl
  rw [dif_neg k1]
  by_cases k2 : 0x0400 / 4 ≤ a.toNat ∧ a.toNat < 0x0800 / 4
  · rw [dif_pos k2]; rfl
  rw [dif_neg k2]
  by_cases k3 : 0x0800 / 4 ≤ a.toNat ∧ a.toNat < 0x0C00 / 4
  · rw [dif_pos k3]; rfl
  rw [dif_neg k3]
  by_cases k4 : 0x0C00 / 4 ≤ a.toNat ∧ a.toNat < 0x1000 / 4
  · rw [dif_pos k4]; rfl
  rw [dif_neg k4]
  by_cases k5 : 0x1000 / 4 ≤ a.toNat ∧ a.toNat < 0x1400 / 4
  · rw [dif_pos k5]; rfl
  rw [dif_neg k5]
  by_cases k6 : 0x2000 / 4 ≤ a.toNat ∧ a.toNat < 0x2800 / 4
  · rw [if_pos k6]; rfl
  rw [if_neg k6]
  by_cases k7 : 0x3000 / 4 ≤ a.toNat ∧ a.toNat < 0x3680 / 4
  · rw [if_pos k7]; rfl
  rw [if_neg k7]
  by_cases k8 : 0x4000 / 4 ≤ a.toNat ∧ a.toNat < 0x6000 / 4
  · rw [if_pos k8]; rfl
  rw [if_neg k8]
  rfl

theorem writable_iff_isSome (x : Item) : x.writable = (writableAddr x).isSome := by cases x <;> rfl

/-- The RW addresses, in words. -/
theorem itemAt_writable_iff (a : Addr) : (itemAt a).writable = true ↔
    a.toNat = 0 ∨ (2 ≤ a.toNat ∧ a.toNat ≤ 5) ∨ (8 ≤ a.toNat ∧ a.toNat ≤ 19) := by
  rw [writable_iff_isSome, writableAddr_itemAt]
  split <;> simp_all

/-- An RW register stands at one address only. -/
theorem itemAt_inj_of_writable (a b : Addr) (h : (itemAt a).writable = true) (he : itemAt b = itemAt a) : b = a := by
  have ha := writableAddr_itemAt a
  have hb := writableAddr_itemAt b
  rw [if_pos ((itemAt_writable_iff a).1 h)] at ha
  rw [if_pos ((itemAt_writable_iff b).1 (he ▸ h)), he, ha] at hb
  exact BitVec.eq_of_toNat_eq (Option.some.inj hb).symm

/-- `CMD` stands at address 0 only. -/
theorem itemAt_eq_cmd_iff (a : Addr) : itemAt a = .cmd ↔ a = cmdAddr := by
  constructor
  · intro h
    exact itemAt_inj_of_writable cmdAddr a rfl h
  · rintro rfl; rfl

/-- A choice between items other than `x` is not `x`. -/
theorem ite_item_ne {c : Prop} [Decidable c] {x p q : Item} (hp : p ≠ x) (hq : q ≠ x) : (if c then p else q) ≠ x := by
  by_cases h : c
  · rwa [if_pos h]
  · rwa [if_neg h]

/-- The same where the choice gives an index. -/
theorem dite_item_ne {c : Prop} [Decidable c] {x : Item} {p : c → Item} {q : ¬ c → Item} (hp : ∀ h, p h ≠ x)
    (hq : ∀ h, q h ≠ x) : (if h : c then p h else q h) ≠ x := by
  by_cases h : c
  · rw [dif_pos h]; exact hp h
  · rw [dif_neg h]; exact hq h

/-- `STATUS` stands at its address only. -/
theorem itemAt_eq_status_iff (a : Addr) : itemAt a = .status ↔ a = statusAddr := by
  constructor
  · intro h
    by_contra hne
    have hn : a.toNat ≠ 0x0004 / 4 := fun hn => hne (BitVec.eq_of_toNat_eq hn)
    revert h
    unfold itemAt
    dsimp only
    rw [if_neg hn]
    change _ ≠ _
    repeat' first | exact Item.noConfusion | refine ite_item_ne ?_ ?_ | refine dite_item_ne (fun _ => ?_) (fun _ => ?_)
  · rintro rfl; rfl

end Sys2Proof.Laws
end

