-- ==== Sys2Proof/Laws/PerInstr.lean ====
section
/-! SUPPORT. The family `EncodingRow`: the word the encoder gives a well-formed command matches the command's row of the
opcode map, under the row's mask (spec/30_encoding.md R116). One lemma per command. -/

namespace Sys2Proof.Laws.EncodingRow

/-- The encoder's word matches the command's own row of 30_encoding.md R116. -/
def Statement (i : Instr) : Prop := i.wellFormed = true → (opcodeRow i).selects (encode i) = true

theorem nop : Statement .nop := fun _ => by decide

theorem buildTables : Statement .buildTables := fun _ => by decide

theorem gfAdd : Statement .gfAdd := fun _ => by decide

theorem gfXtime : Statement .gfXtime := fun _ => by decide

theorem gfMulLong : Statement .gfMulLong := fun _ => by decide

theorem gfMul : Statement .gfMul := fun _ => by decide

theorem gfInv : Statement .gfInv := fun _ => by decide

theorem gfAffine : Statement .gfAffine := fun _ => by decide

theorem sboxLookup : Statement .sboxLookup := fun _ => by decide

theorem invSboxLookup : Statement .invSboxLookup := fun _ => by decide

theorem rotWord : Statement .rotWord := fun _ => by decide

theorem subWord : Statement .subWord := fun _ => by decide

theorem expandKey : Statement .expandKey := fun _ => by decide

theorem subBytes : Statement .subBytes := fun _ => by decide

theorem invSubBytes : Statement .invSubBytes := fun _ => by decide

theorem shiftRows : Statement .shiftRows := fun _ => by decide

theorem invShiftRows : Statement .invShiftRows := fun _ => by decide

theorem mixColumns : Statement .mixColumns := fun _ => by decide

theorem invMixColumns : Statement .invMixColumns := fun _ => by decide

theorem addRoundKey (r : Nat) : Statement (.addRoundKey r) := by
  intro h
  have hr : r < 16 := by simpa [Instr.wellFormed] using h
  have all : ∀ n : Fin 16, (opcodeRow (.addRoundKey n)).selects (encode (.addRoundKey n)) = true := by decide
  exact all ⟨r, hr⟩

theorem encryptBlock : Statement .encryptBlock := fun _ => by decide

theorem decryptBlock : Statement .decryptBlock := fun _ => by decide

end Sys2Proof.Laws.EncodingRow
end

