-- ==== Sys2Proof/Laws/Sequencer.lean ====
section
/-! SUPPORT. What one tick of the sequencer does, phase by phase (spec/45_cipher_fsm.md R280): a tick outside COMMIT
writes hidden registers only, leaves the outcome of the command in flight alone, and keeps the invariant. -/

namespace Sys2Proof.Laws

open Sys2Proof.Machine

/-- A new sequencer that keeps the command word and the operand copies, and stages no tables but built ones. -/
structure SeqStep (s : State) (q : Sequencer) : Prop where
  cur : q.cur = s.seq.cur
  ops : q.ops = s.seq.ops
  tables : q.stagedTables = s.seq.stagedTables ∨ q.stagedTables = some (buildTables s.traceEn)

theorem stageOutcome_seqStep (o : CmdOutcome) (s : State) :
    ∃ q, stageOutcome o s = { s with seq := q } ∧ SeqStep s q :=
  ⟨_, rfl, rfl, rfl, .inl rfl⟩

theorem tickCheck_seqStep (s : State) : ∃ q, tickCheck s = { s with seq := q } ∧ SeqStep s q := by
  unfold tickCheck
  split
  · exact stageOutcome_seqStep _ s
  · split
    · exact stageOutcome_seqStep _ s
    · exact ⟨_, rfl, rfl, rfl, .inl rfl⟩

theorem tickExpandPhase_seqStep (s : State) : ∃ q, tickExpandPhase s = { s with seq := q } ∧ SeqStep s q := by
  unfold tickExpandPhase
  split
  · exact stageOutcome_seqStep _ s
  · exact ⟨_, rfl, rfl, rfl, .inl rfl⟩

theorem tickCipher_seqStep (d : Bool) (size : KeySize) (s : State) :
    ∃ q, tickCipher d size s = { s with seq := q } ∧ SeqStep s q := by
  unfold tickCipher
  dsimp only
  split
  · exact ⟨_, rfl, rfl, rfl, .inl rfl⟩
  · exact stageOutcome_seqStep _ s

theorem tickExec_seqStep (i : Instr) (s : State) : ∃ q, tickExec i s = { s with seq := q } ∧ SeqStep s q := by
  unfold tickExec
  split
  · split
    · exact stageOutcome_seqStep _ s
    · split
      · exact tickCipher_seqStep _ _ s
      · exact stageOutcome_seqStep _ s
  · exact stageOutcome_seqStep _ s

/-- A tick outside COMMIT writes only hidden registers. -/
theorem seqTick_seqStep (s : State) (h : s.seq.phase ≠ .commit) :
    ∃ q, seqTick s = { s with seq := q } ∧ SeqStep s q := by
  unfold seqTick
  cases hp : s.seq.phase with
  | idle => exact ⟨s.seq, rfl, rfl, rfl, .inl rfl⟩
  | check => exact tickCheck_seqStep s
  | commit => exact absurd hp h
  | build =>
    dsimp only
    split
    · exact stageOutcome_seqStep _ s
    · exact ⟨_, rfl, rfl, rfl, .inr rfl⟩
  | expand => exact tickExpandPhase_seqStep s
  | exec =>
    dsimp only
    split
    · exact stageOutcome_seqStep _ s
    · exact tickExec_seqStep _ s

/-- The phase that work starts in is not IDLE. -/
theorem workPhase_ne_idle (i : Instr) : workPhase i ≠ .idle := by
  unfold workPhase; split <;> simp

theorem firstPhase_ne_idle (i : Instr) (o : Captured) : firstPhase i o ≠ .idle := by
  unfold firstPhase; split
  · simp
  · exact workPhase_ne_idle i

/-- A tick outside COMMIT leaves `BUSY` as it is (45_cipher_fsm.md R280). -/
theorem seqTick_busy (s : State) (h : s.seq.phase ≠ .commit) : (seqTick s).busy = s.busy := by
  unfold seqTick
  cases hp : s.seq.phase with
  | idle => rfl
  | commit => exact absurd hp h
  | check =>
    dsimp only
    rw [(busy_eq_true_iff s).2 (by rw [hp]; simp), busy_eq_true_iff]
    unfold tickCheck
    split
    · simp [stageOutcome]
    · split
      · simp [stageOutcome]
      · exact firstPhase_ne_idle _ _
  | build =>
    dsimp only
    rw [(busy_eq_true_iff s).2 (by rw [hp]; simp), busy_eq_true_iff]
    split
    · simp [stageOutcome]
    · exact workPhase_ne_idle _
  | expand =>
    dsimp only
    rw [(busy_eq_true_iff s).2 (by rw [hp]; simp), busy_eq_true_iff]
    unfold tickExpandPhase
    split
    · simp [stageOutcome]
    · simp only [tickExpand]; split <;> simp
  | exec =>
    dsimp only
    rw [(busy_eq_true_iff s).2 (by rw [hp]; simp), busy_eq_true_iff]
    split
    · simp [stageOutcome]
    · unfold tickExec
      split
      · split
        · simp [stageOutcome]
        · split
          · unfold tickCipher
            dsimp only
            split
            · simp [hp]
            · simp [stageOutcome]
          · simp [tickStageExpansion, stageOutcome]
      · simp [stageOutcome]

/-- Such a tick keeps the tables as built. -/
theorem seqStep_tablesOk (s : State) (q : Sequencer) (hq : SeqStep s q) (ht : s.TablesOk) :
    ({ s with seq := q } : State).TablesOk := by
  refine ⟨ht.1, ?_⟩
  intro t h
  change q.stagedTables = some t at h
  rcases hq.tables with h' | h' <;> rw [h'] at h
  · exact ht.2 t h
  · cases h; rfl

/-- Such a tick leaves the outcome of the command in flight alone. -/
theorem seqStep_outcome (s : State) (q : Sequencer) (hq : SeqStep s q) (ht : s.TablesOk) :
    ({ s with seq := q } : State).outcome = s.outcome := by
  have he : ensureTables ({ s with seq := q } : State) = ensureTables s := by
    rw [ensureTables_of_ok _ ht, ensureTables_of_ok _ (seqStep_tablesOk s q hq ht)]
  unfold State.outcome
  change (match decode q.cur with | .ok i => outcomeOf i { s with seq := q } | .error _ => _) = _
  rw [hq.cur]
  cases decode s.seq.cur with
  | error e => rfl
  | ok i => exact outcomeOf_congr i s _ hq.ops he rfl

/-! ## Progress, phase by phase -/

theorem usesKey_keyConfig (i : Instr) (o : Captured) (hk : usesKey i = true) (hc : checkCommand i o = .ok ()) :
    ∃ size, keyConfig o = .ok size := by
  cases h : keyConfig o with
  | ok size => exact ⟨size, rfl⟩
  | error c => simp [checkCommand, hk, h, bind, Except.bind] at hc

theorem nk_lt_words (size : KeySize) : size.nk < size.words := by cases size <;> decide

/-- The tick that leaves COMMIT's outcome staged. -/
theorem stageOutcome_progress (s : State) (o : CmdOutcome) (ht : s.TablesOk) (h : o = s.outcome) :
    (stageOutcome o s).Progress := by
  have := seqStep_outcome s { s.seq with phase := .commit, staged := o } ⟨rfl, rfl, .inl rfl⟩ ht
  unfold State.Progress
  change o = ({ s with seq := { s.seq with phase := .commit, staged := o } } : State).outcome
  rw [this, h]

theorem captureNk_of (o : Captured) (size : KeySize) (h : keyConfig o = .ok size) : captureNk o = size.nk := by
  simp [captureNk, h]

theorem captureKey_of (o : Captured) (size : KeySize) (h : keyConfig o = .ok size) :
    captureKey o = keyWords o size := by
  simp [captureKey, h]

theorem tickCheck_progress (s : State) (ht : s.TablesOk) : (tickCheck s).Progress := by
  unfold tickCheck
  cases hd : decode s.seq.cur with
  | error e => exact stageOutcome_progress s _ ht (by simp [State.outcome, hd])
  | ok i =>
    dsimp only
    cases hc : checkCommand i s.seq.ops with
    | error c => exact stageOutcome_progress s _ ht (by simp [State.outcome, hd, outcomeOf_of_check_error i s c hc])
    | ok u =>
      have hp : (startWork i s).Passed i := ⟨hd, hc⟩
      have hl : (startWork i s).CipherLoaded := ⟨rfl, rfl, rfl, rfl⟩
      unfold State.Progress
      change match (startWork i s).seq.phase with | _ => _
      have hph : (startWork i s).seq.phase = firstPhase i s.seq.ops := rfl
      rw [hph]
      unfold firstPhase workPhase
      by_cases hn : (needsTables i && !s.seq.ops.tablesReady) = true
      · rw [if_pos hn]
        refine ⟨i, hp, hl, fun hk => ?_⟩
        obtain ⟨size, hs⟩ := usesKey_keyConfig i _ hk hc
        exact ⟨size, hs, captureNk_of _ _ hs, captureKey_of _ _ hs, rfl⟩
      · rw [if_neg hn]
        by_cases hk : usesKey i = true
        · rw [if_pos hk]
          obtain ⟨size, hs⟩ := usesKey_keyConfig i _ hk hc
          have hw : (startWork i s).seq.wi = size.nk := captureNk_of _ _ hs
          refine ⟨i, size, hp, hl, hk, hs, hw.ge, hw ▸ nk_lt_words size, ?_⟩
          rw [hw, Nat.sub_self, expandSteps_zero]
          change (⟨captureKey s.seq.ops, []⟩ : ExpandAcc) = _
          rw [captureKey_of _ _ hs]
          rfl
        · rw [if_neg hk]
          exact ⟨i, hp, fun h => absurd h hk⟩

theorem tickBuild_progress (i : Instr) (s : State) (hp : s.Passed i) (hl : s.CipherLoaded)
    (hk : usesKey i = true → ∃ size, keyConfig s.seq.ops = .ok size ∧ s.seq.wi = size.nk ∧
      s.seq.stagedW = keyWords s.seq.ops size ∧ s.seq.stagedKt = []) : (tickBuild i s).Progress := by
  unfold State.Progress
  have hph : (tickBuild i s).seq.phase = workPhase i := rfl
  rw [hph]
  unfold workPhase
  by_cases hu : usesKey i = true
  · rw [if_pos hu]
    obtain ⟨size, hs, hw, hkw, hkt⟩ := hk hu
    have hw' : (tickBuild i s).seq.wi = size.nk := hw
    refine ⟨i, size, hp, hl, hu, hs, hw'.ge, hw' ▸ nk_lt_words size, ?_⟩
    rw [hw', Nat.sub_self, expandSteps_zero]
    change (⟨s.seq.stagedW, s.seq.stagedKt⟩ : ExpandAcc) = _
    rw [hkw, hkt]
    rfl
  · rw [if_neg hu]
    exact ⟨i, hp, fun h => absurd h hu⟩

theorem tickExpandPhase_progress (s : State) (i : Instr) (size : KeySize) (ht : s.TablesOk) (hp : s.Passed i)
    (hl : s.CipherLoaded) (hu : usesKey i = true) (hs : keyConfig s.seq.ops = .ok size) (h1 : size.nk ≤ s.seq.wi)
    (h2 : s.seq.wi < size.words)
    (hx : ({ w := s.seq.stagedW, kt := s.seq.stagedKt } : ExpandAcc) =
      expandSteps (buildTables s.traceEn) size.nk (keyWords s.seq.ops size) (s.seq.wi - size.nk)) :
    (tickExpandPhase s).Progress := by
  have hx' : expandWord (ensureTables s) size.nk s.seq.wi { w := s.seq.stagedW, kt := s.seq.stagedKt } =
      expandSteps (buildTables s.traceEn) size.nk (keyWords s.seq.ops size) (s.seq.wi - size.nk + 1) := by
    rw [expandSteps_succ, ← hx, ensureTables_of_ok s ht]
    congr 1
    omega
  have he : tickExpandPhase s = tickExpand size s := by simp [tickExpandPhase, hs]
  rw [he]
  by_cases hlast : s.seq.wi + 1 = size.words
  · unfold State.Progress
    have hph' : (tickExpand size s).seq.phase = .exec := by simp [tickExpand, hlast]
    rw [hph']
    refine ⟨i, hp, fun _ => ⟨size, hs, ?_, ?_⟩⟩
    · change expandWord (ensureTables s) size.nk s.seq.wi { w := s.seq.stagedW, kt := s.seq.stagedKt } = _
      rw [hx']
      unfold expand
      change _ = expandSteps (buildTables s.traceEn) size.nk (keyWords s.seq.ops size) _
      congr 1
      omega
    · intro d hd
      obtain ⟨l1, l2, l3, l4⟩ := hl
      refine ⟨?_, ?_⟩
      · change s.seq.rnd ≤ _; omega
      · change (⟨s.seq.work, s.seq.stagedCt, s.seq.stagedRrot⟩ : CipherAcc) = cipherSteps d _ _ _ (blockS s.seq.ops) s.seq.rnd
        rw [l1, l2, l3, l4]
        rfl
  · unfold State.Progress
    have hph' : (tickExpand size s).seq.phase = .expand := by simp [tickExpand, hlast]
    rw [hph']
    have hw : (tickExpand size s).seq.wi = s.seq.wi + 1 := by simp [tickExpand, hlast]
    refine ⟨i, size, hp, hl, hu, hs, by omega, by omega, ?_⟩
    rw [hw]
    change expandWord (ensureTables s) size.nk s.seq.wi { w := s.seq.stagedW, kt := s.seq.stagedKt } =
      expandSteps (buildTables s.traceEn) size.nk (keyWords s.seq.ops size) _
    rw [hx']
    congr 1
    omega

/-- The outcome of a key command that passed its checks, in terms of the expansion and the cipher run. -/
theorem outcomeOf_keyCommand (i : Instr) (s : State) (size : KeySize) (hu : usesKey i = true)
    (hs : keyConfig s.seq.ops = .ok size) (hc : checkCommand i s.seq.ops = .ok ()) :
    outcomeOf i s = match cipherDirection i with
      | some d => .ok (cipherResults s d size (expandedKey s size)
          (cipherSteps d (ensureTables s) size.nr (expandedKey s size).w (blockS s.seq.ops) (size.nr + 1)))
      | none => .ok (expansionResults s size (expandedKey s size)) := by
  cases hb : checkBlock s.seq.ops <;> cases i <;>
    simp_all [usesKey, usesBlock, checkCommand, outcomeOf, cipherDirection, expandKeyOutcome, encryptBlockOutcome,
      decryptBlockOutcome, encrypt, decrypt, bind, Except.bind, pure, Except.pure]

theorem tickExec_progress (s : State) (i : Instr) (ht : s.TablesOk) (hp : s.Passed i) (hph : s.seq.phase = .exec)
    (h : usesKey i = true → ∃ size, keyConfig s.seq.ops = .ok size ∧
      ({ w := s.seq.stagedW, kt := s.seq.stagedKt } : ExpandAcc) =
        expand (buildTables s.traceEn) size (keyWords s.seq.ops size) ∧
      ∀ d, cipherDirection i = some d → s.CipherAt d size) : (tickExec i s).Progress := by
  have hout : s.outcome = outcomeOf i s := by simp [State.outcome, hp.1]
  unfold tickExec
  by_cases hu : usesKey i = true
  · obtain ⟨size, hs, hx, hcd⟩ := h hu
    have hxk : ({ w := s.seq.stagedW, kt := s.seq.stagedKt } : ExpandAcc) = expandedKey s size := by
      rw [hx, expandedKey, ensureTables_of_ok s ht]
    have hok := outcomeOf_keyCommand i s size hu hs hp.2
    rw [if_pos hu, hs]
    dsimp only
    cases hd : cipherDirection i with
    | none =>
      refine stageOutcome_progress s _ ht ?_
      rw [hout, hok, hd, hxk]
    | some d =>
      obtain ⟨hr, hacc⟩ := hcd d hd
      have hstep : cipherRound d (ensureTables s) size.nr s.seq.stagedW s.seq.rnd
          { s := s.seq.work, ct := s.seq.stagedCt, rrot := s.seq.stagedRrot } =
          cipherSteps d (buildTables s.traceEn) size.nr s.seq.stagedW (blockS s.seq.ops) (s.seq.rnd + 1) := by
        rw [hacc, cipherSteps_succ, ensureTables_of_ok s ht]
      dsimp only
      unfold tickCipher
      by_cases hlt : s.seq.rnd < size.nr
      · dsimp only
        rw [if_pos hlt]
        unfold State.Progress
        simp only [hph]
        refine ⟨i, hp, fun _ => ⟨size, hs, hx, ?_⟩⟩
        intro d' hd'
        rw [hd] at hd'
        cases hd'
        refine ⟨hlt, ?_⟩
        exact hstep
      · dsimp only
        rw [if_neg hlt]
        refine stageOutcome_progress s _ ht ?_
        have hrn : s.seq.rnd = size.nr := by omega
        rw [hout, hok, hd, hxk, hstep, hrn, ← hxk, ensureTables_of_ok s ht]
  · rw [if_neg hu]
    exact stageOutcome_progress s _ ht hout.symm

/-- A tick keeps the invariant. -/
theorem seqTick_wf (s : State) (h : s.Wf) : (seqTick s).Wf := by
  by_cases hc : s.seq.phase = .commit
  · have hst : s.seq.staged = s.outcome := by have := h.progress; unfold State.Progress at this; rwa [hc] at this
    have : seqTick s = commit s.outcome s := by unfold seqTick; rw [hc, ← hst]
    rw [this]
    refine commit_wf s _ h.tables h.sched h.traces ?_
    intro r hr
    unfold State.outcome at hr
    split at hr
    · exact outcomeOf_results_ok _ s r hr
    · cases hr
  · have hprog : (seqTick s).Progress := by
      have hp := h.progress
      unfold State.Progress at hp
      unfold seqTick
      cases hph : s.seq.phase with
      | idle => rw [hph] at hp; unfold State.Progress; rw [hph]; exact hp
      | check => exact tickCheck_progress s h.tables
      | commit => exact absurd hph hc
      | build =>
        rw [hph] at hp
        obtain ⟨i, hpass, hl, hk⟩ := hp
        dsimp only
        rw [hpass.1]
        exact tickBuild_progress i s hpass hl hk
      | expand =>
        rw [hph] at hp
        obtain ⟨i, size, hpass, hl, hu, hs, h1, h2, hx⟩ := hp
        exact tickExpandPhase_progress s i size h.tables hpass hl hu hs h1 h2 hx
      | exec =>
        rw [hph] at hp
        obtain ⟨i, hpass, hk⟩ := hp
        dsimp only
        rw [hpass.1]
        exact tickExec_progress s i h.tables hpass hph hk
    obtain ⟨q, hq, hstep⟩ := seqTick_seqStep s hc
    rw [hq] at hprog ⊢
    by_cases hb : s.busy = true
    · refine ⟨seqStep_tablesOk s q hstep h.tables, h.sched, h.traces, h.errorDone, fun _ => ?_, hprog⟩
      obtain ⟨f1, f2, f3, f4⟩ := h.inFlight hb
      exact ⟨f1, f2, f3.trans hstep.cur.symm, hstep.ops.trans f4⟩
    · have hi : s.seq.phase = .idle := (busy_eq_false_iff s).1 (by simpa using hb)
      have : seqTick s = s := by unfold seqTick; rw [hi]
      rw [← hq, this]
      exact h

end Sys2Proof.Laws
end

