-- ==== Sys2Proof/Laws/RunEnd.lean ====
section
/-! SUPPORT. The end of a run (spec/70_reset_and_hazards.md R364): each step uses up one event, so that no host access is
left at the end, and what the observation is made of. -/

namespace Sys2Proof.Laws

open Sys2Proof.Machine

/-! ## A step uses up one event -/

/-- A tick leaves the schedule. -/
@[simp] theorem seqTick_schedule (s : State) : (seqTick s).schedule = s.schedule := by
  by_cases h : s.seq.phase = .commit
  · simp [seqTick, h]
  · obtain ⟨q, hq, -⟩ := seqTick_seqStep s h
    rw [hq]

/-- A host write leaves the schedule. -/
@[simp] theorem hostWrite_schedule (a : Addr) (v : Word) (s : State) : (hostWrite a v s).schedule = s.schedule := by
  unfold hostWrite
  split
  · split <;> rfl
  · cases itemAt a <;> rfl

/-- Completing leaves the schedule. -/
theorem completeCommand_schedule (s t : State) (h : completeCommand s = .next t) : t.schedule = s.schedule := by
  rcases completeCommand_cases s t h with ⟨-, rfl⟩ | ⟨-, rfl⟩
  · exact commit_schedule _ _
  · rfl

/-- A step uses up the first event. -/
theorem step_schedule (s t : State) (h : step s = .next t) : t.schedule = s.schedule.tail := by
  rcases step_next_cases s t h with ⟨hs, hc⟩ | ⟨rest, hs, hc⟩ | ⟨a, rest, hs, rfl⟩ | ⟨a, v, rest, hs, rfl⟩ |
    ⟨rest, hs, rfl⟩ | ⟨rest, hs, rfl⟩
  · rw [completeCommand_schedule s t hc, hs]; rfl
  · rw [completeCommand_schedule _ t hc, hs]; rfl
  all_goals simp [hs]

/-- A run of `n` steps uses up the first `n` events. -/
theorem run_schedule (n : Nat) (s t : State) (h : core.run n s = .next t) : t.schedule = s.schedule.drop n := by
  induction n generalizing s with
  | zero => cases h; rfl
  | succ n ih =>
    cases hs : step s with
    | next u =>
      rw [run_succ n s u hs] at h
      rw [ih u h, step_schedule s u hs, List.drop_tail]
    | fault f => simp [Host.Core.run, core, hs] at h
    | refused r => simp [Host.Core.run, core, hs] at h

/-! ## The last access -/

/-- Nothing after the last access is one. -/
theorem not_access_after_last (l : List HostEvent) : ∀ e ∈ l.drop (throughLastAccess l), e.isAccess = false := by
  induction l with
  | nil => simp [throughLastAccess]
  | cons e l ih =>
    unfold throughLastAccess
    split
    · rename_i hn
      rw [hn] at ih
      split
      · exact ih
      · rename_i he
        simpa [he] using ih
    · rename_i n hn
      rw [hn] at ih
      exact ih

/-- The last event of a run is an access, unless there is none. -/
theorem last_is_access (l : List HostEvent) (n : Nat) (h : throughLastAccess l = n + 1) :
    ∃ e, l[n]? = some e ∧ e.isAccess = true := by
  induction l generalizing n with
  | nil => simp [throughLastAccess] at h
  | cons e l ih =>
    unfold throughLastAccess at h
    split at h
    · split at h
      · cases h; exact ⟨e, rfl, ‹_›⟩
      · cases h
    · rename_i m hm
      cases h
      exact ih m hm

/-- At the end of a run the host's accesses are over. -/
theorem runEnd_accessesOver (e : Bool) (l : List HostEvent) (s : State) (h : runEnd e l = .next s) :
    s.AccessesOver := by
  have hs := run_schedule _ _ s h
  rw [State.AccessesOver, hs]
  exact not_access_after_last l

/-! ## The observation -/

/-- A busy core draws at every address but those of `STATUS` and `CMD` (20_memory.md R88). -/
theorem readIsDraw_of_busy (s : State) (a : Addr) (h : s.busy = true) :
    readIsDraw s a = true ↔ a ≠ statusAddr ∧ a ≠ cmdAddr := by
  rw [ne_eq, ne_eq, ← itemAt_eq_status_iff, ← itemAt_eq_cmd_iff]
  simp only [readIsDraw, h]
  cases itemAt a <;> simp [definedWhileBusy]

/-- The observed addresses are those that are not reserved (20_memory.md R81). -/
theorem mem_mappedAddrs (a : Addr) : a ∈ mappedAddrs ↔ itemAt a ≠ .reserved := by
  simp only [mappedAddrs, List.mem_filter, List.mem_map, List.mem_range, decide_eq_true_eq]
  exact ⟨fun h => h.2, fun h => ⟨⟨a.toNat, a.isLt, by simp⟩, h⟩⟩

/-- Each address read gives a value. -/
theorem exists_mem_readEach (l : List Addr) (s : State) (a : Addr) (h : a ∈ l) : ∃ v, (a, v) ∈ readEach l s := by
  induction l generalizing s with
  | nil => cases h
  | cons b l ih =>
    rcases List.mem_cons.1 h with rfl | h
    · exact ⟨_, List.mem_cons_self⟩
    · obtain ⟨v, hv⟩ := ih (hostRead b s) h
      exact ⟨v, List.mem_cons_of_mem _ hv⟩

/-- Of an idle core the observation is the value at each address. -/
theorem readEach_of_idle (l : List Addr) (s : State) (h : s.busy = false) :
    readEach l s = l.map fun a => (a, memRead s a) := by
  induction l generalizing s with
  | nil => rfl
  | cons a l ih =>
    have hv : readValue s a = memRead s a := by simp [readValue, readIsDraw, h]
    rw [readEach, hv, ih (hostRead a s) h]
    rfl

/-- Of any core it is what a read gives, each draw with a counter of its own. -/
theorem mem_readEach (l : List Addr) (s : State) (p : Addr × Word) (h : p ∈ readEach l s) :
    p.1 ∈ l ∧ ∃ k, s.draws ≤ k ∧ p.2 = if readIsDraw s p.1 then Config.draw k else memRead s p.1 := by
  induction l generalizing s with
  | nil => cases h
  | cons a l ih =>
    rcases List.mem_cons.1 h with rfl | h
    · exact ⟨List.mem_cons_self, s.draws, le_rfl, rfl⟩
    · obtain ⟨hm, k, hk, hp⟩ := ih _ h
      refine ⟨List.mem_cons_of_mem a hm, k, le_trans ?_ hk, hp⟩
      simp only [hostRead]
      split <;> omega

end Sys2Proof.Laws
end

