-- ==== Sys2Proof/Laws/Ticks.lean ====
section
/-! SUPPORT. How many turns of the sequencer a command in flight still needs (spec/45_cipher_fsm.md R280, R297): every tick
takes at least one off, so a bounded number finishes it. -/

namespace Sys2Proof.Laws

open Sys2Proof.Machine

/-- The number of words of the expansion in flight, 0 when the key size is invalid. -/
def captureWords (o : Captured) : Nat :=
  match keyConfig o with
  | .ok size => size.words
  | .error _ => 0

/-- The number of rounds of the cipher in flight, 0 when the key size is invalid. -/
def captureNr (o : Captured) : Nat :=
  match keyConfig o with
  | .ok size => size.nr
  | .error _ => 0

/-- Turns still needed, at most: 52 words, 15 rounds, and one for each of CHECK, BUILD and COMMIT. -/
def ticksLeft (s : State) : Nat :=
  match s.seq.phase with
  | .idle => 0
  | .check => 70
  | .build => 69
  | .expand => captureWords s.seq.ops - s.seq.wi + 16
  | .exec =>
    match decode s.seq.cur with
    | .error _ => 2
    | .ok i => if (cipherDirection i).isSome then captureNr s.seq.ops - s.seq.rnd + 2 else 2
  | .commit => 1

theorem captureWords_of (o : Captured) (size : KeySize) (h : keyConfig o = .ok size) : captureWords o = size.words := by
  simp [captureWords, h]

theorem captureNr_of (o : Captured) (size : KeySize) (h : keyConfig o = .ok size) : captureNr o = size.nr := by
  simp [captureNr, h]

theorem size_bounds (size : KeySize) : size.words ≤ size.nk + 52 ∧ size.nr ≤ 14 := by cases size <;> decide

/-- A phase that a key command enters with its key words loaded needs at most 68 turns, and any other work phase 2. -/
theorem ticksLeft_work (s : State) (i : Instr) (hd : decode s.seq.cur = .ok i) (hph : s.seq.phase = workPhase i)
    (hk : usesKey i = true → ∃ size, keyConfig s.seq.ops = .ok size ∧ size.nk ≤ s.seq.wi) : ticksLeft s ≤ 68 := by
  unfold ticksLeft
  rw [hph]
  unfold workPhase
  by_cases hu : usesKey i = true
  · obtain ⟨size, hs, hw⟩ := hk hu
    have := (size_bounds size).1
    simp only [hu, if_true, captureWords_of _ _ hs]
    omega
  · have : cipherDirection i = none := by cases i <;> simp_all [usesKey, cipherDirection]
    simp [hu, hd, this]

/-- In a state of the invariant every turn takes at least one off. -/
theorem seqTick_ticksLeft (s : State) (h : s.Wf) (hb : s.busy = true) : ticksLeft (seqTick s) < ticksLeft s := by
  have hp := h.progress
  unfold State.Progress at hp
  have hstage : ∀ o, ticksLeft (stageOutcome o s) = 1 := fun o => rfl
  cases hph : s.seq.phase with
  | idle => exact absurd hph ((busy_eq_true_iff s).1 hb)
  | commit =>
    have h1 : ticksLeft s = 1 := by simp [ticksLeft, hph]
    have h2 : seqTick s = commit s.seq.staged s := by simp [seqTick, hph]
    rw [h1, h2]
    simp [ticksLeft, Sequencer.rest]
  | check =>
    have h1 : ticksLeft s = 70 := by simp [ticksLeft, hph]
    have h2 : seqTick s = tickCheck s := by simp [seqTick, hph]
    rw [h1, h2]
    unfold tickCheck
    cases hd : decode s.seq.cur with
    | error e => dsimp only; rw [hstage]; omega
    | ok i =>
      dsimp only
      cases hc : checkCommand i s.seq.ops with
      | error c => dsimp only; rw [hstage]; omega
      | ok u =>
        dsimp only
        by_cases hn : (needsTables i && !s.seq.ops.tablesReady) = true
        · have : ticksLeft (startWork i s) = 69 := by
            have hf : (startWork i s).seq.phase = .build := by simp only [startWork, firstPhase, hn, if_true]
            unfold ticksLeft
            rw [hf]
          omega
        · have : ticksLeft (startWork i s) ≤ 68 := by
            refine ticksLeft_work _ i hd ?_ ?_
            · simp only [startWork, firstPhase, hn]; rfl
            · intro hu
              obtain ⟨size, hs⟩ := usesKey_keyConfig i _ hu hc
              exact ⟨size, hs, (captureNk_of _ _ hs).ge⟩
          omega
  | build =>
    rw [hph] at hp
    obtain ⟨i, hpass, -, hk⟩ := hp
    have h1 : ticksLeft s = 69 := by simp [ticksLeft, hph]
    have h2 : seqTick s = tickBuild i s := by simp [seqTick, hph, hpass.1]
    have : ticksLeft (tickBuild i s) ≤ 68 := by
      refine ticksLeft_work _ i hpass.1 rfl ?_
      intro hu
      obtain ⟨size, hs, hw, -⟩ := hk hu
      exact ⟨size, hs, hw.ge⟩
    rw [h1, h2]
    omega
  | expand =>
    rw [hph] at hp
    obtain ⟨i, size, hpass, hl, hu, hs, h1, h2, -⟩ := hp
    have hls : ticksLeft s = size.words - s.seq.wi + 16 := by
      simp [ticksLeft, hph, captureWords_of _ _ hs]
    have hst : seqTick s = tickExpand size s := by simp [seqTick, hph, tickExpandPhase, hs]
    rw [hls, hst]
    by_cases hlast : s.seq.wi + 1 = size.words
    · have hph' : (tickExpand size s).seq.phase = .exec := by simp [tickExpand, hlast]
      have hnr := (size_bounds size).2
      unfold ticksLeft
      rw [hph']
      change (match decode s.seq.cur with | .error _ => 2 | .ok i => if (cipherDirection i).isSome then captureNr s.seq.ops - s.seq.rnd + 2 else 2) < _
      rw [hpass.1, captureNr_of _ _ hs]
      have hle : size.nr - s.seq.rnd + 2 ≤ 16 := by omega
      have hlt : 17 ≤ size.words - s.seq.wi + 16 := by omega
      dsimp only
      split
      · exact lt_of_lt_of_le (Nat.lt_succ_of_le hle) hlt
      · exact lt_of_lt_of_le (by decide) hlt
    · have hph' : (tickExpand size s).seq.phase = .expand := by simp [tickExpand, hlast]
      have hw : (tickExpand size s).seq.wi = s.seq.wi + 1 := by simp [tickExpand, hlast]
      unfold ticksLeft
      rw [hph', hw]
      change captureWords s.seq.ops - _ + 16 < _
      rw [captureWords_of _ _ hs]
      omega
  | exec =>
    rw [hph] at hp
    obtain ⟨i, hpass, hk⟩ := hp
    have hls : ticksLeft s = if (cipherDirection i).isSome then captureNr s.seq.ops - s.seq.rnd + 2 else 2 := by
      simp [ticksLeft, hph, hpass.1]
    have hge : 2 ≤ ticksLeft s := by rw [hls]; split <;> omega
    have hst : seqTick s = tickExec i s := by simp [seqTick, hph, hpass.1]
    rw [hst]
    unfold tickExec
    by_cases hu : usesKey i = true
    · obtain ⟨size, hs, -, hcd⟩ := hk hu
      rw [if_pos hu, hs]
      dsimp only
      cases hd : cipherDirection i with
      | none => exact lt_of_lt_of_le (Nat.lt_succ_self 1) hge
      | some d =>
        obtain ⟨hr, -⟩ := hcd d hd
        dsimp only
        unfold tickCipher
        dsimp only
        split
        · rename_i hlt
          rw [hls, hd]
          unfold ticksLeft
          simp only [hph, hpass.1, hd, Option.isSome_some, if_true, captureNr_of _ _ hs]
          omega
        · rw [hstage]; omega
    · rw [if_neg hu, hstage]; omega

/-- No command in flight needs more than 70 turns. -/
theorem ticksLeft_le (s : State) (h : s.Wf) : ticksLeft s ≤ 70 := by
  have hp := h.progress
  unfold State.Progress at hp
  cases hph : s.seq.phase with
  | idle => simp [ticksLeft, hph]
  | check => simp [ticksLeft, hph]
  | build => simp [ticksLeft, hph]
  | commit => simp [ticksLeft, hph]
  | expand =>
    rw [hph] at hp
    obtain ⟨i, size, -, -, -, hs, h1, h2, -⟩ := hp
    have := (size_bounds size).1
    simp only [ticksLeft, hph, captureWords_of _ _ hs]
    omega
  | exec =>
    rw [hph] at hp
    obtain ⟨i, hpass, hk⟩ := hp
    have hn : captureNr s.seq.ops ≤ 14 := by
      unfold captureNr
      split
      · exact (size_bounds _).2
      · omega
    simp only [ticksLeft, hph, hpass.1]
    split <;> omega

end Sys2Proof.Laws
end

