-- ==== Sys2Proof/Tests/Slice0.lean ====
section
/-! SUPPORT. The model's own tests: well-formedness, the command words written out from 30_encoding.md R110 and R116, at
most two runs per command with the results that spec/95_test_vectors.md or the command's rule gives, and a witness for
every obligation that has hypotheses. -/

namespace Sys2Proof.Tests

open Sys2Proof.Machine

/-! ## Well-formedness and encoding -/

/-- RIDX is a 4-bit field (R113). -/
theorem test_wellFormed_refuses_ridx_16 : (Instr.addRoundKey 16).wellFormed = false := by decide

theorem test_wellFormed_takes_ridx_15 : (Instr.addRoundKey 15).wellFormed = true := by decide

/-- R116, written out as [31:20] [19:16] [15:9] [8] [7:0]. -/
theorem test_decode_control_words :
    decode 0b000000000000_0000_0000000_0_00000000 = .ok .nop ∧
    decode 0b000000000000_0000_0000000_0_00000001 = .ok .buildTables := by decide

theorem test_decode_byte_words :
    decode 0b000000000000_0000_0000000_0_00010000 = .ok .gfAdd ∧
    decode 0b000000000000_0000_0000000_0_00010001 = .ok .gfXtime ∧
    decode 0b000000000000_0000_0000000_0_00010010 = .ok .gfMulLong ∧
    decode 0b000000000000_0000_0000000_0_00010011 = .ok .gfMul ∧
    decode 0b000000000000_0000_0000000_0_00010100 = .ok .gfInv ∧
    decode 0b000000000000_0000_0000000_0_00010101 = .ok .gfAffine ∧
    decode 0b000000000000_0000_0000000_0_00010110 = .ok .sboxLookup ∧
    decode 0b000000000000_0000_0000000_0_00010111 = .ok .invSboxLookup := by decide

theorem test_decode_key_words :
    decode 0b000000000000_0000_0000000_0_00100000 = .ok .rotWord ∧
    decode 0b000000000000_0000_0000000_0_00100001 = .ok .subWord ∧
    decode 0b000000000000_0000_0000000_0_00100010 = .ok .expandKey := by decide

theorem test_decode_state_words :
    decode 0b000000000000_0000_0000000_0_00110000 = .ok .subBytes ∧
    decode 0b000000000000_0000_0000000_1_00110000 = .ok .invSubBytes ∧
    decode 0b000000000000_0000_0000000_0_00110001 = .ok .shiftRows ∧
    decode 0b000000000000_0000_0000000_1_00110001 = .ok .invShiftRows ∧
    decode 0b000000000000_0000_0000000_0_00110010 = .ok .mixColumns ∧
    decode 0b000000000000_0000_0000000_1_00110010 = .ok .invMixColumns ∧
    decode 0b000000000000_0011_0000000_0_00110011 = .ok (.addRoundKey 3) ∧
    decode 0b000000000000_1111_0000000_0_00110011 = .ok (.addRoundKey 15) := by decide

theorem test_decode_cipher_words :
    decode 0b000000000000_0000_0000000_0_01000000 = .ok .encryptBlock ∧
    decode 0b000000000000_0000_0000000_0_01000001 = .ok .decryptBlock := by decide

/-- One word for each ground of R117. -/
theorem test_decode_refuses_by_name :
    decode 0b000000000000_0000_0000000_0_01000010 = .error .unassignedOp ∧
    decode 0b000000000000_0000_0000000_0_00001111 = .error .unassignedOp ∧
    decode 0b000000000000_0000_0000000_1_00000000 = .error .invNotAllowed ∧
    decode 0b000000000000_0011_0000000_1_00110011 = .error .invNotAllowed ∧
    decode 0b000000000000_0001_0000000_0_00110000 = .error .ridxNotAllowed ∧
    decode 0b000000000000_0000_0000001_0_00000000 = .error .reservedBits ∧
    decode 0b100000000000_0000_0000000_0_01000000 = .error .reservedBits := by decide

theorem test_decodeTableWord_reads_the_word : decodeTableWord 32 0x000A0033 = some (.addRoundKey 10) := by decide

/-! ## Runs of one command -/

/-- The state a step answers. -/
def after (o : Host.Outcome State Fault Refusal) : State :=
  match o with
  | .next s => s
  | .fault _ => State.reset
  | .refused _ => State.reset

/-- One step on a state in which the word `w` has just been accepted. -/
def ran (w : Nat) (s : State) : State := after (step (s.withFetchWord 32 w))

/-- The reset state with OPA and OPB. -/
def operands (a b : Word) : State := { State.reset with opa := a, opb := b }

/-- The reset state with a block in `STATE0`..`STATE3`. -/
def block (a b c d : Word) : State := { State.reset with stateReg := #v[a, b, c, d] }

/-- `s` with the AES-128 key of the source's known answer. -/
def keyed (s : State) : State :=
  { s with keyReg := #v[0x2B7E1516, 0x28AED2A6, 0xABF71588, 0x09CF4F3C, 0, 0, 0, 0] }

/-- Three words of a schedule that begins with that key. -/
def someSchedule : Schedule :=
  { size := .aes128, words := [0x2B7E1516, 0x28AED2A6, 0xABF71588, 0x09CF4F3C] ++ List.replicate 40 0 }

/-- R149's example; the high bits of the operands are ignored. -/
theorem test_gfAdd : (ran 0x10 (operands 0x12345657 0xABCDEF83)).res = 0x000000D4 := by decide

/-- R150's corner case: only the reduction. -/
theorem test_gfXtime : (ran 0x11 (operands 0x80 0)).res = 0x0000001B := by decide

/-- R151's example. -/
theorem test_gfMulLong : (ran 0x12 (operands 0x57 0x83)).res = 0x000000C1 := by decide

/-- R177's example. -/
theorem test_gfAffine : (ran 0x15 (operands 0xCA 0)).res = 0x000000ED := by decide

/-- R208's examples. -/
theorem test_rotWord :
    (ran 0x20 (operands 0x01020304 0)).res = 0x02030401 ∧ (ran 0x20 (operands 0x000000FF 0)).res = 0x0000FF00 := by
  decide

/-- One run of each command that reads the tables, in one theorem so that the kernel builds the tables once: R152's and
R153's examples, inverting 0, R178's, R209's, R235's, R264's and R265's examples, word 4 of the source's known answer with
its `STATUS` (R210), R176's SBOX[0], and the forward images of R236's result. -/
theorem test_table_commands :
    tableAt (buildTables true).sbox 0x53 = 0xED ∧
    subBytes (buildTables true) false (Block.ofRegs #v[0x52096AD5, 0x3036A538, 0xBF40A39E, 0x81F3D7FB]) =
      Block.ofRegs #v[0x00010203, 0x04050607, 0x08090A0B, 0x0C0D0E0F] ∧
    (ran 0x13 (operands 0x57 0x13)).res = 0x000000FE ∧
    (ran 0x14 (operands 0x53 0)).res = 0x000000CA ∧
    (ran 0x14 (operands 0 0)).res = 0 ∧ (ran 0x14 (operands 0 0)).error = none ∧
    (ran 0x16 (operands 0x53 0)).res = 0x000000ED ∧
    (ran 0x21 (operands 0xCF4F3C09 0)).res = 0x8A84EB01 ∧
    (ran 0x30 (block 0x00010203 0x04050607 0x08090A0B 0x0C0D0E0F)).stateReg =
      #v[0x637C777B, 0xF26B6FC5, 0x3001672B, 0xFED7AB76] ∧
    (ran 0x32 (block 0xD4BF5D30 0xE0B452AE 0xB84111F1 0x1E2798E5)).stateReg =
      #v[0x046681E5, 0xE0CB199A, 0x48F8D37A, 0x2806264C] ∧
    (ran 0x132 (block 0x046681E5 0xE0CB199A 0x48F8D37A 0x2806264C)).stateReg =
      #v[0xD4BF5D30, 0xE0B452AE, 0xB84111F1, 0x1E2798E5] ∧
    memRead (ran 0x22 (keyed State.reset)) (0x0110 / 4) = 0xA0FAFE17 ∧
    statusWord (ran 0x22 (keyed State.reset)) = 0x8A040302 ∧
    memRead (ran 0x01 State.reset) (0x0400 / 4) = 0x00000063 := by decide +kernel

/-- R179's example, from R178's by the inverse law of the tables. -/
theorem test_invSboxLookup : (ran 0x17 (operands 0xED 0)).res = 0x00000053 := by
  have h := test_table_commands.1
  have hi := Laws.invSbox_sbox true 0x53
  rw [h] at hi
  change zext (tableAt (buildTables true).invSbox 0xED) = 0x00000053
  rw [hi]
  rfl

/-- R236's example, from the forward images by the inverse law. -/
theorem test_invSubBytes : (ran 0x130 (block 0x00010203 0x04050607 0x08090A0B 0x0C0D0E0F)).stateReg =
    #v[0x52096AD5, 0x3036A538, 0xBF40A39E, 0x81F3D7FB] := by
  have h := test_table_commands.2.1
  have hi := Laws.subBytes_inverse true false (Block.ofRegs #v[0x52096AD5, 0x3036A538, 0xBF40A39E, 0x81F3D7FB])
  rw [h] at hi
  change (subBytes (buildTables true) true (Block.ofRegs #v[0x00010203, 0x04050607, 0x08090A0B, 0x0C0D0E0F])).toRegs = _
  exact (congrArg Block.toRegs hi).trans (Laws.toRegs_ofRegs _)

/-- R296's example: NOP sets DONE. -/
theorem test_nop : statusWord (ran 0x00 State.reset) = 0x80000002 := by decide

/-- R237's example: the state. -/
theorem test_shiftRows : (ran 0x31 (block 0x6353E08C 0x0960E104 0xCD70B751 0xBACAD0E7)).stateReg =
    #v[0x6360B7E7, 0x0970D08C, 0xCDCAE004, 0xBA53E151] := by decide

/-- R237's example: COUNT and the second snapshot of row 3, through the window. -/
theorem test_shiftRows_trace :
    memRead (ran 0x31 (block 0x6353E08C 0x0960E104 0xCD70B751 0xBACAD0E7)) (0x0230 / 4) = 3 ∧
    memRead (ran 0x31 (block 0x6353E08C 0x0960E104 0xCD70B751 0xBACAD0E7)) (0x0238 / 4) = 0x51E78C04 := by
  decide

/-- R238's example: the state, and SNAP1 of row 1. -/
theorem test_invShiftRows :
    (ran 0x131 (block 0x6360B7E7 0x0970D08C 0xCDCAE004 0xBA53E151)).stateReg =
      #v[0x6353E08C, 0x0960E104, 0xCD70B751, 0xBACAD0E7] ∧
    memRead (ran 0x131 (block 0x6360B7E7 0x0970D08C 0xCDCAE004 0xBA53E151)) (0x0214 / 4) = 0x70CA5360 := by
  decide

/-- R239's example: round key 0 is the key. -/
theorem test_addRoundKey :
    (ran 0x33 { block 0x3243F6A8 0x885A308D 0x313198A2 0xE0370734 with sched := some someSchedule }).stateReg =
      #v[0x193DE3BE, 0xA0F4E22B, 0x9AC68D2A, 0xE9F84808] := by decide

/-- R239: r = NR + 1 fails with code 4 and leaves the state. -/
theorem test_addRoundKey_unavailable :
    (ran 0xB0033 { State.reset with sched := some someSchedule }).errCode = 4 ∧
      (ran 0xB0033 { State.reset with sched := some someSchedule }).stateReg = State.reset.stateReg := by decide

/-- R288's example. -/
theorem test_encryptBlock :
    (ran 0x40 (keyed (block 0x3243F6A8 0x885A308D 0x313198A2 0xE0370734))).stateReg =
      #v[0x3925841D, 0x02DC09FB, 0xDC118597, 0x196A0B32] := by decide +kernel

/-- R327's example: KEYLEN = 20 and BLKLEN = 8 report InvalidKeySize. -/
theorem test_encryptBlock_priority :
    statusWord (ran 0x40 { State.reset with keylen := 20, blklen := 8 }) = 0x80000016 := by decide

/-- The words of that key. -/
def keyedWords : List Quad :=
  (expand (buildTables true) .aes128 (keyWords (capture (keyed State.reset)) .aes128)).w

/-- R293's example, from R288's by the round trip of the rounds. -/
theorem test_decryptBlock :
    (ran 0x41 (keyed (block 0x3925841D 0x02DC09FB 0xDC118597 0x196A0B32))).stateReg =
      #v[0x3243F6A8, 0x885A308D, 0x313198A2, 0xE0370734] := by
  have he : (encrypt (buildTables true) 10 keyedWords
      (Block.ofRegs #v[0x3243F6A8, 0x885A308D, 0x313198A2, 0xE0370734])).s.toRegs =
        #v[0x3925841D, 0x02DC09FB, 0xDC118597, 0x196A0B32] := test_encryptBlock
  change (decrypt (buildTables true) 10 keyedWords
    (Block.ofRegs #v[0x3925841D, 0x02DC09FB, 0xDC118597, 0x196A0B32])).s.toRegs = _
  rw [← he, Laws.ofRegs_toRegs, Laws.decrypt_encrypt true 10 _ _ (by decide)]
  exact Laws.toRegs_ofRegs _

/-- R292, R293: `CT_INFO` of entry 0 and the COUNT of row 1 after DECRYPT_BLOCK. -/
theorem test_decryptBlock_trace :
    memRead (ran 0x41 (keyed State.reset)) (BitVec.ofNat 13 (0x2000 / 4)) = 0x00000A37 ∧
      memRead (ran 0x41 (keyed State.reset)) (0x0210 / 4) = 3 := by decide +kernel

/-! ## The port -/

/-- An illegal word completes with code 3 (R324). -/
theorem test_illegal_word : statusWord (ran 0x42 State.reset) = 0x80000036 ∧ (ran 0x42 State.reset).cmd = 0x42 := by
  decide

/-- The machine goes on from a write while busy with the mark set (R356, R360). -/
theorem test_write_while_busy_goes_on :
    (after (step { accept 0x00 State.reset with schedule := [.write cmdAddr 0x40] })).faulted =
      some .hostWriteWhileBusy ∧
    (after (step { accept 0x00 State.reset with schedule := [.write cmdAddr 0x40] })).cmd = 0x00 := by decide

/-- `STATUS` reads BUSY while a command is in flight (R358). -/
theorem test_status_read_while_busy :
    (after (step { accept 0x00 State.reset with schedule := [.read statusAddr] })).lastRead =
      some (statusAddr, 0x80000001) := by decide

/-- The two strobes in one cycle are refused (I18). -/
theorem test_read_write_is_refused :
    step { State.reset with schedule := [.readWrite cmdAddr 0] } = .refused .portProtocol := rfl

/-- R364: a program that waits ends idle; one that does not ends busy, even if the command completes after its last
access. -/
theorem test_run_ends_after_the_last_access :
    (after (runEnd true (programEvents [.run .nop 1]))).busy = false ∧
    (after (runEnd true [.write cmdAddr 0, .complete])).busy = true ∧
    (after (runEnd true [.write cmdAddr 0, .complete, .read statusAddr, .tick, .reset])).done = true := by decide

/-! ## Witnesses of the obligations' hypotheses -/

/-- The reset state with a command word just accepted. -/
def busyWith (w : Word) : State := accept w State.reset

/-- No tables, staged or built, are tables as built. -/
theorem tablesOk_of_none (s : State) (h : s.tables = none) (hs : s.seq.stagedTables = none) : s.TablesOk := by
  simp [State.TablesOk, h, hs]

theorem reset_tablesOk : State.reset.TablesOk := tablesOk_of_none _ rfl rfl

theorem busyWith_tablesOk (w : Word) : (busyWith w).TablesOk := tablesOk_of_none _ rfl rfl

/-- A state without traces meets the rule for traces. -/
theorem tracesOk_of_none (s : State) (hk : s.kt = []) (hc : s.ct = none) (hr : s.rrot = none) : s.TracesOk := by
  simp [State.TracesOk, hk, hc, hr]

/-- A busy state of the invariant, with any schedule. -/
theorem busyWith_wf (w : Word) (l : List HostEvent) : ({ busyWith w with schedule := l } : State).Wf where
  tables := tablesOk_of_none _ rfl rfl
  sched := by simp [busyWith, accept, State.reset]
  traces := tracesOk_of_none _ rfl rfl rfl
  errorDone := by simp [busyWith, accept]
  inFlight _ := ⟨rfl, rfl, rfl, rfl⟩
  progress := trivial

theorem witness_DecodeEncodeRoundTrip : (Instr.addRoundKey 15).wellFormed = true := by decide

theorem witness_IllegalWordCompletesWithIllegalCommand :
    State.reset.busy = false ∧ decode 0xFFFFFFFF = .error .reservedBits := by decide

theorem witness_CommandWriteIsAcceptedWhileIdle : State.reset.busy = false ∧ (busyWith 0).busy = true := by decide

/-- A legal word (0x41) and an illegal one (0x42) in flight, and an idle core, with nothing scheduled and at `complete`. -/
theorem witness_StepRunsTheDecodedCommand :
    (∀ w ∈ [0x41, 0x42], (busyWith w).schedule = [] ∧ (busyWith w).busy = true ∧
      ({ busyWith w with schedule := [.complete] } : State).schedule = .complete :: [] ∧
      ({ busyWith w with schedule := [.complete] } : State).busy = true) ∧
    decode (busyWith 0x41).seq.cur = .ok .decryptBlock ∧ decode (busyWith 0x42).seq.cur = .error .unassignedOp ∧
    (Instr.addRoundKey 15).wellFormed = true ∧ State.reset.schedule = [] ∧ State.reset.busy = false ∧
    (∀ l ∈ [[.complete], [.read statusAddr], [.write cmdAddr 0], [.tick]],
      ({ State.reset with schedule := l } : State).schedule = l ∧
        ({ State.reset with schedule := l } : State).busy = false) :=
  ⟨fun _ _ => ⟨rfl, rfl, rfl, rfl⟩, by decide, by decide, by decide, rfl, rfl, fun _ _ => ⟨rfl, rfl⟩⟩

theorem witness_NoResultIsVisibleBeforeCommit : (busyWith 0x40).seq.phase ≠ .commit := by decide

/-- Each case of the chain: an illegal word, a key error, a block error, a round-key error, and success. -/
theorem witness_FirstFailingCheckIsReported :
    decode (busyWith 0xFF).seq.cur = .error .unassignedOp ∧
    (decode (accept 0x40 { State.reset with keylen := 0, blklen := 0 }).seq.cur = .ok .encryptBlock ∧
      (accept 0x40 { State.reset with keylen := 0 }).seq.ops.keylen = 0) ∧
    (decode (accept 0x000F0033 { State.reset with blklen := 17 }).seq.cur = .ok (.addRoundKey 15) ∧
      (accept 0x000F0033 { State.reset with blklen := 17 }).seq.ops.blklen ≠ 16) ∧
    (decode (busyWith 0x33).seq.cur = .ok (.addRoundKey 0) ∧ (busyWith 0x33).seq.ops.sched = none) ∧
    decode (busyWith 0x00).seq.cur = .ok .nop := by decide

/-- KEYLEN 15, 17 and a value with a high bit set; BLKLEN 15 and 17; r one above NR, and no schedule at all. -/
theorem witness_FailedChecksCompleteWithTheirCode :
    (∀ k ∈ [0, 15, 17, 0x80000010], (accept 0x22 { State.reset with keylen := BitVec.ofNat 32 k }).seq.ops.keylen ≠ 16 ∧
      (accept 0x22 { State.reset with keylen := BitVec.ofNat 32 k }).seq.ops.keylen ≠ 24 ∧
      (accept 0x22 { State.reset with keylen := BitVec.ofNat 32 k }).seq.ops.keylen ≠ 32) ∧
    (∀ k ∈ [15, 17], (accept 0x30 { State.reset with blklen := BitVec.ofNat 32 k }).seq.ops.blklen ≠ 16) ∧
    ((accept 0x40 { State.reset with blklen := 17, keylen := 32 }).seq.ops.keylen = 32 ∧
      (accept 0x40 { State.reset with blklen := 17, keylen := 32 }).seq.ops.blklen ≠ 16) ∧
    (busyWith 0x33).seq.ops.blklen = 16 ∧ (busyWith 0x33).seq.ops.sched = none ∧ someSchedule.size.nr < 11 := by decide

theorem witness_SeventyTicksCompleteTheCommand :
    ∃ s : State, s.Wf ∧ s.busy = true ∧ s.schedule = List.replicate 70 .tick ++ [] :=
  ⟨{ busyWith 0x40 with schedule := List.replicate 70 .tick ++ [] }, busyWith_wf _ _, rfl, rfl⟩

/-- An idle core at the expansion of each pseudo-instruction, `ldkey` in its three sizes, and both answers of `check`. -/
theorem witness_RunPseudoInstructionRunsItsCommand :
    (Instr.addRoundKey 15).wellFormed = true ∧
    (∀ l ∈ [AsmLine.run (.addRoundKey 15) 2, .ldkey .aes128 (Vector.replicate 8 zeroQuad),
      .ldkey .aes192 (Vector.replicate 8 zeroQuad), .ldkey .aes256 (Vector.replicate 8 zeroQuad), .ldblk zeroBlock, .rdblk,
      .check],
      ({ State.reset with schedule := l.expand ++ [.reset] } : State).busy = false ∧
        ({ State.reset with schedule := l.expand ++ [.reset] } : State).schedule = l.expand ++ [.reset]) ∧
    State.reset.error = none ∧
    ({ State.reset with error := some .invalidKeySize } : State).error ≠ none ∧
    ({ State.reset with error := some .invalidKeySize } : State).busy = false := by decide

/-- R122's row of `ldkey` for a 48-digit key: `KEYLEN` = 0x18 first, `KEY5` last. -/
theorem test_ldkey_expand :
    (AsmLine.ldkey .aes192 (Vector.replicate 8 ⟨0x01, 0x02, 0x03, 0x04⟩)).expand.head? = some (.write (0x0008 / 4) 0x18) ∧
    (AsmLine.ldkey .aes192 (Vector.replicate 8 ⟨0x01, 0x02, 0x03, 0x04⟩)).expand.getLast? =
      some (.write (0x0034 / 4) 0x01020304) ∧
    (AsmLine.ldkey .aes192 (Vector.replicate 8 ⟨0x01, 0x02, 0x03, 0x04⟩)).expand.length = 7 := by decide

/-- The first and the last address of each reserved range, and the addresses beside them, which are not reserved. -/
theorem witness_RegistersReadAtTheirOffsets :
    (∀ n ∈ [0x0050, 0x00FC, 0x01F0, 0x01FC, 0x0240, 0x03FC, 0x1400, 0x1FFC, 0x2800, 0x2FFC, 0x3680, 0x3FFC, 0x6000,
      0x7FFC], itemAt (BitVec.ofNat 13 (n / 4)) = .reserved) ∧
    (∀ n ∈ [0x004C, 0x0100, 0x01EC, 0x0200, 0x023C, 0x0400, 0x13FC, 0x2000, 0x27FC, 0x3000, 0x367C, 0x4000, 0x5FFC],
      itemAt (BitVec.ofNat 13 (n / 4)) ≠ .reserved) := by decide

theorem witness_StatusAndTraceInfoFields :
    ({ State.reset with traceEn := false } : State).traceEn = false ∧ State.reset.traceEn = true ∧
      State.reset.sched = none ∧ ({ State.reset with sched := some someSchedule } : State).sched = some someSchedule := by
  decide

/-- The first and the last of the operand registers. -/
theorem witness_OperandWriteReadsBack :
    State.reset.busy = false ∧ ∀ n ∈ [0x0008, 0x0014, 0x0020, 0x003C, 0x0040, 0x004C],
      (itemAt (BitVec.ofNat 13 (n / 4))).writable = true ∧ BitVec.ofNat 13 (n / 4) ≠ cmdAddr := by decide

/-- The addresses just outside the RW ranges. -/
theorem witness_ReadOnlyWriteHasNoEffect : ∀ n ∈ [0x0004, 0x0018, 0x001C, 0x0050, 0x7FFC],
    ¬ (n = 0 ∨ (0x0008 ≤ n ∧ n ≤ 0x0014) ∨ (0x0020 ≤ n ∧ n ≤ 0x004C)) := by decide

/-- Both ends of each RW range. -/
theorem witness_WriteWhileBusyOnlySetsTheFaultMark :
    (busyWith 0).busy = true ∧ ∀ n ∈ [0x0000, 0x0008, 0x0014, 0x0020, 0x004C],
      n = 0 ∨ (0x0008 ≤ n ∧ n ≤ 0x0014) ∨ (0x0020 ≤ n ∧ n ≤ 0x004C) := by decide

/-- A mark that is kept over reset, one that a write while busy sets, a run that it spoils, and a good run. -/
theorem witness_FaultMarkIsSticky :
    (∃ t, step { State.reset with faulted := some .hostWriteWhileBusy, schedule := [.reset] } = .next t) ∧
    (∃ t, step { busyWith 0 with schedule := [.write cmdAddr 0] } = .next t ∧ (busyWith 0).faulted = none ∧
      t.faulted ≠ none) ∧
    (∃ s, 2 ≤ throughLastAccess [.write cmdAddr 0, .write cmdAddr 0, .reset, .read statusAddr] ∧
      core.run 2 (State.start true [.write cmdAddr 0, .write cmdAddr 0, .reset, .read statusAddr]) = .next s ∧
      s.faulted ≠ none) ∧
    (∃ s, core.run (throughLastAccess [.write keylenAddr 0]) (State.start true [.write keylenAddr 0]) = .next s ∧
      s.busy = false ∧ s.faulted = none) ∧
    throughLastAccess [.read statusAddr, .tick] = 0 + 1 :=
  ⟨⟨_, rfl⟩, ⟨_, rfl, rfl, by decide⟩, ⟨_, by decide, rfl, by decide⟩, ⟨_, rfl, rfl, rfl⟩, rfl⟩

/-- `STATUS`, `CMD` and an address that draws are observed, idle and busy. -/
theorem witness_observation (s : State) (a : Addr) (h : a ∈ [statusAddr, cmdAddr, resAddr]) :
    ∃ v, (a, v) ∈ s.observe :=
  Laws.exists_mem_readEach _ _ _ ((Laws.mem_mappedAddrs a).2 (by revert a; decide))

theorem witness_HostReadsHaveNoSideEffect :
    State.reset.busy = false ∧ ∃ s : State, s.Wf ∧ s.busy = true ∧ statusAddr ≠ cmdAddr :=
  ⟨rfl, busyWith 0x40, busyWith_wf 0x40 [], rfl, by decide⟩

/-- A reset scheduled while a command is in flight. -/
theorem witness_ResetGivesTheResetValues :
    ({ busyWith 0x40 with schedule := [.reset, .complete] } : State).schedule = .reset :: [.complete] ∧
      ({ busyWith 0x40 with schedule := [.reset, .complete] } : State).busy = true := by decide

theorem witness_EveryStepKeepsTheInvariant : ∃ s t : State, s.Wf ∧ step s = .next t :=
  ⟨{ busyWith 0x40 with schedule := [.tick] }, _, busyWith_wf 0x40 [.tick], rfl⟩

theorem witness_BuiltTablesNeverChange :
    (∃ t, step { State.reset with tables := some (buildTables true), sched := some someSchedule } = .next t ∧
      ∀ rest, State.reset.schedule ≠ .reset :: rest) ∧
    ∃ s : State, s.Wf ∧ s.tables = some (buildTables s.traceEn) := by
  refine ⟨⟨_, rfl, by simp [State.reset]⟩, { State.reset with tables := some (buildTables State.reset.traceEn) }, ?_, rfl⟩
  exact
    { tables := by simp [State.TablesOk, State.reset, Sequencer.rest]
      sched := by simp [State.reset]
      traces := tracesOk_of_none _ rfl rfl rfl
      errorDone := by simp [State.reset]
      inFlight := by simp [State.reset, State.busy, Sequencer.rest]
      progress := rfl }

theorem witness_PrimitivesWriteOnlyTheirResults : ∃ t, exec .gfAdd State.reset = .next t := ⟨_, rfl⟩

theorem witness_StateCommandsWriteOnlyTheirResults :
    (∃ t, exec .subBytes State.reset = .next t) ∧ (∃ t, exec (.addRoundKey 0) State.reset = .next t) ∧
      ({ State.reset with traceEn := false } : State).traceEn = false := ⟨⟨_, rfl⟩, ⟨_, rfl⟩, rfl⟩

theorem witness_KeyCommandsWriteOnlyTheirResults :
    (∃ t, exec .expandKey State.reset = .next t) ∧ ({ State.reset with traceEn := false } : State).traceEn = false :=
  ⟨⟨_, rfl⟩, rfl⟩

/-- For GfMulResult, GfInvResult, BuildTablesAndNopResults, SboxLookupResults and SubWordResult, whose only hypothesis on
the state is `TablesOk`; and both cases of GfInvResult; and FieldLaws' `a ≠ 0`. -/
theorem witness_table_results :
    (busyWith 0x13).TablesOk ∧ (busyWith 0x13).seq.ops.opa.extractLsb' 0 8 = 0 ∧
    (accept 0x13 (operands 0xFF 0)).seq.ops.opa.extractLsb' 0 8 ≠ 0 ∧ (0 : Byte) ≠ 1 :=
  ⟨busyWith_tablesOk _, rfl, by decide, by decide⟩

theorem witness_BuildTablesAndNopResults :
    State.reset.busy = false ∧ ({ State.reset with tables := some (buildTables true) } : State).tables ≠ none :=
  ⟨rfl, Option.some_ne_none _⟩

/-- The first and the last word of each key size, and the three cases of the recurrence. -/
theorem witness_ExpansionRecurrence :
    (∀ size ∈ [KeySize.aes128, .aes192, .aes256], (List.replicate size.nk zeroQuad).length = size.nk ∧
      size.nk ≤ 4 * (size.nr + 1) - 1) ∧
    40 % KeySize.aes128.nk = 0 ∧ (KeySize.aes256.nk = 8 ∧ 12 % 8 = 4 ∧ 12 % KeySize.aes256.nk ≠ 0) ∧
    (¬ (KeySize.aes192.nk = 8 ∧ 10 % 8 = 4) ∧ 10 % KeySize.aes192.nk ≠ 0) := by decide

theorem witness_KeyTraceEntries :
    (List.replicate KeySize.aes256.nk zeroQuad).length = KeySize.aes256.nk ∧ KeySize.aes256.nk ≤ 59 ∧
      59 < 4 * (KeySize.aes256.nr + 1) := by decide

theorem witness_ExpandKeyResult :
    (busyWith 0x22).TablesOk ∧ (busyWith 0x22).seq.ops.keylen = BitVec.ofNat 32 (4 * KeySize.aes128.nk) ∧
    (accept 0x22 { State.reset with keylen := 32 }).seq.ops.keylen = BitVec.ofNat 32 (4 * KeySize.aes256.nk) :=
  ⟨busyWith_tablesOk _, rfl, rfl⟩

theorem witness_ShiftRowsMovesTheRows : (shiftTrace true zeroBlock).rows[1][2]? = some zeroQuad := by decide

/-- For SubBytesResults, ShiftRowsResults and MixColumnsResults. -/
theorem witness_block_results : (busyWith 0x30).TablesOk ∧ (busyWith 0x30).seq.ops.blklen = 16 :=
  ⟨busyWith_tablesOk _, rfl⟩

/-- r = 0 and r = NR. -/
theorem witness_AddRoundKeyResult :
    (accept 0x33 { State.reset with sched := some someSchedule }).seq.ops.blklen = 16 ∧
    (accept 0x33 { State.reset with sched := some someSchedule }).seq.ops.sched = some someSchedule ∧
    someSchedule.Ok ∧ 0 ≤ someSchedule.size.nr ∧ 10 ≤ someSchedule.size.nr :=
  ⟨rfl, rfl, rfl, by decide, by decide⟩

/-- For EncryptBlockResult and DecryptBlockResult, with both values of `TRACE_EN`. -/
theorem witness_cipher_results :
    (busyWith 0x40).TablesOk ∧ (busyWith 0x40).seq.ops.keylen = BitVec.ofNat 32 (4 * KeySize.aes128.nk) ∧
      (busyWith 0x40).seq.ops.blklen = 16 ∧ (busyWith 0x40).traceEn = true ∧
      (accept 0x40 { State.reset with traceEn := false }).traceEn = false :=
  ⟨busyWith_tablesOk _, rfl, rfl, rfl, rfl⟩

/-- For EncryptionTrace and DecryptionTrace: the first, a middle, the last step of a run, and an entry of the mirror. -/
theorem witness_cipher_traces :
    0 ≤ KeySize.aes128.nr ∧ (0 < 1 ∧ 1 < KeySize.aes128.nr) ∧ KeySize.aes128.nr ≤ 10 ∧ 9 + 1 = KeySize.aes128.nr ∧
      9 ≤ KeySize.aes128.nr - 1 := by decide

theorem witness_DecryptUndoesEncrypt :
    State.reset.TablesOk ∧ State.reset.busy = false ∧ State.reset.keylen = 16 ∧ State.reset.blklen = 16 :=
  ⟨reset_tablesOk, rfl, rfl, rfl⟩

/-- Two states that differ in KEY4, which an AES-128 key does not use, and in `RES`. -/
theorem witness_CipherDependsOnlyOnItsOperands :
    ∃ s s' t t' : State, s.TablesOk ∧ s'.TablesOk ∧ s'.traceEn = s.traceEn ∧
      s.seq.ops.keylen = BitVec.ofNat 32 (4 * KeySize.aes128.nk) ∧ s'.seq.ops.keylen = s.seq.ops.keylen ∧
      (∀ j : Fin 8, j.val < KeySize.aes128.nk → s'.seq.ops.keyReg[j] = s.seq.ops.keyReg[j]) ∧
      s.seq.ops.blklen = 16 ∧ s'.seq.ops.blklen = 16 ∧ s'.seq.ops.stateReg = s.seq.ops.stateReg ∧
      exec .encryptBlock s = .next t ∧ exec .encryptBlock s' = .next t' ∧ s'.res ≠ s.res :=
  ⟨busyWith 0x40, accept 0x40 { State.reset with keyReg := #v[0, 0, 0, 0, 1, 0, 0, 0], res := 1 }, _, _,
    busyWith_tablesOk _, tablesOk_of_none _ rfl rfl, rfl, rfl, rfl, by decide, rfl, rfl, rfl, rfl, rfl, by decide⟩

theorem witness_TraceOptionChangesNoOtherResult :
    ∃ s s' t t' : State, s.TablesOk ∧ s'.TablesOk ∧ s'.traceEn ≠ s.traceEn ∧ s'.seq.ops = s.seq.ops ∧ s'.res = s.res ∧
      s'.stateReg = s.stateReg ∧ s'.sched = s.sched ∧ s'.tablesReady = s.tablesReady ∧
      exec .encryptBlock s = .next t ∧ exec .encryptBlock s' = .next t' :=
  ⟨busyWith 0x40, accept 0x40 { State.reset with traceEn := false }, _, _, busyWith_tablesOk _,
    tablesOk_of_none _ rfl rfl, by decide, rfl, rfl, rfl, rfl, rfl, rfl, rfl⟩

end Sys2Proof.Tests
end

/-! Packing as 00_scope.md R12 writes it, and the place of a byte in the register bank that holds a block (R11, R12). -/

namespace Sys2Proof.Proofs

open Sys2Proof.Machine Sys2Proof.Laws

/-! ## One word -/

@[simp] theorem toNat_zext (b : Byte) : (zext b).toNat = b.toNat :=
  BitVec.toNat_setWidth_of_le (by decide)

/-- No bit of a byte leaves the register when it is shifted by at most 24 places. -/
theorem toNat_zext_shiftLeft (b : Byte) {k : Nat} (hk : k ≤ 24) : (zext b <<< k).toNat = b.toNat <<< k := by
  have hlt : b.toNat <<< k < 2 ^ 32 := calc
    b.toNat <<< k < 2 ^ (8 + k) := by
      rw [Nat.shiftLeft_eq, Nat.pow_add]
      exact Nat.mul_lt_mul_of_pos_right b.isLt (Nat.two_pow_pos k)
    _ ≤ 2 ^ 32 := Nat.pow_le_pow_right (by decide) (by omega)
  rw [BitVec.toNat_shiftLeft, toNat_zext, Nat.mod_eq_of_lt hlt]

theorem pack_eq_or_shifts (q : Quad) :
    pack q = (zext q.b0 <<< 24) ||| (zext q.b1 <<< 16) ||| (zext q.b2 <<< 8) ||| zext q.b3 := by
  have h0 := toNat_zext_shiftLeft q.b0 (k := 24) (by decide)
  have h1 := toNat_zext_shiftLeft q.b1 (k := 16) (by decide)
  have h2 := toNat_zext_shiftLeft q.b2 (k := 8) (by decide)
  apply BitVec.eq_of_toNat_eq
  simp only [pack, BitVec.toNat_append, BitVec.toNat_or, Nat.shiftLeft_or_distrib, ← Nat.shiftLeft_add, h0, h1, h2,
    toNat_zext]

theorem bytes_unpack (v : Word) (r : Fin 4) :
    (unpack v).bytes[r.val]? = some (v.extractLsb' (8 * (3 - r)) 8) := by
  fin_cases r <;> rfl

/-! ## The four registers of a block -/

theorem cols_ofRegs (v : Vector Word 4) (c : Fin 4) : (Block.ofRegs v).cols[c.val]? = some (unpack v[c]) := by
  fin_cases c <;> rfl

/-- The column-major mapping: linear index `4c + r` is row r of column c (00_scope.md R11). -/
theorem byte_of_column {s : Block} {c r : Fin 4} {q : Quad} {b : Byte} (hq : s.cols[c.val]? = some q)
    (hb : q.bytes[r.val]? = some b) : s.byte (4 * c + r) = b := by
  have hc : (4 * c.val + r.val) / 4 = c.val := by omega
  have hr : (4 * c.val + r.val) % 4 = r.val := by omega
  simp only [Block.byte, hc, hr, hq, hb, Option.map_some, Option.getD_some]

theorem byte_ofRegs (v : Vector Word 4) (c r : Fin 4) :
    (Block.ofRegs v).byte (4 * c + r) = v[c].extractLsb' (8 * (3 - r)) 8 :=
  byte_of_column (cols_ofRegs v c) (bytes_unpack v[c] r)

/-- Settles O45: the formula of R12, the two inverses of a word and of a register bank, and the place of each byte. -/
theorem packAndUnpackAreInverse : Obligations.PackAndUnpackAreInverse :=
  ⟨pack_eq_or_shifts, unpack_pack, pack_unpack, ofRegs_toRegs, toRegs_ofRegs, byte_ofRegs⟩

end Sys2Proof.Proofs

/-! What a command writes (10_state.md R52), where the fields of the information words and the words of the traces stand
(R34, R40, R44 to R47), and the invariant at reset (R51). -/

namespace Sys2Proof.Proofs

open Sys2Proof.Machine Sys2Proof.Laws

/-! ## What a command writes -/

theorem eq_commit_of_exec {i : Instr} {s t : State} (h : exec i s = .next t) : t = commit (outcomeOf i s) s := by
  rw [exec_eq_commit, Host.Outcome.next.injEq] at h
  exact h.symm

/-- Every command, and not only those of one family, stays within its row of 10_state.md R52. -/
theorem exec_frame {i : Instr} {s t : State} (h : exec i s = .next t) : FrameExcept (writesOf i) s t := by
  rw [eq_commit_of_exec h]
  exact commit_outcome_frame i s

/-- A trace is a result only of a build with traces, so without them the results hold none. -/
theorem resultsOk_no_traces {s : State} {r : Results} (h : ResultsOk s r) (he : s.traceEn = false) :
    r.kt = none ∧ r.ct = none ∧ r.rrot = none := by
  have hne : ¬ s.traceEn = true := by simp [he]
  exact ⟨Option.eq_none_iff_forall_not_mem.2 fun x hx => hne (h.kt x hx).1,
    Option.eq_none_iff_forall_not_mem.2 fun x hx => hne (h.ct x hx).1,
    Option.eq_none_iff_forall_not_mem.2 fun x hx => hne (h.rrot x hx).1⟩

theorem exec_keeps_traces_of_untraced {i : Instr} {s t : State} (h : exec i s = .next t) (he : s.traceEn = false) :
    t.kt = s.kt ∧ t.ct = s.ct ∧ t.rrot = s.rrot := by
  rw [eq_commit_of_exec h]
  cases ho : outcomeOf i s with
  | error c => exact ⟨rfl, rfl, rfl⟩
  | ok r =>
    obtain ⟨hk, hc, hr⟩ := resultsOk_no_traces (outcomeOf_results_ok i s r ho) he
    simp [hk, hc, hr]

/-- Settles O26: the frame of every command, for the twelve that take no block and no key. -/
theorem primitivesWriteOnlyTheirResults : Obligations.PrimitivesWriteOnlyTheirResults :=
  fun _ _ _ _ h => exec_frame h

/-- Settles O27: the frame of every command, and the traces of a build without them. -/
theorem stateCommandsWriteOnlyTheirResults : Obligations.StateCommandsWriteOnlyTheirResults :=
  fun _ _ _ _ h => ⟨exec_frame h, exec_keeps_traces_of_untraced h⟩

/-- Settles O28: the frame of every command, and the traces of a build without them. -/
theorem keyCommandsWriteOnlyTheirResults : Obligations.KeyCommandsWriteOnlyTheirResults :=
  fun _ _ _ _ h => ⟨exec_frame h, exec_keeps_traces_of_untraced h⟩

/-! ## The information words of the traces -/

/-- The presence bits of `CT_INFO`, and SENTINEL (10_state.md R44). -/
theorem ctInfo_bits (e : CtEntry) :
    (ctInfo e).getLsbD 0 = e.start.isSome ∧ (ctInfo e).getLsbD 1 = e.afterSub.isSome ∧
    (ctInfo e).getLsbD 2 = e.afterShift.isSome ∧ (ctInfo e).getLsbD 3 = e.afterMix.isSome ∧
    (ctInfo e).getLsbD 4 = e.afterKey.isSome ∧ (ctInfo e).getLsbD 5 = e.roundKey.isSome ∧
    (ctInfo e).getLsbD 16 = e.sentinel := by
  simp only [ctInfo, BitVec.getLsbD_append, BitVec.getLsbD_ofBool]
  simp

/-- RKIDX is 0 when the entry has no round key, before or after it is cut to its four bits. -/
theorem ofNat_roundKeyIdx (u : Option RoundKeyUse) :
    BitVec.ofNat 4 ((u.map (fun k => k.idx)).getD 0) = (u.map (fun k => BitVec.ofNat 4 k.idx)).getD 0 := by
  cases u with
  | none => rfl
  | some k => rfl

/-- RKIDX of `CT_INFO`, and its reserved bits (10_state.md R44). -/
theorem ctInfo_fields (e : CtEntry) :
    (ctInfo e).extractLsb' 6 2 = 0#2 ∧
    (ctInfo e).extractLsb' 8 4 = ((e.roundKey.map (fun u => BitVec.ofNat 4 u.idx)).getD 0) ∧
    (ctInfo e).extractLsb' 12 4 = 0#4 ∧ (ctInfo e).extractLsb' 17 15 = 0#15 := by
  simp (disch := omega) only [ctInfo, BitVec.extractLsb'_append_eq_of_le, BitVec.extractLsb'_append_eq_of_add_le]
  simp [ofNat_roundKeyIdx]

theorem ktInfo_bits (e : KtEntry) :
    (ktInfo e).getLsbD 8 = e.rot.isSome ∧ (ktInfo e).getLsbD 9 = e.sub.isSome ∧
    (ktInfo e).getLsbD 10 = e.rcon.isSome ∧ (ktInfo e).getLsbD 11 = e.xor.isSome := by
  simp only [ktInfo, BitVec.getLsbD_append, BitVec.getLsbD_ofBool]
  simp

theorem ktInfo_fields (e : KtEntry) :
    (ktInfo e).extractLsb' 0 6 = BitVec.ofNat 6 e.index ∧ (ktInfo e).extractLsb' 6 2 = 0#2 ∧
    (ktInfo e).extractLsb' 12 20 = 0#20 := by
  simp (disch := omega) only [ktInfo, BitVec.extractLsb'_append_eq_of_le, BitVec.extractLsb'_append_eq_of_add_le]
  simp

/-! ## The words of the traces -/

/-- Column c of an optional block is what register c of the block would hold (00_scope.md R12). -/
theorem columnWord_eq_toRegs (b : Option Block) (c : Fin 4) :
    columnWord b c = (b.map (fun y => y.toRegs[c])).getD 0 := by
  cases b with
  | none => rfl
  | some y => fin_cases c <;> rfl

theorem ctWord_columns (x : CtEntry) (c : Fin 4) :
    ctWord x (0x10 / 4 + c) = columnWord x.start c ∧ ctWord x (0x20 / 4 + c) = columnWord x.afterSub c ∧
    ctWord x (0x30 / 4 + c) = columnWord x.afterShift c ∧ ctWord x (0x40 / 4 + c) = columnWord x.afterMix c ∧
    ctWord x (0x50 / 4 + c) = columnWord x.afterKey c ∧
    ctWord x (0x60 / 4 + c) = columnWord (x.roundKey.map (fun u => u.key)) c := by
  fin_cases c <;> exact ⟨rfl, rfl, rfl, rfl, rfl, rfl⟩

theorem ctWord_reserved (x : CtEntry) (c : Fin 4) : ctWord x (0x70 / 4 + c) = 0 ∧ (0 < c.val → ctWord x c = 0) := by
  fin_cases c
  · exact ⟨rfl, fun h => absurd h (Nat.lt_irrefl 0)⟩
  all_goals exact ⟨rfl, fun _ => rfl⟩

/-- The snapshots follow `COUNT` (10_state.md R46). -/
theorem rrotWord_succ (snaps : List Quad) (k : Nat) : rrotWord snaps (k + 1) = ((snaps[k]?).map pack).getD 0 := by
  rw [rrotWord, if_neg k.succ_ne_zero, Nat.add_sub_cancel]

/-- Settles O14: each word by its offset, the information words by their bits. -/
theorem traceWordsStandAtTheirOffsets : Obligations.TraceWordsStandAtTheirOffsets := by
  refine ⟨fun x c => ?_, fun x => ?_, fun snaps => ⟨rfl, fun k => rrotWord_succ snaps k⟩,
    fun x => ⟨rfl, rfl, rfl, rfl, rfl, rfl, rfl, rfl⟩⟩
  · obtain ⟨hstart, hsub, hshift, hmix, hkey, hround⟩ := ctWord_columns x c
    obtain ⟨hpad, hpadInfo⟩ := ctWord_reserved x c
    obtain ⟨b0, b1, b2, b3, b4, b5, b16⟩ := ctInfo_bits x
    obtain ⟨f6, f8, f12, f17⟩ := ctInfo_fields x
    simp only [columnWord_eq_toRegs] at hstart hsub hshift hmix hkey hround
    exact ⟨hstart, hsub, hshift, hmix, hkey, hround, hpad, hpadInfo, b0, b1, b2, b3, b4, b5, f6, f8, f12, b16, f17⟩
  · obtain ⟨b8, b9, b10, b11⟩ := ktInfo_bits x
    obtain ⟨f0, f6, f12⟩ := ktInfo_fields x
    exact ⟨rfl, rfl, rfl, rfl, rfl, rfl, rfl, f0, f6, b8, b9, b10, b11, f12⟩

/-! ## STATUS and TRACE_INFO -/

theorem statusWord_bits (s : State) :
    (statusWord s).getLsbD 0 = s.busy ∧ (statusWord s).getLsbD 1 = s.done ∧ (statusWord s).getLsbD 2 = s.errFlag ∧
    (statusWord s).getLsbD 8 = s.tablesReady ∧ (statusWord s).getLsbD 9 = s.schedValid ∧
    (statusWord s).getLsbD 31 = s.traceEn := by
  simp only [statusWord, BitVec.getLsbD_append, BitVec.getLsbD_ofBool]
  simp

theorem statusWord_fields (s : State) :
    (statusWord s).extractLsb' 4 4 = s.errCode ∧ (statusWord s).extractLsb' 16 4 = BitVec.ofNat 4 s.nkField ∧
    (statusWord s).extractLsb' 24 4 = BitVec.ofNat 4 s.nrField := by
  simp (disch := omega) only [statusWord, BitVec.extractLsb'_append_eq_of_le, BitVec.extractLsb'_append_eq_of_add_le]
  simp

theorem statusWord_reserved (s : State) :
    (statusWord s).extractLsb' 3 1 = 0#1 ∧ (statusWord s).extractLsb' 10 6 = 0#6 ∧
    (statusWord s).extractLsb' 20 4 = 0#4 ∧ (statusWord s).extractLsb' 28 3 = 0#3 := by
  simp (disch := omega) only [statusWord, BitVec.extractLsb'_append_eq_of_le, BitVec.extractLsb'_append_eq_of_add_le]
  simp

theorem traceInfoWord_of_untraced (s : State) (h : s.traceEn = false) : traceInfoWord s = 0 := by
  simp [traceInfoWord, h]

theorem traceInfoWord_bits (s : State) (h : s.traceEn = true) :
    (traceInfoWord s).getLsbD 7 = s.ctDir ∧ (traceInfoWord s).getLsbD 16 = s.rrot.isSome ∧
    (traceInfoWord s).getLsbD 17 = s.rrotInv := by
  rw [traceInfoWord, if_pos h]
  simp only [BitVec.getLsbD_append, BitVec.getLsbD_ofBool]
  simp

theorem traceInfoWord_fields (s : State) (h : s.traceEn = true) :
    (traceInfoWord s).extractLsb' 0 5 = BitVec.ofNat 5 s.ctLen ∧ (traceInfoWord s).extractLsb' 5 2 = 0#2 ∧
    (traceInfoWord s).extractLsb' 8 6 = BitVec.ofNat 6 s.kt.length ∧ (traceInfoWord s).extractLsb' 14 2 = 0#2 ∧
    (traceInfoWord s).extractLsb' 18 14 = 0#14 := by
  rw [traceInfoWord, if_pos h]
  simp (disch := omega) only [BitVec.extractLsb'_append_eq_of_le, BitVec.extractLsb'_append_eq_of_add_le]
  simp

/-- Nk and Nr = Nk + 6 fit their 4-bit fields (00_scope.md R3). -/
theorem keySize_fits_fields (size : KeySize) :
    (BitVec.ofNat 4 size.nk).toNat = size.nk ∧ BitVec.ofNat 4 size.nr = BitVec.ofNat 4 size.nk + 6#4 ∧
    (BitVec.ofNat 4 size.nk = 4#4 ∨ BitVec.ofNat 4 size.nk = 6#4 ∨ BitVec.ofNat 4 size.nk = 8#4) := by
  cases size <;> decide

/-- Settles O15: the bits and fields of both words, and NK and NR by whether a schedule is held. -/
theorem statusAndTraceInfoFields : Obligations.StatusAndTraceInfoFields := by
  refine ⟨fun s => ?_, fun s => ?_, traceInfoWord_of_untraced, fun s he => ?_⟩
  · obtain ⟨b0, b1, b2, b8, b9, b31⟩ := statusWord_bits s
    obtain ⟨f4, f16, f24⟩ := statusWord_fields s
    obtain ⟨r3, r10, r20, r28⟩ := statusWord_reserved s
    exact ⟨b0, b1, b2, r3, f4, b8, b9, r10, f16, r20, f24, r28, b31⟩
  · obtain ⟨-, hnk, hnr⟩ := statusWord_fields s
    simp only [hnk, hnr]
    constructor
    · intro hs
      simp [State.nkField, State.nrField, hs]
    · intro x hs
      simpa [State.nkField, State.nrField, hs] using keySize_fits_fields x.size
  · obtain ⟨b7, b16, b17⟩ := traceInfoWord_bits s he
    obtain ⟨f0, f5, f8, f14, f18⟩ := traceInfoWord_fields s he
    exact ⟨f0, f5, b7, f8, f14, b16, b17, f18⟩

/-! ## Reset -/

/-- Settles O22: at reset nothing is built, held or traced, and the sequencer is at rest. -/
theorem resetMeetsTheInvariant : Obligations.ResetMeetsTheInvariant where
  tables := ⟨nofun, nofun⟩
  sched := nofun
  traces := ⟨.inl rfl, nofun, nofun, fun _ => ⟨rfl, rfl, rfl⟩⟩
  errorDone := nofun
  inFlight := nofun
  progress := rfl

end Sys2Proof.Proofs

/-! The address map of 20_memory.md R81: where each item stands, what the reserved offsets read (R82), what a host write
stores (R82, R89), and that a host read changes nothing (R85, R88). -/

namespace Sys2Proof.Proofs

open Sys2Proof.Machine Sys2Proof.Laws

/-! ## Where an item stands -/

/-- The byte offset of an item (20_memory.md R81, with the strides of the entries of 10_state.md R44 to R47). -/
def itemOffset : Item → Nat
  | .cmd => 0x0000
  | .status => 0x0004
  | .keylen => 0x0008
  | .blklen => 0x000C
  | .opa => 0x0010
  | .opb => 0x0014
  | .res => 0x0018
  | .traceInfo => 0x001C
  | .key j => 0x0020 + 4 * j
  | .stateCol c => 0x0040 + 4 * c
  | .w i => 0x0100 + 4 * i
  | .rrot r k => 0x0200 + 0x10 * r + 4 * k
  | .sbox b => 0x0400 + 4 * b
  | .invSbox b => 0x0800 + 4 * b
  | .exp k => 0x0C00 + 4 * k
  | .log b => 0x1000 + 4 * b
  | .ct e k => 0x2000 + 0x80 * e + 4 * k
  | .kt j k => 0x3000 + 0x20 * j + 4 * k
  | .sbt b k => 0x4000 + 0x20 * b + 4 * k
  | .reserved => 0x8000

/-- The indices of a trace word lie within its window. -/
def ItemFits : Item → Prop
  | .rrot _ k => k < 4
  | .ct e k => e < 16 ∧ k < 32
  | .kt j k => j < 52 ∧ k < 8
  | .sbt b k => b < 256 ∧ k < 8
  | .reserved => False
  | _ => True

/-- A byte offset of the 32 KiB space gives its word address. -/
theorem toNat_wordAddr {n : Nat} (h : n < 0x8000) : (BitVec.ofNat 13 (n / 4)).toNat = n / 4 := by
  rw [BitVec.toNat_ofNat, Nat.mod_eq_of_lt (by omega)]

theorem itemOffset_lt {x : Item} (hx : ItemFits x) : itemOffset x < 0x8000 := by
  cases x with
  | cmd | status | keylen | blklen | opa | opb | res | traceInfo => decide
  | key i | stateCol i | w i | sbox i | invSbox i | exp i | log i =>
    simp only [itemOffset]
    omega
  | rrot _ k | ct _ k | kt _ k | sbt _ k =>
    simp only [itemOffset, ItemFits] at hx ⊢
    omega
  | reserved => exact hx.elim

/-- The address map takes the address of an item back to the item. -/
theorem itemAt_itemOffset {x : Item} (hx : ItemFits x) : itemAt (BitVec.ofNat 13 (itemOffset x / 4)) = x := by
  have ha := toNat_wordAddr (itemOffset_lt hx)
  generalize BitVec.ofNat 13 (itemOffset x / 4) = a at ha
  cases x with
  | cmd | status | keylen | blklen | opa | opb | res | traceInfo =>
    simp only [itemOffset] at ha
    simp only [itemAt, ha, Nat.reduceDiv, Nat.reduceEqDiff, if_true, if_false]
  | key i | stateCol i | w i | sbox i | invSbox i | exp i | log i =>
    simp only [itemOffset] at ha
    simp (disch := omega) only [itemAt, if_neg, dif_neg, dif_pos]
    exact congrArg _ (Fin.ext (by simp only; omega))
  | rrot r k =>
    simp only [itemOffset, ItemFits] at ha hx
    simp (disch := omega) only [itemAt, if_neg, dif_neg, dif_pos]
    exact congrArg₂ _ (Fin.ext (by simp only; omega)) (by omega)
  | ct e k | kt e k | sbt e k =>
    simp only [itemOffset, ItemFits] at ha hx
    simp (disch := omega) only [itemAt, if_neg, dif_neg, if_pos]
    exact congrArg₂ _ (by omega) (by omega)
  | reserved => exact hx.elim

/-- The value of an item is read at its offset. -/
theorem memRead_itemOffset (s : State) {x : Item} (hx : ItemFits x) :
    memRead s (BitVec.ofNat 13 (itemOffset x / 4)) = itemValue s x := by
  rw [memRead, itemAt_itemOffset hx]

/-- The seven reserved ranges, by byte offset (20_memory.md R81). -/
def ReservedOffset (n : Nat) : Prop :=
  (0x0050 ≤ n ∧ n < 0x0100) ∨ (0x01F0 ≤ n ∧ n < 0x0200) ∨ (0x0240 ≤ n ∧ n < 0x0400) ∨ (0x1400 ≤ n ∧ n < 0x2000) ∨
    (0x2800 ≤ n ∧ n < 0x3000) ∨ (0x3680 ≤ n ∧ n < 0x4000) ∨ 0x6000 ≤ n

/-- No item stands in a reserved range. -/
theorem itemAt_reserved {a : Addr} (h : ReservedOffset (4 * a.toNat)) : itemAt a = .reserved := by
  unfold ReservedOffset at h
  simp (disch := omega) only [itemAt, if_neg, dif_neg]

/-- Settles O12: every register is an item at its offset, and no item stands in a reserved range. -/
theorem registersReadAtTheirOffsets : Obligations.RegistersReadAtTheirOffsets := by
  refine ⟨fun s => ⟨memRead_itemOffset s (x := .cmd) trivial, memRead_itemOffset s (x := .status) trivial,
    memRead_itemOffset s (x := .keylen) trivial, memRead_itemOffset s (x := .blklen) trivial,
    memRead_itemOffset s (x := .opa) trivial, memRead_itemOffset s (x := .opb) trivial,
    memRead_itemOffset s (x := .res) trivial, memRead_itemOffset s (x := .traceInfo) trivial,
    fun j => memRead_itemOffset s (x := .key j) trivial,
    fun c => memRead_itemOffset s (x := .stateCol c) trivial⟩, fun s a h => ?_⟩
  rw [memRead, itemAt_reserved h]
  rfl

/-! ## The windows -/

/-- Settles O13: each window word is an item at its offset, and an item's value is 0 where its entry is absent. -/
theorem windowsReadAtTheirOffsets : Obligations.WindowsReadAtTheirOffsets := by
  refine fun s => ⟨fun i => (memRead_itemOffset s (x := .w i) trivial).trans ?_,
    fun b => ⟨(memRead_itemOffset s (x := .sbox b) trivial).trans ?_,
      (memRead_itemOffset s (x := .invSbox b) trivial).trans ?_,
      (memRead_itemOffset s (x := .exp b) trivial).trans ?_, (memRead_itemOffset s (x := .log b) trivial).trans ?_⟩,
    fun r k => (memRead_itemOffset s (x := .rrot r k) k.isLt).trans ?_,
    fun e k => (memRead_itemOffset s (x := .ct e k) ⟨e.isLt, k.isLt⟩).trans ?_,
    fun j k => (memRead_itemOffset s (x := .kt j k) ⟨j.isLt, k.isLt⟩).trans ?_,
    fun b k => (memRead_itemOffset s (x := .sbt b k) ⟨b.isLt, k.isLt⟩).trans ?_⟩
  all_goals simp only [itemValue, wWindow, tableWindow, traceWindow]
  · cases s.sched <;> rfl
  iterate 4 cases s.tables <;> rfl
  · cases s.rrot <;> rfl
  · cases s.ct.bind fun c => c.entries[e.val]? <;> rfl
  · cases s.kt[j.val]? <;> rfl
  · cases s.tables with
    | none => rfl
    | some t =>
      simp only [Option.map_some, Option.getD_some, Option.bind_some]
      cases t.sbt[b.val]? <;> rfl

/-! ## Host writes -/

theorem hostWrite_of_idle {s : State} (h : s.busy = false) (a : Addr) (v : Word) :
    hostWrite a v s = writeItem v s (itemAt a) := by
  simp [hostWrite, h]

theorem writeItem_of_not_writable (v : Word) (s : State) {x : Item} (h : x.writable = false) : writeItem v s x = s := by
  cases x with
  | cmd | keylen | blklen | opa | opb | key j | stateCol c => cases h
  | _ => rfl

theorem hostWrite_of_not_writable {a : Addr} (h : (itemAt a).writable = false) (v : Word) (s : State) :
    hostWrite a v s = s := by
  cases hb : s.busy with
  | true => simp [hostWrite, hb, h]
  | false => rw [hostWrite_of_idle hb, writeItem_of_not_writable v s h]

/-- Settles O17: outside the RW addresses nothing is writable, and only a writable item takes a write. -/
theorem readOnlyWriteHasNoEffect : Obligations.ReadOnlyWriteHasNoEffect := by
  intro s a v h
  refine hostWrite_of_not_writable (Bool.eq_false_iff.2 fun hw => h ?_) v s
  have hn := (itemAt_writable_iff a).1 hw
  omega

/-- A store in a register bank changes the one register. -/
theorem getElem_set_eq_update {n : Nat} (r : Vector Word n) (i j : Fin n) (v : Word) :
    (r.set i v)[j] = Function.update (fun k => r[k]) i v j := by
  simp [Function.update_apply, Vector.getElem_set, Fin.ext_iff, eq_comm]

/-- A store in an operand register changes the value of that item and of no other (20_memory.md R89). -/
theorem itemValue_writeItem (v : Word) (s : State) {x : Item} (hw : x.writable = true) (hc : x ≠ .cmd) (y : Item) :
    itemValue (writeItem v s x) y = Function.update (itemValue s) x v y := by
  cases x with
  | cmd => exact absurd rfl hc
  | keylen | blklen | opa | opb => cases y <;> rfl
  | key i =>
    cases y with
    | key j =>
      rw [Function.update_apply_of_injective _ fun _ _ => Item.key.inj]
      exact getElem_set_eq_update s.keyReg i j v
    | _ => rfl
  | stateCol i =>
    cases y with
    | stateCol j =>
      rw [Function.update_apply_of_injective _ fun _ _ => Item.stateCol.inj]
      exact getElem_set_eq_update s.stateReg i j v
    | _ => rfl
  | _ => cases hw

theorem writeItem_seq (v : Word) (s : State) {x : Item} (hc : x ≠ .cmd) : (writeItem v s x).seq = s.seq := by
  cases x with
  | cmd => exact absurd rfl hc
  | _ => rfl

theorem writeItem_faulted (v : Word) (s : State) (x : Item) : (writeItem v s x).faulted = s.faulted := by
  cases x <;> rfl

/-- Settles O16: the store updates one item, and an operand register stands at one address only. -/
theorem operandWriteReadsBack : Obligations.OperandWriteReadsBack := by
  intro s a v hb hw hne
  have hc : itemAt a ≠ .cmd := fun h => hne ((itemAt_eq_cmd_iff a).1 h)
  rw [hostWrite_of_idle hb]
  refine ⟨?_, fun b hba => ?_, ?_, writeItem_faulted v s (itemAt a)⟩
  · rw [memRead, itemValue_writeItem v s hw hc, Function.update_self]
  · have hi : itemAt b ≠ itemAt a := fun h => hba (itemAt_inj_of_writable a b hw h)
    rw [memRead, itemValue_writeItem v s hw hc, Function.update_of_ne hi, memRead]
  · rw [State.busy, writeItem_seq v s hc]
    exact hb

/-! ## Host reads -/

theorem hostRead_of_idle {s : State} (h : s.busy = false) (a : Addr) :
    hostRead a s = { s with lastRead := some (a, memRead s a) } := by
  simp [hostRead, readValue, readIsDraw, h]

/-- While a command is in flight only BUSY is set in the low byte of `STATUS` (45_cipher_fsm.md R281). -/
theorem statusWord_lowByte_of_inFlight {s : State} (hb : s.busy = true) (hf : s.InFlight) :
    (statusWord s).extractLsb' 0 8 = 0x01#8 := by
  obtain ⟨hdone, herr, -, -⟩ := hf
  apply BitVec.eq_of_getLsbD_eq
  intro i hi
  simp only [BitVec.getLsbD_extractLsb', statusWord, BitVec.getLsbD_append, BitVec.getLsbD_ofBool, State.errCode,
    State.errFlag, hb, hdone, herr]
  interval_cases i <;> rfl

/-- What `MemRead` gives of a core with a command in flight (70_reset_and_hazards.md R358): `u` is the free value. -/
structure BusyReadValue (s : State) (a : Addr) (u v : Word) : Prop where
  status : a = statusAddr → v = statusWord s
  cmd : a = cmdAddr → v = s.seq.cur
  other : a ≠ statusAddr → a ≠ cmdAddr → v = u

theorem busyReadValue {s : State} (hb : s.busy = true) (hf : s.InFlight) (a : Addr) (u : Word) :
    BusyReadValue s a u (if readIsDraw s a then u else memRead s a) := by
  have hdraw := readIsDraw_of_busy s a hb
  refine ⟨fun h => ?_, fun h => ?_, fun hs hc => if_pos (hdraw.2 ⟨hs, hc⟩)⟩
  · rw [if_neg (fun hd => (hdraw.1 hd).1 h), h]
    rfl
  · obtain ⟨-, -, hcur, -⟩ := hf
    rw [if_neg (fun hd => (hdraw.1 hd).2 h), h]
    exact hcur

/-- Settles O20: a read touches only `lastRead` and the counter of draws, and an observation is a list of such reads. -/
theorem hostReadsHaveNoSideEffect : Obligations.HostReadsHaveNoSideEffect := by
  refine ⟨fun s a h => hostRead_of_idle h a, fun s a hwf hb => ⟨⟨readValue s a, rfl, ?_⟩, rfl, rfl, fun _ => rfl⟩,
    fun s a => ?_, fun s a v hb h => ?_, fun s a v hwf hb h => ?_⟩
  · obtain ⟨hstatus, hcmd, hother⟩ := busyReadValue hb (hwf.inFlight hb) a (Config.draw s.draws)
    exact ⟨fun h => ⟨hstatus h, (congrArg _ (hstatus h)).trans (statusWord_lowByte_of_inFlight hb (hwf.inFlight hb))⟩,
      hcmd, fun hs hc => ⟨hother hs hc, if_pos ((readIsDraw_of_busy s a hb).2 ⟨hs, hc⟩)⟩⟩
  · rw [← mem_mappedAddrs]
    exact ⟨fun ⟨v, h⟩ => (mem_readEach _ s (a, v) h).1, exists_mem_readEach _ s a⟩
  · rw [State.observe, readEach_of_idle _ s hb] at h
    obtain ⟨b, -, hv⟩ := List.mem_map.1 h
    cases hv
    rfl
  · obtain ⟨-, k, hk, hv⟩ := mem_readEach _ s (a, v) h
    obtain ⟨hstatus, hcmd, hother⟩ := busyReadValue hb (hwf.inFlight hb) a (Config.draw k)
    exact ⟨fun h => hv.trans (hstatus h), fun h => hv.trans (hcmd h),
      fun hs hc => ⟨k, hk, hv.trans (hother hs hc)⟩⟩

end Sys2Proof.Proofs

/-! The command word: its fields (30_encoding.md R110), and the encoder as the inverse of the decoder on well-formed
commands, from which the rows of the opcode map and the number of legal words follow (R116, R120). -/

namespace Sys2Proof.Proofs

open Sys2Proof.Machine Sys2Proof.Laws

/-! ## The fields of a command word -/

@[simp] theorem cmdOp_cmdWord (op : BitVec 8) (inv : Bool) (ridx : BitVec 4) : cmdOp (cmdWord op inv ridx) = op :=
  BitVec.extractLsb'_append_eq_right

@[simp] theorem cmdInv_cmdWord (op : BitVec 8) (inv : Bool) (ridx : BitVec 4) : cmdInv (cmdWord op inv ridx) = inv := by
  simp only [cmdInv, cmdWord, BitVec.getLsbD_append, BitVec.getLsbD_ofBool]
  simp

@[simp] theorem cmdRidx_cmdWord (op : BitVec 8) (inv : Bool) (ridx : BitVec 4) :
    cmdRidx (cmdWord op inv ridx) = ridx := by
  simp (disch := omega) only [cmdRidx, cmdWord, BitVec.extractLsb'_append_eq_of_le,
    BitVec.extractLsb'_append_eq_of_add_le]
  simp

@[simp] theorem cmdReserved_cmdWord (op : BitVec 8) (inv : Bool) (ridx : BitVec 4) :
    cmdReserved (cmdWord op inv ridx) = 0 := by
  simp (disch := omega) only [cmdReserved, cmdWord, BitVec.extractLsb'_append_eq_of_le,
    BitVec.extractLsb'_append_eq_of_add_le]
  simp

/-- A word with no reserved bit set is made of its three fields. -/
theorem cmdWord_fields {v : Word} (h : cmdReserved v = 0) : cmdWord (cmdOp v) (cmdInv v) (cmdRidx v) = v := by
  have hhigh : v.extractLsb' 20 12 = 0#12 :=
    BitVec.extractLsb'_append_eq_left.symm.trans (congrArg (BitVec.extractLsb' 7 12) h)
  have hlow : v.extractLsb' 9 7 = 0#7 :=
    BitVec.extractLsb'_append_eq_right.symm.trans (congrArg (BitVec.extractLsb' 0 7) h)
  have hinv : BitVec.ofBool (v.getLsbD 8) = v.extractLsb' 8 1 := by
    ext i hi
    cases Nat.lt_one_iff.1 hi
    simp
  rw [cmdWord, cmdOp, cmdInv, cmdRidx, ← hhigh, ← hlow, hinv]
  iterate 4 rw [BitVec.extractLsb'_append_extractLsb'_eq_extractLsb' (by rfl)]
  exact BitVec.extractLsb'_eq_self

theorem eq_cmdWord {v : Word} {op : BitVec 8} {inv : Bool} {ridx : BitVec 4} (hres : cmdReserved v = 0)
    (hop : cmdOp v = op) (hinv : cmdInv v = inv) (hridx : cmdRidx v = ridx) : v = cmdWord op inv ridx := by
  rw [← hop, ← hinv, ← hridx, cmdWord_fields hres]

/-! ## The encoder inverts the decoder -/

/-- Settles O2: the decoder's tests read the fields that the encoder put together. -/
theorem decodeEncodeRoundTrip : Obligations.DecodeEncodeRoundTrip := by
  intro i hi
  cases i with
  | addRoundKey r =>
    have hr : r < 16 := of_decide_eq_true hi
    simp [decode, encode, Nat.mod_eq_of_lt hr]
  | _ => simp [decode, encode, decodePlainOp]

theorem encode_of_decodePlainOp {op : BitVec 8} {i : Instr} (h : decodePlainOp op = .ok i) :
    i.wellFormed = true ∧ encode i = cmdWord op false 0 := by
  have hnat : op = BitVec.ofNat 8 op.toNat := by simp
  unfold decodePlainOp at h
  split at h
  case h_16 => cases h
  all_goals
    rename_i hop
    cases h
    rw [hnat, hop]
    exact ⟨rfl, rfl⟩

/-- A word that decodes is the word of the command it decodes to: on the way to an answer the decoder has tested every
field, so the word has no freedom left (30_encoding.md R120). -/
theorem encode_of_decode {v : Word} {i : Instr} (h : decode v = .ok i) : i.wellFormed = true ∧ encode i = v := by
  simp only [decode, ne_eq, ite_not] at h
  split_ifs at h with hres hop hinv hridx hop hinv hop hinv hop hinv hinv
  -- OP 0x33, with any RIDX
  · cases h
    refine ⟨decide_eq_true (cmdRidx v).isLt, ?_⟩
    rw [encode, BitVec.ofNat_toNat, BitVec.setWidth_eq]
    exact (eq_cmdWord hres hop (by simpa using hinv) rfl).symm
  -- OP 0x30, 0x31, 0x32, each with INV = 1 and INV = 0
  iterate 6
    · cases h
      exact ⟨rfl, (eq_cmdWord hres hop (by simpa using hinv) hridx).symm⟩
  -- an OP with neither field
  · rw [eq_cmdWord hres rfl (by simpa using hinv) hridx]
    exact encode_of_decodePlainOp h

theorem decode_eq_ok_iff {v : Word} {i : Instr} : decode v = .ok i ↔ i.wellFormed = true ∧ encode i = v := by
  constructor
  · exact encode_of_decode
  · rintro ⟨hi, rfl⟩
    exact decodeEncodeRoundTrip i hi

/-- Settles O1: the legal words are those of the encoder, and each illegal word fails its own test. -/
theorem specWordsDecodeToTheirCommands : Obligations.SpecWordsDecodeToTheirCommands := by
  have legal : Obligations.DecodeEncodeRoundTrip := decodeEncodeRoundTrip
  refine ⟨legal .nop rfl, legal .buildTables rfl, legal .gfMulLong rfl, legal .invSboxLookup rfl,
    legal .expandKey rfl, legal .invSubBytes rfl, legal .invMixColumns rfl, legal (.addRoundKey 10) rfl, legal .decryptBlock rfl, ?_⟩
  decide

/-! ## The rows of the opcode map -/

/-- The row of a command without an operand has the full mask, so it selects one word. -/
theorem decode_eq_ok_iff_eq {i : Instr} {w : Word} (hi : i.wellFormed = true) (hw : encode i = w) (v : Word) :
    decode v = .ok i ↔ v = w := by
  rw [decode_eq_ok_iff, hw, and_iff_right hi, eq_comm]

/-- The mask of the row of ADD_ROUND_KEY keeps every bit but those of RIDX. -/
theorem fields_and_addRoundKey_mask (v : Word) :
    cmdReserved (v &&& 0xFFF0FFFF) = cmdReserved v ∧ cmdOp (v &&& 0xFFF0FFFF) = cmdOp v ∧
    cmdInv (v &&& 0xFFF0FFFF) = cmdInv v := by
  simp only [cmdReserved, cmdOp, cmdInv, BitVec.extractLsb'_and, BitVec.getLsbD_and]
  exact ⟨congrArg₂ _ BitVec.and_allOnes BitVec.and_allOnes, BitVec.and_allOnes, Bool.and_true _⟩

theorem decode_eq_addRoundKey_iff (v : Word) (r : Nat) : decode v = .ok (.addRoundKey r) ↔
    v &&& 0xFFF0FFFF = 0x00000033 ∧ r = (cmdRidx v).toNat := by
  constructor
  · intro h
    obtain ⟨hi, rfl⟩ := encode_of_decode h
    have hr : r < 16 := of_decide_eq_true hi
    refine ⟨beq_iff_eq.1 (EncodingRow.addRoundKey r hi), ?_⟩
    rw [encode, cmdRidx_cmdWord, BitVec.toNat_ofNat, Nat.mod_eq_of_lt hr]
  · rintro ⟨hrow, rfl⟩
    obtain ⟨hres, hop, hinv⟩ := fields_and_addRoundKey_mask v
    rw [hrow] at hres hop hinv
    rw [decode, ← hres, ← hop, ← hinv]
    rfl

/-! ## The legal words -/

/-- The well-formed commands: 21 without an operand, and ADD_ROUND_KEY with each of the 16 values of RIDX. -/
def legalCommands : List Instr :=
  [.nop, .buildTables, .gfAdd, .gfXtime, .gfMulLong, .gfMul, .gfInv, .gfAffine, .sboxLookup, .invSboxLookup, .rotWord,
    .subWord, .expandKey, .subBytes, .invSubBytes, .shiftRows, .invShiftRows, .mixColumns, .invMixColumns,
    .encryptBlock, .decryptBlock] ++ (List.range 16).map .addRoundKey

theorem mem_legalCommands (i : Instr) : i ∈ legalCommands ↔ i.wellFormed = true := by
  cases i with
  | addRoundKey r => simp [legalCommands, Instr.wellFormed]
  | _ => decide

theorem mem_map_encode_legalCommands (v : Word) : v ∈ legalCommands.map encode ↔ ∃ i, decode v = .ok i := by
  simp only [List.mem_map, mem_legalCommands, decode_eq_ok_iff]

/-- Two commands with one word are the same, since the word decodes to both. -/
theorem nodup_map_encode_legalCommands : (legalCommands.map encode).Nodup := by
  refine List.Nodup.map_on (fun i hi j hj hw => ?_) (by decide)
  have hdi := decodeEncodeRoundTrip i ((mem_legalCommands i).1 hi)
  have hdj := decodeEncodeRoundTrip j ((mem_legalCommands j).1 hj)
  rw [hw, hdj] at hdi
  exact (Except.ok.inj hdi).symm

/-- Settles O3: 21 rows select one word each, the row of ADD_ROUND_KEY one for each RIDX, and the legal words are those
of the well-formed commands. -/
theorem legalWordsAreTheOpcodeMap : Obligations.LegalWordsAreTheOpcodeMap := by
  constructor
  · intro v
    refine ⟨?_, ?_, ?_, ?_, ?_, ?_, ?_, ?_, ?_, ?_, ?_, ?_, ?_, ?_, ?_, ?_, ?_, ?_, ?_,
      decode_eq_addRoundKey_iff v, ?_, ?_⟩
    all_goals exact decode_eq_ok_iff_eq rfl rfl v
  · exact ⟨legalCommands.map encode, nodup_map_encode_legalCommands, rfl,
      fun v => (mem_map_encode_legalCommands v).symm⟩

end Sys2Proof.Proofs

/-! The pseudo-instructions of 30_encoding.md R122 run on an idle core: `wait` and `run`, the stores of `ldkey` and
`ldblk`, and the reads of `rdblk` and `check`. -/

namespace Sys2Proof.Proofs

open Sys2Proof.Machine Sys2Proof.Laws

/-! ## `wait` and `run` -/

/-- The completion reads neither the schedule nor the last read, and carries both along. -/
theorem commit_outcome_with_port (s : State) (es : List HostEvent) (l : Option (Addr × Word)) :
    commit ({ s with schedule := es, lastRead := l } : State).outcome { s with schedule := es, lastRead := l } =
      { commit s.outcome s with schedule := es, lastRead := l } := by
  have ho : ({ s with schedule := es, lastRead := l } : State).outcome = s.outcome := by
    unfold State.outcome
    cases decode s.seq.cur with
    | error _ => rfl
    | ok i => exact outcomeOf_congr i s _ rfl rfl rfl
  rw [ho]
  cases s.outcome <;> rfl

theorem commit_outcome_with_schedule (s : State) (es : List HostEvent) :
    commit ({ s with schedule := es } : State).outcome { s with schedule := es } =
      { commit s.outcome s with schedule := es } := by
  rw [commit_outcome_with_port s es s.lastRead, ← commit_lastRead s.outcome s]

/-- `STATUS` is read without a draw, busy or idle (70_reset_and_hazards.md R358). -/
theorem step_readStatus {s : State} {rest : List HostEvent} (h : s.schedule = .read statusAddr :: rest) :
    step s = .next { s with schedule := rest, lastRead := some (statusAddr, statusWord s) } := by
  have hd : readIsDraw { s with schedule := rest } statusAddr = false := Bool.and_false _
  have hm : memRead { s with schedule := rest } statusAddr = statusWord s := rfl
  simp only [step, h, performEvent, hostRead, readValue, hd, hm, Bool.false_eq_true, if_false]

theorem step_complete_of_busy {s : State} {rest : List HostEvent} (hb : s.busy = true)
    (h : s.schedule = .complete :: rest) : step s = .next { commit s.outcome s with schedule := rest } := by
  rw [step, h, ← commit_outcome_with_schedule]
  exact completeCommand_of_busy { s with schedule := rest } hb

/-- `wait` on a command in flight: the polls change only the last read, and the read after the completion sees its
`STATUS`. -/
theorem run_waitEvents_of_busy {s : State} {polls : Nat} {rest : List HostEvent} (hb : s.busy = true)
    (h : s.schedule = waitEvents polls ++ rest) :
    core.run (polls + 2) s = .next
      { commit s.outcome s with
        schedule := rest
        lastRead := some (statusAddr, statusWord (commit s.outcome s)) } := by
  induction polls generalizing s with
  | zero => exact (run_succ 1 s _ (step_complete_of_busy hb h)).trans (run_succ 0 _ _ (step_readStatus rfl))
  | succ k ih =>
    refine (run_succ (k + 2) s _ (step_readStatus h)).trans ?_
    refine (ih (s := { s with schedule := waitEvents k ++ rest, lastRead := some (statusAddr, statusWord s) }) hb
      rfl).trans ?_
    rw [commit_outcome_with_port]
    rfl

theorem outcome_accept_encode {i : Instr} (hi : i.wellFormed = true) (s : State) :
    (accept (encode i) s).outcome = outcomeOf i (accept (encode i) s) := by
  have hd : decode (accept (encode i) s).seq.cur = .ok i := decodeEncodeRoundTrip i hi
  simp only [State.outcome, hd]

/-- The meaning of a command just accepted is the completion of its word, whatever is scheduled. -/
theorem exec_accept_encode {i : Instr} (hi : i.wellFormed = true) (s : State) (es : List HostEvent) :
    exec i (accept (encode i) { s with schedule := es }) =
      .next { commit (accept (encode i) s).outcome (accept (encode i) s) with schedule := es } := by
  rw [exec_eq_commit, ← outcome_accept_encode hi]
  exact congrArg _ (commit_outcome_with_schedule (accept (encode i) s) es)

theorem run_runExpand {s : State} {i : Instr} {polls : Nat} {rest : List HostEvent} (hb : s.busy = false)
    (h : s.schedule = (AsmLine.run i polls).expand ++ rest) :
    core.run (polls + 3) s = .next
      { commit (accept (encode i) s).outcome (accept (encode i) s) with
        schedule := rest
        lastRead := some (statusAddr, statusWord (commit (accept (encode i) s).outcome (accept (encode i) s))) } := by
  refine run_write_of_idle hb h ?_
  refine (run_waitEvents_of_busy (s := { accept (encode i) s with schedule := waitEvents polls ++ rest }) rfl
    rfl).trans ?_
  rw [commit_outcome_with_schedule]
  rfl

/-! ## `ldkey` and `ldblk` -/

/-- A register bank after a store of `f j` in each register j of a list. -/
def storeEach {n : Nat} (f : Fin n → Word) (l : List (Fin n)) (r : Vector Word n) : Vector Word n :=
  l.foldl (fun bank (j : Fin n) => bank.set j (f j)) r

theorem getElem_storeEach {n : Nat} (f : Fin n → Word) (l : List (Fin n)) (r : Vector Word n) (j : Fin n) :
    (storeEach f l r)[j] = if j ∈ l then f j else r[j] := by
  induction l generalizing r with
  | nil => rfl
  | cons i l ih =>
    rw [storeEach, List.foldl_cons, ← storeEach, ih, getElem_set_eq_update, Function.update_apply]
    by_cases hj : j = i
    · simp [hj]
    · simp [hj]

theorem storeEach_eq_ofFn {n : Nat} (f : Fin n → Word) (l : List (Fin n)) (r : Vector Word n) :
    storeEach f l r = Vector.ofFn fun j => if j ∈ l then f j else r[j] := by
  refine Vector.ext fun j hj => ?_
  rw [Vector.getElem_ofFn]
  exact getElem_storeEach f l r ⟨j, hj⟩

theorem storeEach_finRange {n : Nat} (v r : Vector Word n) : storeEach (fun j => v[j]) (List.finRange n) r = v := by
  rw [storeEach_eq_ofFn]
  simp

theorem mem_take_finRange (n m : Nat) (j : Fin n) : j ∈ (List.finRange n).take m ↔ j.val < m := by
  rw [List.mem_take_iff_getElem]
  simp only [List.getElem_finRange, Fin.ext_iff, Fin.val_cast, List.length_finRange, exists_prop, exists_eq_right,
    lt_min_iff]
  omega

theorem run_keyWrites {s : State} (f : Fin 8 → Word) (l : List (Fin 8)) {rest : List HostEvent} (hb : s.busy = false)
    (h : s.schedule = l.map (fun j => .write (keyAddr j) (f j)) ++ rest) :
    core.run l.length s = .next { s with schedule := rest, keyReg := storeEach f l s.keyReg } := by
  induction l generalizing s with
  | nil =>
    subst h
    rfl
  | cons j l ih =>
    exact run_writeKey_of_idle hb h
      (ih (s := { s with
        schedule := l.map (fun j => .write (keyAddr j) (f j)) ++ rest
        keyReg := s.keyReg.set j (f j) }) hb rfl)

theorem run_columnWrites {s : State} (f : Fin 4 → Word) (l : List (Fin 4)) {rest : List HostEvent}
    (hb : s.busy = false) (h : s.schedule = l.map (fun c => .write (stateAddr c) (f c)) ++ rest) :
    core.run l.length s = .next { s with schedule := rest, stateReg := storeEach f l s.stateReg } := by
  induction l generalizing s with
  | nil =>
    subst h
    rfl
  | cons c l ih =>
    exact run_writeColumn_of_idle hb h
      (ih (s := { s with
        schedule := l.map (fun c => .write (stateAddr c) (f c)) ++ rest
        stateReg := s.stateReg.set c (f c) }) hb rfl)

theorem run_ldkey {s : State} {size : KeySize} {k : Vector Quad 8} {rest : List HostEvent} (hb : s.busy = false)
    (h : s.schedule = (AsmLine.ldkey size k).expand ++ rest) :
    core.run (size.nk + 1) s = .next
      { s with
        schedule := rest
        keylen := BitVec.ofNat 32 (4 * size.nk)
        keyReg := Vector.ofFn fun j => if j.val < size.nk then pack k[j] else s.keyReg[j] } := by
  rw [ldkey_expand] at h
  have hlen : ((List.finRange 8).take size.nk).length = size.nk := by cases size <;> rfl
  have hrun := run_keyWrites (s := { s with schedule := _, keylen := keylenValue size }) (fun j => pack k[j])
    ((List.finRange 8).take size.nk) (rest := rest) hb rfl
  rw [hlen, storeEach_eq_ofFn] at hrun
  simp only [mem_take_finRange] at hrun
  exact run_write_of_idle hb h hrun

theorem run_ldblk {s : State} {b : Block} {rest : List HostEvent} (hb : s.busy = false)
    (h : s.schedule = (AsmLine.ldblk b).expand ++ rest) :
    core.run 4 s = .next { s with schedule := rest, stateReg := b.toRegs } := by
  rw [ldblk_expand] at h
  have hrun := run_columnWrites (fun c => b.toRegs[c]) (List.finRange 4) hb h
  rwa [storeEach_finRange] at hrun

/-! ## `rdblk` -/

theorem run_columnReads {s : State} (l : List (Fin 4)) (c : Fin 4) {rest : List HostEvent} (hb : s.busy = false)
    (h : s.schedule = l.map (fun d => .read (stateAddr d)) ++ .read (stateAddr c) :: rest) :
    core.run (l.length + 1) s = .next { s with schedule := rest, lastRead := some (stateAddr c, s.stateReg[c]) } := by
  induction l generalizing s with
  | nil => exact run_readColumn_of_idle hb h rfl
  | cons d l ih =>
    exact run_readColumn_of_idle hb h
      (ih (s := { s with
        schedule := l.map (fun d => .read (stateAddr d)) ++ .read (stateAddr c) :: rest
        lastRead := some (stateAddr d, s.stateReg[d]) }) hb rfl)

/-- `rdblk` up to the read of column c, that read, and the reads after it. -/
theorem rdblk_expand_split (c : Fin 4) : AsmLine.rdblk.expand =
    ((List.finRange 4).take c).map (fun d => .read (stateAddr d)) ++
      .read (stateAddr c) :: AsmLine.rdblk.expand.drop (c + 1) := by
  fin_cases c <;> rfl

theorem run_rdblk {s : State} {rest : List HostEvent} (hb : s.busy = false)
    (h : s.schedule = AsmLine.rdblk.expand ++ rest) (c : Fin 4) :
    core.run (c + 1) s = .next
      { s with
        schedule := AsmLine.rdblk.expand.drop (c + 1) ++ rest
        lastRead := some (BitVec.ofNat 13 ((0x0040 + 4 * c) / 4), s.stateReg[c]) } := by
  have haddr : BitVec.ofNat 13 ((0x0040 + 4 * c) / 4) = stateAddr c := congrArg _ (by omega)
  have hlen : ((List.finRange 4).take c).length = c := by simp
  rw [rdblk_expand_split c, List.append_assoc] at h
  have hrun := run_columnReads _ c hb h
  rw [hlen] at hrun
  rw [haddr]
  exact hrun

/-- Settles O11: each pseudo-instruction is a run of its accesses, and `check` looks at bit ERR. -/
theorem runPseudoInstructionRunsItsCommand : Obligations.RunPseudoInstructionRunsItsCommand := by
  refine ⟨fun s i polls rest hb hi h => ?_, fun _ _ _ _ => run_ldkey, fun _ _ _ => run_ldblk, fun _ _ => run_rdblk,
    fun s rest _ h => ⟨run_succ 0 _ _ (step_readStatus h), ?_⟩⟩
  · exact ⟨_, exec_accept_encode hi s rest, commit_busy _ _, commit_done _ _, run_runExpand hb h⟩
  · rw [checkFails_statusWord, State.errFlag, Option.isSome_iff_ne_none]

end Sys2Proof.Proofs

/-! The field of 40_gf28_arith.md: the exponent and log tables (R144, R145), the laws of the arithmetic (R148), and the
commands of §4, each with the result it leaves in `RES` (R149 to R153). -/

namespace Sys2Proof.Proofs

open Sys2Proof.Machine Sys2Proof.Laws

/-! ## The exponent and log tables -/

theorem tableAt_ofNat (t : ByteTable) {k : Nat} (h : k < 256) : tableAt t (BitVec.ofNat 8 k) = t[k] := by
  simp only [tableAt, BitVec.toNat_ofNat, Nat.mod_eq_of_lt h]

theorem tableAt_expTable {k : Nat} (h : k < 256) : tableAt expTable (BitVec.ofNat 8 k) = powThree k :=
  (tableAt_ofNat expTable h).trans (expTable_getElem k h)

/-- The 255 powers of 3 reach the 255 nonzero bytes, so no two of them are equal (40_gf28_arith.md R144). -/
theorem powThree_injOn : Set.InjOn powThree (Finset.range 255) := by
  have hmaps : Set.MapsTo powThree (Finset.range 255) (Finset.univ.erase (0 : Byte)) := fun k _ => by
    simpa using powThree_ne_zero k
  have hsurj : Set.SurjOn powThree (Finset.range 255) (Finset.univ.erase (0 : Byte)) := fun b hb => by
    have hb0 : b ≠ 0 := by simpa using hb
    exact ⟨_, by simpa using Nat.mod_lt _ (by decide), (powThree_mod _).trans (powThree_log b hb0)⟩
  refine Finset.injOn_of_surjOn_of_card_le powThree hmaps hsurj ?_
  simp [← FinEnum.card_eq_fintypeCard]

theorem log_eq_255_iff {b : Byte} (hb : b ≠ 0) : tableAt logTable b = 0xFF ↔ b = 1 := by
  constructor
  · intro h
    rw [← powThree_log b hb, h]
    exact powThree_period
  · rintro rfl
    exact log_one

/-- Settles O30: entry k of EXP is the k-th power of 3, whose period is 255, and LOG gives the exponent of a byte. -/
theorem expAndLogTables : Obligations.ExpAndLogTables := by
  unfold Obligations.ExpAndLogTables
  intro exp log
  have hexp : ∀ k < 256, exp k = powThree k := fun k => tableAt_expTable
  refine ⟨hexp 0 (by decide), fun k hk => ?_, ?_, (hexp 255 (by decide)).trans powThree_period,
    fun k hk l hl h => ?_, fun k hk => ?_, fun b hb => ?_, fun b hb hb1 => ⟨fun h => ?_, fun h => ?_⟩, log_one, log_zero⟩
  · rw [hexp k (by omega), hexp (k + 1) (by omega)]
    rfl
  · rw [hexp 254 (by decide)]
    exact powThree_period
  · rw [hexp k (by omega), hexp l (by omega)] at h
    exact powThree_injOn (by simpa using hk) (by simpa using hl) h
  · rw [hexp k (by omega)]
    exact powThree_ne_zero k
  · rw [hexp _ (log b).isLt]
    exact powThree_log b hb
  · exact (log_ne_zero b hb).ne' (congrArg BitVec.toNat h)
  · exact hb1 ((log_eq_255_iff hb).1 h)

/-! ## The laws of the field -/

theorem multiply_of_ne_zero {a b : Byte} (ha : a ≠ 0) (hb : b ≠ 0) :
    multiply expTable logTable a b = tableAt expTable (BitVec.ofNat 8 (productIndex logTable a b)) := by
  rw [tableAt_ofNat, multiply, if_neg (not_or.2 ⟨ha, hb⟩)]

theorem invert_of_ne_zero {a : Byte} (ha : a ≠ 0) :
    invert expTable logTable a = tableAt expTable (BitVec.ofNat 8 (inverseIndex logTable a)) := by
  rw [tableAt_ofNat, invert, if_neg ha]

/-- The sum is formed before the mod (40_gf28_arith.md R148, law 6). -/
theorem log_add_log_le (a b : Byte) : (tableAt logTable a).toNat + (tableAt logTable b).toNat ≤ 510 := by
  have ha := (tableAt logTable a).isLt
  have hb := (tableAt logTable b).isLt
  omega

/-- Settles O29: the table product is the long product, for which the laws hold, and each index is within the table. -/
theorem fieldLaws : Obligations.FieldLaws := by
  refine ⟨rfl, fun a b c => ?_⟩
  intro mul inv log
  have hmul : mul = multiplyLong := funext₂ multiply_eq
  have hproduct : a ≠ 0 → b ≠ 0 → mul a b = tableAt expTable (BitVec.ofNat 8 (productIndex logTable a b)) :=
    multiply_of_ne_zero
  rw [hmul] at hproduct ⊢
  exact ⟨rfl, multiplyLong_modulo a b, multiplyLong_comm a b, multiplyLong_assoc a b c,
    multiplyLong_invert a, invert_invert a, (xtime_eq a).trans (multiplyLong_comm 2 a), multiplyLong_comm a 2,
    multiplyLong_xor_right a b c,
    ⟨log_add_log_le a b, rfl, Nat.le_of_lt_succ (productIndex_lt logTable a b), hproduct⟩,
    fun ha => ⟨log_ne_zero a ha, rfl, Nat.le_of_lt_succ (inverseIndex_lt a ha), invert_of_ne_zero ha⟩,
    BitVec.xor_zero, multiplyLong_zero_right a, rfl, invert_zero⟩

/-! ## The commands -/

/-- A command whose outcome is a success commits it, within its row of 10_state.md R52. -/
theorem exec_of_outcome_ok {i : Instr} {s : State} {r : Results} (h : outcomeOf i s = .ok r) :
    ∃ t, exec i s = .next t ∧ Succeeded t ∧ FrameExcept (writesOf i) s t ∧ t.res = r.res.getD s.res ∧
      t.tables = s.tables.or r.tables := by
  have hexec : exec i s = .next (commit (.ok r) s) := by rw [exec_eq_commit, h]
  exact ⟨_, hexec, ⟨rfl, rfl, rfl⟩, exec_frame hexec, rfl, rfl⟩

/-- A primitive that reads no table succeeds in every state. -/
theorem exec_of_resultOnly (i : Instr) {s : State} {v : Word} (h : outcomeOf i s = resultOnly v) :
    ∃ t, exec i s = .next t ∧ Succeeded t ∧ FrameExcept (writesOf i) s t ∧ t.res = v := by
  obtain ⟨t, hexec, hok, hframe, hres, -⟩ := exec_of_outcome_ok h
  exact ⟨t, hexec, hok, hframe, hres⟩

/-- Tables that a command reads are those it leaves, built before or built by it (41_sbox_lut.md R175, R180). -/
theorem tables_or_ensureTables (s : State) : s.tables.or (some (ensureTables s)) = some (ensureTables s) := by
  unfold ensureTables
  cases s.tables <;> rfl

/-- A primitive that reads the tables succeeds, on the tables as built and leaving them built. -/
theorem exec_of_resultWithTables (i : Instr) {s : State} {f : FieldTables → Word} (ht : s.TablesOk)
    (h : outcomeOf i s = resultWithTables s f) :
    ∃ t, exec i s = .next t ∧ Succeeded t ∧ FrameExcept (writesOf i) s t ∧ t.tables = some (buildTables s.traceEn) ∧
      t.res = f (buildTables s.traceEn) := by
  obtain ⟨t, hexec, hok, hframe, hres, htables⟩ := exec_of_outcome_ok h
  have hens := ensureTables_of_ok s ht
  refine ⟨t, hexec, hok, hframe, ?_, ?_⟩
  · rw [htables, tables_or_ensureTables, hens]
  · rw [hres, ← hens]
    rfl

theorem xtime_lowByte (v : Word) : xtime (lowByte v) =
    if v.getLsbD 7 then (lowByte v <<< 1) ^^^ 0x1B else lowByte v <<< 1 := by
  have h7 : (lowByte v).getLsbD 7 = v.getLsbD 7 := by simp [lowByte]
  rw [xtime, h7]

/-- Settles O33: the two commands read no table. -/
theorem gfAddAndXtimeResults : Obligations.GfAddAndXtimeResults := by
  refine ⟨decode_eq_ok_iff_eq rfl rfl, decodeEncodeRoundTrip .gfXtime rfl, fun s => exec_of_resultOnly _ rfl, fun s => ?_⟩
  obtain ⟨t, hexec, hok, hframe, hres⟩ := exec_of_resultOnly .gfXtime (Eq.refl (gfXtimeOutcome s))
  exact ⟨t, hexec, hok, hframe, hres.trans (congrArg zext (xtime_lowByte s.seq.ops.opa))⟩

/-- Settles O34: the command reads no table, and its product is the table product. -/
theorem gfMulLongResult : Obligations.GfMulLongResult := by
  refine ⟨decodeEncodeRoundTrip .gfMulLong rfl, fun s => ?_⟩
  simp only [multiply_eq, and_self]
  exact exec_of_resultOnly _ rfl

theorem multiply_buildTables (e : Bool) (a b : Byte) :
    multiply (buildTables e).exp (buildTables e).log a b = multiplyLong a b := by
  rw [buildTables_exp, buildTables_log, multiply_eq]

/-- Settles O35: the product of the tables as built is the field product. -/
theorem gfMulResult : Obligations.GfMulResult := by
  refine ⟨decodeEncodeRoundTrip .gfMul rfl, fun s ht => ?_⟩
  obtain ⟨t, hexec, hok, hframe, htables, hres⟩ := exec_of_resultWithTables .gfMul ht (Eq.refl (gfMulOutcome s))
  exact ⟨t, hexec, hok, hframe, htables, hres.trans (congrArg zext (multiply_buildTables s.traceEn _ _))⟩

/-- Settles O36: the inverse of the tables as built, whose product with a byte other than 0 is 1. -/
theorem gfInvResult : Obligations.GfInvResult := by
  refine ⟨decodeEncodeRoundTrip .gfInv rfl, fun s ht => ?_⟩
  obtain ⟨t, hexec, hok, hframe, htables, hres⟩ := exec_of_resultWithTables .gfInv ht (Eq.refl (gfInvOutcome s))
  rw [buildTables_exp, buildTables_log] at hres
  refine ⟨t, _, hexec, hok, hframe, htables, hres, fun h => ?_, fun h => multiplyLong_invert _ h⟩
  exact (congrArg _ h).trans invert_zero

end Sys2Proof.Proofs

/-! The S-box and its commands (41_sbox_lut.md), the invariant of the machine that every step keeps, and the tables
that no step writes twice (R175, R180). -/

namespace Sys2Proof.Proofs

open Sys2Proof.Machine Sys2Proof.Laws

/-! ## What every step keeps -/

/-- Two states that differ at most in `CMD`, the operand registers, `RES`, the fault mark and the model's own fields. -/
structure SameProgress (s t : State) : Prop where
  traceEn : t.traceEn = s.traceEn
  done : t.done = s.done
  error : t.error = s.error
  tables : t.tables = s.tables
  sched : t.sched = s.sched
  kt : t.kt = s.kt
  ct : t.ct = s.ct
  rrot : t.rrot = s.rrot
  seq : t.seq = s.seq

theorem SameProgress.outcome {s t : State} (h : SameProgress s t) : t.outcome = s.outcome := by
  have htables : ensureTables t = ensureTables s := by simp only [ensureTables, h.tables, h.seq, h.traceEn]
  unfold State.outcome
  rw [h.seq]
  cases decode s.seq.cur with
  | error _ => rfl
  | ok i => exact outcomeOf_congr i s t (congrArg _ h.seq) htables h.traceEn

/-- The invariant reads the other registers only where it compares them with the operand copies. -/
theorem wf_of_sameProgress {s t : State} (hs : s.Wf) (h : SameProgress s t) (hin : s.busy = true → t.InFlight) :
    t.Wf where
  tables := by simpa only [State.TablesOk, h.tables, h.seq, h.traceEn] using hs.tables
  sched := by simpa only [h.sched] using hs.sched
  traces := by simpa only [State.TracesOk, h.kt, h.ct, h.rrot, h.traceEn] using hs.traces
  errorDone := by simpa only [h.error, h.done] using hs.errorDone
  inFlight := by simpa only [State.busy, h.seq] using hin
  progress := by
    simpa only [State.Progress, State.Passed, State.CipherLoaded, State.CipherAt, h.seq, h.traceEn, h.outcome]
      using hs.progress

/-- The invariant says nothing of the fault mark and the model's own fields. -/
theorem wf_with_port {s : State} (h : s.Wf) (f : Option Fault) (es : List HostEvent) (l : Option (Addr × Word))
    (d : Nat) : ({ s with faulted := f, schedule := es, lastRead := l, draws := d } : State).Wf :=
  wf_of_sameProgress h ⟨rfl, rfl, rfl, rfl, rfl, rfl, rfl, rfl, rfl⟩ h.inFlight

theorem wf_with_schedule {s : State} (h : s.Wf) (es : List HostEvent) : ({ s with schedule := es } : State).Wf :=
  wf_with_port h s.faulted es s.lastRead s.draws

theorem hostRead_wf {s : State} (h : s.Wf) (a : Addr) : (hostRead a s).Wf :=
  wf_with_port h s.faulted s.schedule _ _

theorem accept_wf {s : State} (h : s.Wf) (v : Word) : (accept v s).Wf where
  tables := ⟨h.tables.1, nofun⟩
  sched := h.sched
  traces := h.traces
  errorDone := nofun
  inFlight _ := ⟨rfl, rfl, rfl, rfl⟩
  progress := trivial

theorem writeItem_sameProgress (v : Word) (s : State) {x : Item} (hc : x ≠ .cmd) :
    SameProgress s (writeItem v s x) := by
  cases x with
  | cmd => exact absurd rfl hc
  | _ => exact ⟨rfl, rfl, rfl, rfl, rfl, rfl, rfl, rfl, rfl⟩

/-- What a host write can do: raise the fault mark, submit a command, or store where the invariant does not look. -/
theorem hostWrite_cases (a : Addr) (v : Word) (s : State) :
    (s.busy = true ∧ (hostWrite a v s = { s with faulted := some .hostWriteWhileBusy } ∨ hostWrite a v s = s)) ∨
    (s.busy = false ∧ (hostWrite a v s = accept v s ∨ SameProgress s (hostWrite a v s))) := by
  cases hb : s.busy with
  | true =>
    refine .inl ⟨rfl, ?_⟩
    simp only [hostWrite, hb, if_true]
    split
    · exact .inl rfl
    · exact .inr rfl
  | false =>
    refine .inr ⟨rfl, ?_⟩
    rw [hostWrite_of_idle hb]
    by_cases hc : itemAt a = .cmd
    · rw [hc]
      exact .inl rfl
    · exact .inr (writeItem_sameProgress v s hc)

theorem hostWrite_wf {s : State} (h : s.Wf) (a : Addr) (v : Word) : (hostWrite a v s).Wf := by
  rcases hostWrite_cases a v s with ⟨-, hw | hw⟩ | ⟨hb, hw | hw⟩
  · rw [hw]
    exact wf_with_port h _ s.schedule s.lastRead s.draws
  · rwa [hw]
  · rw [hw]
    exact accept_wf h v
  · exact wf_of_sameProgress h hw fun hb' => absurd (hb.symm.trans hb') Bool.false_ne_true

theorem resetEvent_wf (s : State) : (resetEvent s).Wf where
  tables := ⟨nofun, nofun⟩
  sched := resetMeetsTheInvariant.sched
  traces := ⟨.inl rfl, nofun, nofun, fun _ => ⟨rfl, rfl, rfl⟩⟩
  errorDone := resetMeetsTheInvariant.errorDone
  inFlight := resetMeetsTheInvariant.inFlight
  progress := rfl

theorem outcome_results_ok {s : State} {r : Results} (h : s.outcome = .ok r) : ResultsOk s r := by
  unfold State.outcome at h
  split at h
  · exact outcomeOf_results_ok _ s r h
  · cases h

theorem completeCommand_wf {s t : State} (hs : s.Wf) (h : completeCommand s = .next t) : t.Wf := by
  rcases completeCommand_cases s t h with ⟨-, rfl⟩ | ⟨-, rfl⟩
  · exact commit_wf s _ hs.tables hs.sched hs.traces fun _ => outcome_results_ok
  · exact hs

/-- Settles O23: each of the things that a step can do keeps the invariant. -/
theorem everyStepKeepsTheInvariant : Obligations.EveryStepKeepsTheInvariant := by
  intro s t hs h
  rcases step_next_cases s t h with ⟨-, hc⟩ | ⟨rest, -, hc⟩ | ⟨a, rest, -, rfl⟩ | ⟨a, v, rest, -, rfl⟩ |
    ⟨rest, -, rfl⟩ | ⟨rest, -, rfl⟩
  · exact completeCommand_wf hs hc
  · exact completeCommand_wf (wf_with_schedule hs rest) hc
  · exact hostRead_wf (wf_with_schedule hs rest) a
  · exact hostWrite_wf (wf_with_schedule hs rest) a v
  · exact resetEvent_wf _
  · exact seqTick_wf _ (wf_with_schedule hs rest)

/-! ## Built tables -/

/-- What only a reset takes away: the tables once built, and `SCHED_VALID` (41_sbox_lut.md R180, 10_state.md R34). -/
structure KeepsBuilt (s t : State) : Prop where
  tables : ∀ x, s.tables = some x → t.tables = some x
  schedValid : s.schedValid = true → t.schedValid = true

theorem KeepsBuilt.of_eq {s t : State} (ht : t.tables = s.tables) (hs : t.sched = s.sched) : KeepsBuilt s t :=
  ⟨fun _ h => ht.trans h, fun h => by rwa [State.schedValid, hs]⟩

theorem KeepsBuilt.tablesReady {s t : State} (h : KeepsBuilt s t) (hs : s.tablesReady = true) :
    t.tablesReady = true := by
  obtain ⟨x, hx⟩ := Option.isSome_iff_exists.1 hs
  exact Option.isSome_iff_exists.2 ⟨x, h.tables x hx⟩

/-- A commit writes the tables only where there are none, and never takes a schedule away. -/
theorem commit_keepsBuilt (o : CmdOutcome) (s : State) : KeepsBuilt s (commit o s) := by
  cases o with
  | error c => exact .of_eq rfl rfl
  | ok r =>
    refine ⟨fun x hx => ?_, fun hs => ?_⟩
    · rw [commit_ok_tables, hx, Option.some_or]
    · rw [State.schedValid, commit_ok_sched, Option.isSome_or, ← State.schedValid, hs, Bool.or_true]

theorem completeCommand_keepsBuilt {s t : State} (h : completeCommand s = .next t) : KeepsBuilt s t := by
  rcases completeCommand_cases s t h with ⟨-, rfl⟩ | ⟨-, rfl⟩
  · exact commit_keepsBuilt _ s
  · exact .of_eq rfl rfl

theorem hostWrite_keepsBuilt (a : Addr) (v : Word) (s : State) : KeepsBuilt s (hostWrite a v s) := by
  rcases hostWrite_cases a v s with ⟨-, hw | hw⟩ | ⟨-, hw | hw⟩
  case inr.inr => exact .of_eq hw.tables hw.sched
  all_goals
    rw [hw]
    exact .of_eq rfl rfl

theorem seqTick_keepsBuilt (s : State) : KeepsBuilt s (seqTick s) := by
  by_cases hc : s.seq.phase = .commit
  · have htick : seqTick s = commit s.seq.staged s := by simp only [seqTick, hc]
    rw [htick]
    exact commit_keepsBuilt _ s
  · obtain ⟨q, hq, -⟩ := seqTick_seqStep s hc
    rw [hq]
    exact .of_eq rfl rfl

theorem step_keepsBuilt {s t : State} (h : step s = .next t) (hr : ∀ rest, s.schedule ≠ .reset :: rest) :
    KeepsBuilt s t := by
  have unscheduled : ∀ {rest}, KeepsBuilt { s with schedule := rest } t → KeepsBuilt s t := fun hk =>
    ⟨hk.tables, hk.schedValid⟩
  rcases step_next_cases s t h with ⟨-, hc⟩ | ⟨rest, -, hc⟩ | ⟨a, rest, -, rfl⟩ | ⟨a, v, rest, -, rfl⟩ |
    ⟨rest, hs, -⟩ | ⟨rest, -, rfl⟩
  · exact completeCommand_keepsBuilt hc
  · exact unscheduled (completeCommand_keepsBuilt hc)
  · exact .of_eq rfl rfl
  · exact unscheduled (hostWrite_keepsBuilt a v _)
  · exact absurd hs (hr rest)
  · exact unscheduled (seqTick_keepsBuilt _)

/-- Settles O24: no step but a reset takes built tables away, and the invariant leaves one value for them. -/
theorem builtTablesNeverChange : Obligations.BuiltTablesNeverChange := by
  refine ⟨fun s t h hr => ?_, fun s t x y hs ht he hx hy => ?_⟩
  · have hk := step_keepsBuilt h hr
    exact ⟨hk.tables, hk.tablesReady, hk.schedValid⟩
  · calc
      x = buildTables s.traceEn := hs.tables.1 x hx
      _ = buildTables t.traceEn := by rw [he]
      _ = y := (ht.tables.1 y hy).symm

/-! ## The affine transform -/

/-- A byte assembled from bits, one OR per place, has at each place its bit. -/
theorem getLsbD_assembled (f : Nat → Bool) (n : Nat) {k : Nat} (hk : k < 8) :
    ((List.range n).foldl (fun y j => y ||| ((BitVec.ofBool (f j)).setWidth 8 <<< j)) 0).getLsbD k =
      (decide (k < n) && f k) := by
  induction n with
  | zero => simp
  | succ n ih =>
    rw [List.range_succ, List.foldl_append, List.foldl_cons, List.foldl_nil, BitVec.getLsbD_or, ih]
    rcases Nat.lt_trichotomy k n with h | rfl | h
    · simp [h, Nat.lt_succ_of_lt h]
    · simp [hk]
    · have h1 : k - n ≠ 0 := by omega
      simp [h1, Nat.not_lt.2 h.le, Nat.not_lt.2 (Nat.succ_le_of_lt h)]

/-- The bits of the affine transform (41_sbox_lut.md R170). -/
theorem getLsbD_affine (x : Byte) {j : Nat} (hj : j < 8) : (affine x).getLsbD j = affineBit x j := by
  rw [affine, getLsbD_assembled (affineBit x) 8 hj, decide_eq_true hj, Bool.true_and]

/-- A rotation to the left by r brings to place j the bit that stands 8 − r places above it. -/
theorem getLsbD_rotateLeft_byte (x : Byte) {r k j : Nat} (hrk : r + k = 8) (hk : 0 < k) (hj : j < 8) :
    (x.rotateLeft r).getLsbD j = x.getLsbD ((j + k) % 8) := by
  rw [BitVec.getLsbD_rotateLeft, Nat.mod_eq_of_lt (by omega : r < 8)]
  by_cases h : j < r
  · rw [decide_eq_true h, cond_true, show (j + k) % 8 = 8 - r + j by omega]
  · rw [decide_eq_false h, cond_false, decide_eq_true hj, Bool.true_and, show (j + k) % 8 = j - r by omega]

/-- The affine transform as the XOR of rotations that the construction trace shows (41_sbox_lut.md R174). -/
theorem affine_eq_xor_rotations (x : Byte) : affine x =
    x ^^^ x.rotateLeft 1 ^^^ x.rotateLeft 2 ^^^ x.rotateLeft 3 ^^^ x.rotateLeft 4 ^^^ 0x63#8 := by
  apply BitVec.eq_of_getLsbD_eq
  intro j hj
  have h1 := getLsbD_rotateLeft_byte x (r := 1) (k := 7) rfl (by decide) hj
  have h2 := getLsbD_rotateLeft_byte x (r := 2) (k := 6) rfl (by decide) hj
  have h3 := getLsbD_rotateLeft_byte x (r := 3) (k := 5) rfl (by decide) hj
  have h4 := getLsbD_rotateLeft_byte x (r := 4) (k := 4) rfl (by decide) hj
  simp only [getLsbD_affine x hj, affineBit, BitVec.getLsbD_xor, h1, h2, h3, h4, Bool.xor_assoc, Bool.xor_comm,
    Bool.xor_left_comm]

/-! ## The S-boxes and the construction trace -/

/-- A byte has one inverse in the field. -/
theorem invert_eq_of_product_one {a b : Byte} (h : multiplyLong a b = 1) : invert expTable logTable a = b := by
  have ha : a ≠ 0 := by
    rintro rfl
    rw [multiplyLong_zero_left] at h
    exact absurd h (by decide)
  calc
    invert expTable logTable a = multiplyLong (invert expTable logTable a) (multiplyLong a b) := by
      rw [h, multiplyLong_comm, multiplyLong_one]
    _ = multiplyLong (multiplyLong a (invert expTable logTable a)) b := by
      rw [multiplyLong_assoc, multiplyLong_comm (invert expTable logTable a) a]
    _ = b := by rw [multiplyLong_invert a ha, multiplyLong_one]

/-- The S-box takes 0 to 0x63 (41_sbox_lut.md R173). -/
theorem sbox_zero (e : Bool) : tableAt (buildTables e).sbox 0 = 0x63 := by
  rw [sbox_entry, invert_zero]
  decide

/-- The S-box takes 0x52 to 0: the inverse of 0x52 is 0x05. -/
theorem sbox_0x52 (e : Bool) : tableAt (buildTables e).sbox 0x52 = 0 := by
  rw [sbox_entry, invert_eq_of_product_one (b := 0x05) (by decide)]
  decide

/-- Settles O31: the laws of the two tables, and the inverse table at the images of 0 and 0x52. -/
theorem sboxesAreInverse : Obligations.SboxesAreInverse := by
  refine ⟨fun e b => ⟨invSbox_sbox e b, sbox_invSbox e b, sbox_ne e b, invSbox_ne e b⟩, invert_zero, fun e => ?_⟩
  have h63 := invSbox_sbox e 0
  have h52 := invSbox_sbox e 0x52
  rw [sbox_zero] at h63
  rw [sbox_0x52] at h52
  exact ⟨(sbox_entry e 0).trans (congrArg affine invert_zero), by decide, h63, h52, sbox_0x52 e⟩

theorem buildTables_sbt_true : (buildTables true).sbt =
    allBytes.map (sbtEntry expTable logTable (buildTables true).sbox) := by
  simp only [buildTables, if_true]

theorem buildTables_sbt_getElem? (b : Byte) : (buildTables true).sbt[b.toNat]? =
    some (sbtEntry expTable logTable (buildTables true).sbox b) := by
  rw [buildTables_sbt_true, List.getElem?_map, allBytes, List.getElem?_map, List.getElem?_range b.isLt]
  simp only [Option.map_some, BitVec.ofNat_toNat, BitVec.setWidth_eq]

/-- Settles O32: entry b is the one made for the byte b, and its S-box byte the XOR of the rotations it shows. -/
theorem constructionTraceEntries : Obligations.ConstructionTraceEntries := by
  refine ⟨rfl, ?_, fun b => ⟨_, buildTables_sbt_getElem? b, rfl, rfl, rfl, rfl, rfl, rfl, ?_⟩⟩
  · rw [buildTables_sbt_true, List.length_map, allBytes, List.length_map, List.length_range]
  · exact (sbox_entry true b).trans (affine_eq_xor_rotations _)

/-! ## The commands -/

/-- A commit sets all that acceptance sets but `CMD`. -/
theorem commit_accept (o : CmdOutcome) (v : Word) (s : State) :
    commit o (accept v s) = commit o { s with cmd := v } := by
  cases o <;> rfl

theorem cmd_of_frame {w : Writes} {s t : State} (h : FrameExcept w s t) : t.cmd = s.cmd := by
  obtain ⟨⟨-, hcmd, -⟩, -⟩ := h
  exact hcmd

/-- Settles O37: both outcomes are successes, and a commit keeps built tables. -/
theorem buildTablesAndNopResults : Obligations.BuildTablesAndNopResults := by
  have hnop : ∀ s : State, ∃ t, exec .nop s = .next t ∧ Succeeded t ∧ FrameExcept {} s t := fun s => by
    obtain ⟨t, hexec, hok, hframe, -⟩ := exec_of_outcome_ok (i := .nop) (Eq.refl (nopOutcome s))
    exact ⟨t, hexec, hok, hframe⟩
  refine ⟨decodeEncodeRoundTrip .buildTables rfl, decodeEncodeRoundTrip .nop rfl, fun s ht => ?_, hnop, fun s hb => ?_⟩
  · obtain ⟨t, hexec, hok, hframe, -, htables⟩ :=
      exec_of_outcome_ok (i := .buildTables) (Eq.refl (buildTablesOutcome s))
    refine ⟨t, hexec, hok, hframe, ?_, fun hne => ?_⟩
    · rw [htables, tables_or_ensureTables, ensureTables_of_ok s ht]
    · obtain ⟨x, hx⟩ := Option.ne_none_iff_exists'.1 hne
      rw [htables, hx, Option.some_or]
  · obtain ⟨t, hexec, hok, hframe⟩ := hnop { s with cmd := 0x00000000 }
    have hwrite : hostWrite cmdAddr 0x00000000 s = accept 0x00000000 s := hostWrite_of_idle hb cmdAddr 0x00000000
    refine ⟨t, ?_, hok, cmd_of_frame hframe, hframe⟩
    rw [← hexec, hwrite, exec_eq_commit, commit_accept]
    rfl

theorem getLsbD_lowByte (v : Word) {j : Nat} (hj : j < 8) : (lowByte v).getLsbD j = v.getLsbD j := by
  simp [lowByte, hj]

/-- Settles O38: the command reads no table, and its result is the transform, bit by bit. -/
theorem gfAffineResult : Obligations.GfAffineResult := by
  refine ⟨decodeEncodeRoundTrip .gfAffine rfl, fun s => ?_⟩
  obtain ⟨t, hexec, hok, hframe, hres⟩ := exec_of_resultOnly .gfAffine (Eq.refl (gfAffineOutcome s))
  refine ⟨t, _, hexec, hok, hframe, hres, fun j => ?_⟩
  have hmod : ∀ n, n % 8 < 8 := fun n => Nat.mod_lt n (by decide)
  simp only [getLsbD_affine _ j.isLt, affineBit, byteA, getLsbD_lowByte _ j.isLt, getLsbD_lowByte _ (hmod _)]

/-- Settles O39: each looks up the tables as built, whose entries the affine transform of the inverse gives. -/
theorem sboxLookupResults : Obligations.SboxLookupResults := by
  refine ⟨decodeEncodeRoundTrip .sboxLookup rfl, decodeEncodeRoundTrip .invSboxLookup rfl, fun s ht => ?_,
    fun s ht => ?_⟩
  · obtain ⟨t, hexec, hok, hframe, htables, hres⟩ :=
      exec_of_resultWithTables .sboxLookup ht (Eq.refl (sboxLookupOutcome s))
    exact ⟨t, hexec, hok, hframe, htables, hres.trans (congrArg zext (sbox_entry s.traceEn _))⟩
  · obtain ⟨t, hexec, hok, hframe, htables, hres⟩ :=
      exec_of_resultWithTables .invSboxLookup ht (Eq.refl (invSboxLookupOutcome s))
    refine ⟨t, _, hexec, hok, hframe, htables, hres, ?_⟩
    rw [← sbox_entry s.traceEn]
    exact sbox_invSbox s.traceEn _

end Sys2Proof.Proofs

/-! The key schedule (42_key_schedule.md): ROT_WORD and SUB_WORD (R208, R209), the recurrence and the trace of the
expansion (R204, R205), and EXPAND_KEY (R210). -/

namespace Sys2Proof.Proofs

open Sys2Proof.Machine Sys2Proof.Laws

/-! ## The expansion -/

theorem expand_w_length_of_key (t : FieldTables) {size : KeySize} {key : List Quad} (hl : key.length = size.nk) :
    (expand t size key).w.length = size.words := by
  rw [expand, expandSteps_w_length, hl, Nat.add_sub_cancel' (nk_le_words size)]

/-- The expansion appends to the key and never changes it (42_key_schedule.md R204). -/
theorem expand_key_word (t : FieldTables) (size : KeySize) {key : List Quad} {j : Nat} (hj : j < key.length) :
    (expand t size key).w[j]? = key[j]? := by
  rw [expand, ← Nat.zero_add (size.words - size.nk), expandSteps_getElem?_stable _ _ _ 0 _ j hj, expandSteps_zero]

/-- `expand_entry` in the index of the rule, which counts the words from the key's first. -/
theorem expand_entry_at (t : FieldTables) {size : KeySize} {key : List Quad} (hl : key.length = size.nk) {i : Nat}
    (hlo : size.nk ≤ i) (hhi : i < size.words) :
    ∃ e prev temp, (expand t size key).kt[i - size.nk]? = some e ∧ (expand t size key).w[i - size.nk]? = some prev ∧
      (expand t size key).w[i - 1]? = some temp ∧ (expand t size key).w[i]? = some e.fin ∧
      EntryOf t size.nk i prev temp e := by
  obtain ⟨n, rfl⟩ := Nat.exists_eq_add_of_le hlo
  rw [Nat.add_sub_cancel_left]
  exact expand_entry t size key hl n hhi

/-- The three cases of 42_key_schedule.md R204 as one equation. -/
theorem fin_eq_of_entryOf {t : FieldTables} {nk i : Nat} {prev temp : Quad} {e : KtEntry}
    (h : EntryOf t nk i prev temp e) : e.fin = prev.xor
      (if i % nk = 0 then (substituteWord t (rotateWord temp)).xor (rcon (i / nk))
       else if nk = 8 ∧ i % nk = 4 then substituteWord t temp else temp) := by
  split_ifs with hm hf
  · obtain ⟨_, _, _, -, -, -, rfl, rfl, rfl, -, hfin⟩ := h.atMultiple hm
    exact hfin
  · obtain ⟨-, -, -, -, hfin⟩ := h.atFour hm hf
    exact hfin
  · obtain ⟨-, -, -, -, hfin⟩ := h.elsewhere hm hf
    exact hfin

/-- The remainder by Nk is tested for 4 only where Nk is 8. -/
theorem nk_eq_eight_and_mod_iff {nk i : Nat} : nk = 8 ∧ i % 8 = 4 ↔ nk = 8 ∧ i % nk = 4 :=
  and_congr_right fun h => by rw [h]

/-- The round constants written out (42_key_schedule.md R203). -/
theorem doublings_eq_getD : ∀ n < 10, doublings n =
    ([0x01, 0x02, 0x04, 0x08, 0x10, 0x20, 0x40, 0x80, 0x1B, 0x36] : List Byte).getD n 0 := by
  decide

/-- An expansion uses the round constants 1 to 10 only (42_key_schedule.md R203, log 11). -/
theorem rcon_index_bounds {size : KeySize} {i : Nat} (hlo : size.nk ≤ i) (hhi : i < size.words) :
    1 ≤ i / size.nk ∧ i / size.nk ≤ 10 := by
  cases size <;> simp only [KeySize.words, KeySize.nr, KeySize.nk] at * <;> omega

/-- Settles O42: each word is the last word of its trace entry, in the three cases of R204. -/
theorem expansionRecurrence : Obligations.ExpansionRecurrence := by
  refine ⟨⟨rfl, rfl, rfl, rfl, rfl, rfl⟩, fun t size key hl => ?_⟩
  refine ⟨rfl, expand_w_length_of_key t hl, fun j hj => expand_key_word t size (hl ▸ hj), fun i hlo hhi => ?_⟩
  obtain ⟨e, prev, temp, -, hprev, htemp, hw, he⟩ := expand_entry_at t hl hlo hhi
  obtain ⟨h1, h10⟩ := rcon_index_bounds hlo hhi
  refine ⟨prev, temp, hprev, htemp, h1, h10, ?_⟩
  rw [hw, fin_eq_of_entryOf he, rcon, doublings_eq_getD _ (by omega)]
  simp only [nk_eq_eight_and_mod_iff]
  rfl

/-- Settles O43: each entry of the trace is the one its pass made, with the fields of the pass's case. -/
theorem keyTraceEntries : Obligations.KeyTraceEntries := by
  refine fun t size key hl => ⟨expandSteps_kt_length .., fun i hlo hhi => ?_⟩
  obtain ⟨e, prev, temp, hkt, hprev, htemp, hw, he⟩ := expand_entry_at t hl hlo hhi
  refine ⟨e, prev, temp, hkt, hprev, htemp, he.indexIs, he.tempIs, he.prevIs, hw, he.atMultiple, ?_⟩
  rw [nk_eq_eight_and_mod_iff]
  exact ⟨he.atFour, he.elsewhere⟩

/-! ## The commands -/

theorem pack_rotateWord_unpack (v : Word) : pack (rotateWord (unpack v)) = (v <<< 8) ||| (v >>> 24) := by
  apply BitVec.eq_of_getLsbD_eq
  intro i hi
  simp only [pack, rotateWord, unpack, BitVec.getLsbD_append, BitVec.getLsbD_extractLsb', BitVec.getLsbD_or,
    BitVec.getLsbD_shiftLeft, BitVec.getLsbD_ushiftRight]
  interval_cases i <;> simp

/-- Settles O40: the command reads no table, and the rotation by a byte is the rotation by 8 bits. -/
theorem rotWordResult : Obligations.RotWordResult := by
  refine ⟨decodeEncodeRoundTrip .rotWord rfl, fun s => ?_⟩
  rw [← pack_rotateWord_unpack]
  exact exec_of_resultOnly .rotWord (Eq.refl (rotWordOutcome s))

/-- A byte function on every byte of a word acts on each byte of the register that holds it. -/
theorem extractLsb'_pack_map_unpack (f : Byte → Byte) (v : Word) (k : Fin 4) :
    (pack ((unpack v).map f)).extractLsb' (8 * k) 8 = f (v.extractLsb' (8 * k) 8) := by
  have h := unpack_pack ((unpack v).map f)
  fin_cases k
  exacts [congrArg Quad.b3 h, congrArg Quad.b2 h, congrArg Quad.b1 h, congrArg Quad.b0 h]

/-- Settles O41: the command looks up each byte in the tables as built. -/
theorem subWordResult : Obligations.SubWordResult := by
  refine ⟨decodeEncodeRoundTrip .subWord rfl, fun s ht => ?_⟩
  obtain ⟨t, hexec, hok, hframe, htables, hres⟩ := exec_of_resultWithTables .subWord ht (Eq.refl (subWordOutcome s))
  refine ⟨t, hexec, hok, hframe, htables, fun k => ?_⟩
  rw [hres]
  exact extractLsb'_pack_map_unpack _ _ k

theorem expandKeyOutcome_of_keyConfig {s : State} {size : KeySize} (ht : s.TablesOk)
    (h : keyConfig s.seq.ops = .ok size) : expandKeyOutcome s =
      .ok (expansionResults s size (expand (buildTables s.traceEn) size (keyWords s.seq.ops size))) := by
  rw [expandKeyOutcome, h, ← ensureTables_of_ok s ht]
  rfl

/-- A trace is stored when the build has traces; without them the one held stays (10_state.md R45). -/
theorem ifTraced_getD {α : Type} (s : State) (x y : α) : (ifTraced s x).getD y = if s.traceEn then x else y := by
  unfold ifTraced
  split <;> rfl

theorem statusWord_of_sched {s : State} {x : Schedule} (h : s.sched = some x) :
    (statusWord s).getLsbD 9 = true ∧ (statusWord s).extractLsb' 16 4 = BitVec.ofNat 4 x.size.nk ∧
    (statusWord s).extractLsb' 24 4 = BitVec.ofNat 4 x.size.nr := by
  obtain ⟨-, -, -, -, hvalid, -⟩ := statusWord_bits s
  obtain ⟨-, hnk, hnr⟩ := statusWord_fields s
  rw [hvalid, hnk, hnr]
  simp [State.schedValid, State.nkField, State.nrField, h]

/-- Settles O44: the command commits the expansion of the captured key, made with the tables as built. -/
theorem expandKeyResult : Obligations.ExpandKeyResult := by
  refine ⟨decodeEncodeRoundTrip .expandKey rfl, fun s size ht hlen => ?_⟩
  have hout : outcomeOf .expandKey s =
      .ok (expansionResults s size (expand (buildTables s.traceEn) size (keyWords s.seq.ops size))) :=
    expandKeyOutcome_of_keyConfig ht ((keyConfig_ok_iff _ size).2 hlen)
  obtain ⟨t, hexec, hok, hframe, -, htables⟩ := exec_of_outcome_ok hout
  have hcommit := eq_commit_of_exec hexec
  rw [hout] at hcommit
  have hbuilt := htables.trans (tables_or_ensureTables s)
  rw [ensureTables_of_ok s ht] at hbuilt
  have hsched : t.sched = some { size := size, words := _ } := congrArg State.sched hcommit
  obtain ⟨hvalid, hnk, hnr⟩ := statusWord_of_sched hsched
  exact ⟨t, hexec, hok, hframe, hbuilt, hsched, hvalid, hnk, hnr,
    (congrArg State.kt hcommit).trans (ifTraced_getD s _ _)⟩

end Sys2Proof.Proofs

/-! The state commands (43_state_transform.md): where ShiftRows moves a byte (R232), the laws of the primitives (R240),
and SUB_BYTES, SHIFT_ROWS, their inverses and ADD_ROUND_KEY (R235 to R239). -/

namespace Sys2Proof.Proofs

open Sys2Proof.Machine Sys2Proof.Laws

/-! ## Rotations of a row -/

theorem bytes_rotateWord (q : Quad) (c : Fin 4) : (rotateWord q).bytes[c.val]? = q.bytes[(c.val + 1) % 4]? := by
  fin_cases c <;> rfl

theorem bytes_iterate_rotateWord (n : Nat) (q : Quad) (c : Fin 4) :
    (rotateWord^[n] q).bytes[c.val]? = q.bytes[(c.val + n) % 4]? := by
  induction n generalizing c with
  | zero => rw [Function.iterate_zero_apply, Nat.add_zero, Nat.mod_eq_of_lt c.isLt]
  | succ n ih =>
    rw [Function.iterate_succ_apply', bytes_rotateWord, ih ⟨(c.val + 1) % 4, Nat.mod_lt _ (by decide)⟩,
      Nat.mod_add_mod, Nat.add_right_comm, Nat.add_assoc]

theorem rotationSnaps_getElem? (q : Quad) {n k : Nat} (hk : k < n) :
    (rotationSnaps n q)[k]? = some (rotateWord^[k + 1] q) := by
  induction n generalizing q k with
  | zero => exact absurd hk (Nat.not_lt_zero k)
  | succ n ih =>
    cases k with
    | zero => rfl
    | succ k =>
      rw [Function.iterate_succ_apply, ← ih (rotateWord q) (Nat.lt_of_succ_lt_succ hk)]
      rfl

/-- After the last snapshot the row has been rotated as often as there are snapshots. -/
theorem rotationSnaps_getLastD (n : Nat) (q : Quad) : (rotationSnaps n q).getLastD q = rotateWord^[n] q := by
  induction n generalizing q with
  | zero => rfl
  | succ n ih => rw [Function.iterate_succ_apply, ← ih, rotationSnaps, List.getLastD_cons]

theorem shiftedRow_eq_iterate (d : Bool) (s : Block) (r : Fin 4) :
    shiftedRow d s r = rotateWord^[rotationCount d r] (s.row r) :=
  rotationSnaps_getLastD _ _

/-! ## Where ShiftRows moves a byte -/

theorem bytes_row (s : Block) (r c : Fin 4) : (s.row r).bytes[c.val]? = some (s.byte (4 * c + r)) := by
  fin_cases r <;> fin_cases c <;> rfl

theorem row_shiftRows (d : Bool) (s : Block) (r : Fin 4) : (shiftRows d s).row r = shiftedRow d s r := by
  fin_cases r <;> rfl

theorem rows_shiftTrace (d : Bool) (s : Block) (r : Fin 4) : (shiftTrace d s).rows[r] = rowSnaps d s r := by
  fin_cases r <;> rfl

/-- A row rotated `n` places holds at column `c` what the row held `n` columns further, cyclically. -/
theorem bytes_iterate_rotateWord_row (s : Block) (r c : Fin 4) (n : Nat) :
    (rotateWord^[n] (s.row r)).bytes[c.val]? = some (s.byte (4 * ((c.val + n) % 4) + r)) := by
  rw [bytes_iterate_rotateWord]
  exact bytes_row s r ⟨(c.val + n) % 4, Nat.mod_lt _ (by decide)⟩

/-- The shifted block holds at column `j` of row `r` the byte from as many columns further as the row is rotated, so a
column that the rotation count takes to `c` receives the byte of column `c`. -/
theorem byte_shiftRows (d : Bool) (s : Block) {r c : Fin 4} {j : Nat} (hj : j < 4)
    (h : (j + rotationCount d r) % 4 = c) : (shiftRows d s).byte (4 * j + r) = s.byte (4 * c + r) := by
  have hnew := bytes_row (shiftRows d s) r ⟨j, hj⟩
  have hold := bytes_iterate_rotateWord_row s r ⟨j, hj⟩ (rotationCount d r)
  rw [row_shiftRows, shiftedRow_eq_iterate, hold, h] at hnew
  exact (Option.some.inj hnew).symm

theorem rotationCount_false (r : Fin 4) : rotationCount false r = r := by
  fin_cases r <;> rfl

theorem rotationCount_true (r : Fin 4) : rotationCount true r = (4 - r.val) % 4 := by
  fin_cases r <;> rfl

theorem length_row_shiftTrace (d : Bool) (s : Block) (r : Fin 4) :
    (shiftTrace d s).rows[r].length = rotationCount d r :=
  shiftTrace_ok d s r

theorem bytes_snapshot {d : Bool} {s : Block} {r : Fin 4} {k : Nat} {q : Quad}
    (h : (shiftTrace d s).rows[r][k]? = some q) (c : Fin 4) :
    q.bytes[c.val]? = some (s.byte (4 * ((c.val + k + 1) % 4) + r)) := by
  obtain ⟨hk, -⟩ := List.getElem?_eq_some_iff.1 h
  rw [length_row_shiftTrace] at hk
  rw [rows_shiftTrace, rowSnaps, rotationSnaps_getElem? _ hk] at h
  rw [← Option.some.inj h, bytes_iterate_rotateWord_row, Nat.add_assoc]

/-- Settles O46: the rotation counts, and the column from which each byte of a rotated row comes. -/
theorem shiftRowsMovesTheRows : Obligations.ShiftRowsMovesTheRows := by
  refine fun s r c => ⟨byte_shiftRows false s (Nat.mod_lt _ (by decide)) ?_,
    byte_shiftRows true s (Nat.mod_lt _ (by decide)) ?_, ?_, ?_, fun d k q h => bytes_snapshot h c⟩
  · rw [rotationCount_false]
    omega
  · rw [rotationCount_true]
    omega
  · rw [length_row_shiftTrace, rotationCount_false]
  · rw [length_row_shiftTrace, rotationCount_true]

/-- Settles O47: the laws of the primitives, each in both directions. -/
theorem statePrimitiveLaws : Obligations.StatePrimitiveLaws :=
  fun e i i' s k => ⟨subBytes_inverse e false s, subBytes_inverse e true s, shiftRows_inverse false s,
    shiftRows_inverse true s, addRoundKey_cancel s k, shiftRows_subBytes (buildTables e) i i' s⟩

/-! ## The commands -/

/-- A command whose outcome is a success with a block commits it to `STATE`, within its row of 10_state.md R52. -/
theorem exec_of_outcome_block (i : Instr) {s : State} {r : Results} {b : Block} (h : outcomeOf i s = .ok r)
    (hb : r.block = some b) :
    ∃ t, exec i s = .next t ∧ Succeeded t ∧ FrameExcept (writesOf i) s t ∧ t.stateReg = b.toRegs ∧
      t.tables = s.tables.or r.tables ∧ t.rrot = r.rrot.or s.rrot := by
  obtain ⟨t, hexec, hok, hframe, -, htables⟩ := exec_of_outcome_ok h
  have hcommit := eq_commit_of_exec hexec
  rw [h] at hcommit
  refine ⟨t, hexec, hok, hframe, ?_, htables, ?_⟩
  · rw [hcommit, commit_ok_stateReg, hb, Option.map_some, Option.getD_some]
  · rw [hcommit, commit_ok_rrot]

/-- A state command that reads the tables puts the new block in `STATE`, made with the tables as built and leaving them
built. -/
theorem exec_of_blockWithTables (i : Instr) {s : State} {f : FieldTables → Block → Block} (ht : s.TablesOk)
    (hlen : s.seq.ops.blklen = 16) (h : outcomeOf i s = blockWithTables s f) :
    ∃ t, exec i s = .next t ∧ Succeeded t ∧ FrameExcept (writesOf i) s t ∧ t.tables = some (buildTables s.traceEn) ∧
      Block.ofRegs t.stateReg = f (buildTables s.traceEn) (blockS s.seq.ops) := by
  rw [blockWithTables, checkBlock_ok _ hlen] at h
  obtain ⟨t, hexec, hok, hframe, hstate, htables, -⟩ := exec_of_outcome_block i h rfl
  have hens := ensureTables_of_ok s ht
  refine ⟨t, hexec, hok, hframe, ?_, ?_⟩
  · rw [htables, tables_or_ensureTables, hens]
  · rw [hstate, ofRegs_toRegs, hens]

theorem byte_subBytes (t : FieldTables) (d : Bool) (s : Block) (j : Fin 16) :
    (subBytes t d s).byte j = tableAt (if d then t.invSbox else t.sbox) (s.byte j) := by
  fin_cases j <;> rfl

/-- Settles O49: both commands map every byte through a box of the tables as built. -/
theorem subBytesResults : Obligations.SubBytesResults := by
  refine ⟨decodeEncodeRoundTrip .subBytes rfl, decodeEncodeRoundTrip .invSubBytes rfl, fun s ht hlen => ⟨?_, ?_⟩⟩
  · obtain ⟨t, hexec, hok, hframe, htables, hblock⟩ :=
      exec_of_blockWithTables .subBytes ht hlen (Eq.refl (subBytesOutcome s))
    exact ⟨t, hexec, hok, hframe, htables, fun j => hblock ▸ byte_subBytes _ false _ j⟩
  · obtain ⟨t, hexec, hok, hframe, htables, hblock⟩ :=
      exec_of_blockWithTables .invSubBytes ht hlen (Eq.refl (invSubBytesOutcome s))
    exact ⟨t, hexec, hok, hframe, htables, fun j => hblock ▸ byte_subBytes _ true _ j⟩

/-- A trace of this evaluation replaces the one held, in a build with traces only (43_state_transform.md R232). -/
theorem ifTraced_or {α : Type} (s : State) (x : α) (y : Option α) :
    (ifTraced s x).or y = if s.traceEn then some x else y := by
  unfold ifTraced
  split <;> rfl

theorem exec_of_blockShifted (i : Instr) {s : State} {d : Bool} (hlen : s.seq.ops.blklen = 16)
    (h : outcomeOf i s = blockShifted s d) :
    ∃ t, exec i s = .next t ∧ Succeeded t ∧ FrameExcept (writesOf i) s t ∧
      t.stateReg = (shiftRows d (blockS s.seq.ops)).toRegs ∧
      t.rrot = if s.traceEn then some (shiftTrace d (blockS s.seq.ops)) else s.rrot := by
  rw [blockShifted, checkBlock_ok _ hlen] at h
  obtain ⟨t, hexec, hok, hframe, hstate, -, hrrot⟩ := exec_of_outcome_block i h rfl
  exact ⟨t, hexec, hok, hframe, hstate, hrrot.trans (ifTraced_or s _ _)⟩

/-- Settles O50: the two commands differ in the direction only. -/
theorem shiftRowsResults : Obligations.ShiftRowsResults :=
  ⟨decodeEncodeRoundTrip .shiftRows rfl, decodeEncodeRoundTrip .invShiftRows rfl, fun _ hlen =>
    ⟨exec_of_blockShifted .shiftRows hlen rfl, exec_of_blockShifted .invShiftRows hlen rfl⟩⟩

theorem encode_addRoundKey_eq :
    ∀ r : Fin 16, encode (.addRoundKey r) = 0x00000033#32 ||| (BitVec.ofNat 32 r <<< 16) := by
  decide

theorem toRegs_addRoundKey (v : Vector Word 4) (k : Block) (c : Fin 4) :
    (addRoundKey (Block.ofRegs v) k).toRegs[c] = v[c] ^^^ k.toRegs[c] := by
  have hcol : ∀ (w : Word) (q : Quad), pack ((unpack w).xor q) = w ^^^ pack q := fun w q => by
    rw [pack_xor, pack_unpack]
  fin_cases c <;> exact hcol _ _

/-- Round key `r` in registers is the words `4r .. 4r + 3` of the schedule (42_key_schedule.md R206). -/
theorem toRegs_roundKey (w : List Word) (r : Nat) (c : Fin 4) :
    (roundKey (w.map unpack) r).toRegs[c] = w.getD (4 * r + c) 0 := by
  have hword : ∀ n, pack ((w.map unpack).getD n zeroQuad) = w.getD n 0 := fun n =>
    (congrArg pack (List.getD_map w (0 : Word) unpack)).trans (pack_unpack _)
  fin_cases c <;> exact hword _

/-- Settles O53: the round key is in range, and each register is XORed with its word. -/
theorem addRoundKeyResult : Obligations.AddRoundKeyResult := by
  refine ⟨fun r => ?_, fun s x r hlen hx _ hr => ?_⟩
  · rw [← encode_addRoundKey_eq]
    exact decodeEncodeRoundTrip (.addRoundKey r) (decide_eq_true r.isLt)
  · have hout : outcomeOf (.addRoundKey r) s =
        .ok { block := some (addRoundKey (blockS s.seq.ops) (roundKey (x.words.map unpack) r)) } := by
      rw [outcomeOf, addRoundKeyOutcome, checkBlock_ok _ hlen, roundKeyOperand_ok _ r x hx hr]
      rfl
    obtain ⟨t, hexec, hok, hframe, hstate, -, -⟩ := exec_of_outcome_block (.addRoundKey r) hout rfl
    refine ⟨t, hexec, hok, hframe, fun c => ?_⟩
    rw [hstate, blockS, toRegs_addRoundKey, toRegs_roundKey]

end Sys2Proof.Proofs

/-! MixColumns (44_mixcolumns.md): the matrix products row by row (R260, R261), their laws (R263), and MIX_COLUMNS and
INV_MIX_COLUMNS column by column (R262, R264, R265). -/

namespace Sys2Proof.Proofs

open Sys2Proof.Machine Sys2Proof.Laws

/-! ## The column product -/

/-- A row of the product as one chain of sums: the grouping of R261 does not matter. -/
theorem mixRow_eq_chain (e : Bool) (m c : Quad) : mixRow (buildTables e) m c =
    multiplyLong m.b0 c.b0 ^^^ multiplyLong m.b1 c.b1 ^^^ multiplyLong m.b2 c.b2 ^^^ multiplyLong m.b3 c.b3 := by
  rw [mixRow_eq, ← BitVec.xor_assoc]

/-- Settles O52: each row is its chain of products, where a coefficient 1 leaves the byte as it is. -/
theorem mixColumnIsTheMatrixProduct : Obligations.MixColumnIsTheMatrixProduct := by
  refine fun e c => ⟨?_, ?_⟩
  · simp only [mixColumn, mixRow_eq_chain, mixMatrix, Bool.false_eq_true, if_false, multiplyLong_one]
  · simp only [mixColumn, mixRow_eq_chain, mixMatrix, if_true]

/-- Settles O48: the coefficients of a row sum to 1, and the laws of one column carry over to the block. -/
theorem mixColumnsLaws : Obligations.MixColumnsLaws :=
  ⟨by decide, by decide, fun e i c d s b => ⟨mixColumn_inverse e false c, mixColumn_inverse e true c,
    mixColumns_inverse e false s, mixColumns_inverse e true s, mixColumn_xor e i c d, mixColumn_const e i b⟩⟩

/-! ## The commands -/

/-- A column function on a block held in registers acts on each register on its own (44_mixcolumns.md R262). -/
theorem toRegs_mapCols_ofRegs (f : Quad → Quad) (v : Vector Word 4) (c : Fin 4) :
    ((Block.ofRegs v).mapCols f).toRegs[c] = pack (f (unpack v[c])) := by
  fin_cases c <;> rfl

/-- Either command mixes each register of `STATE` in its direction, with the tables as built. -/
theorem exec_of_blockMixed (i : Instr) {s : State} {d : Bool} (ht : s.TablesOk) (hlen : s.seq.ops.blklen = 16)
    (h : outcomeOf i s = blockWithTables s (fun t => mixColumns t d)) :
    ∃ t, exec i s = .next t ∧ Succeeded t ∧ FrameExcept (writesOf i) s t ∧ t.tables = some (buildTables s.traceEn) ∧
      ∀ c : Fin 4, t.stateReg[c] = pack (mixColumn (buildTables s.traceEn) d (unpack s.seq.ops.stateReg[c])) := by
  obtain ⟨t, hexec, hok, hframe, htables, hblock⟩ := exec_of_blockWithTables i ht hlen h
  refine ⟨t, hexec, hok, hframe, htables, fun c => ?_⟩
  rw [← toRegs_ofRegs t.stateReg, hblock]
  exact toRegs_mapCols_ofRegs _ _ c

/-- Settles O51: the forward mixing of an inversely mixed column is the column. -/
theorem mixColumnsResults : Obligations.MixColumnsResults := by
  refine ⟨decodeEncodeRoundTrip .mixColumns rfl, decodeEncodeRoundTrip .invMixColumns rfl, fun s ht hlen =>
    ⟨exec_of_blockMixed .mixColumns ht hlen rfl, ?_⟩⟩
  obtain ⟨t, hexec, hok, hframe, htables, hcols⟩ := exec_of_blockMixed .invMixColumns ht hlen rfl
  refine ⟨t, hexec, hok, hframe, htables, fun c => ?_⟩
  rw [hcols, unpack_pack]
  exact (congrArg pack (mixColumn_inverse s.traceEn true _)).trans (pack_unpack _)

end Sys2Proof.Proofs

/-! The command lifecycle (45_cipher_fsm.md §1): acceptance of a command word (R281), what a step does with the word in
flight (R280, R282, R283), and the ticks before COMMIT (R282). -/

namespace Sys2Proof.Proofs

open Sys2Proof.Machine Sys2Proof.Laws

/-! ## Acceptance -/

theorem hostWrite_cmdAddr_of_idle {s : State} (h : s.busy = false) (v : Word) : hostWrite cmdAddr v s = accept v s :=
  hostWrite_of_idle h cmdAddr v

theorem hostWrite_cmdAddr_of_busy {s : State} (h : s.busy = true) (v : Word) :
    hostWrite cmdAddr v s = { s with faulted := some .hostWriteWhileBusy } := by
  rw [hostWrite, if_pos h]
  rfl

/-- Acceptance stores the word in `CMD` and touches no result (45_cipher_fsm.md R281). -/
theorem accept_frame (v : Word) (s : State) : FrameExcept {} { s with cmd := v } (accept v s) :=
  frameExcept_of_kept _ _ _ (by simp [SameInputs]) (by constructor <;> exact fun _ => rfl)

/-- Settles O5: a write to `CMD` is the acceptance of its word while idle, and the fault mark while busy. -/
theorem commandWriteIsAcceptedWhileIdle : Obligations.CommandWriteIsAcceptedWhileIdle := by
  refine ⟨fun s v hb => ?_, fun s v hb => hostWrite_cmdAddr_of_busy hb v⟩
  rw [hostWrite_cmdAddr_of_idle hb]
  exact ⟨rfl, rfl, rfl, rfl, rfl, rfl, rfl, accept_frame v s⟩

/-! ## Steps -/

theorem step_of_nothing_scheduled {s : State} (h : s.schedule = []) : step s = completeCommand s := by
  rw [step, h]

theorem step_of_scheduled {s : State} {e : HostEvent} {rest : List HostEvent} (h : s.schedule = e :: rest) :
    step s = performEvent e { s with schedule := rest } := by
  rw [step, h]

/-- A legal word in flight completes with its command's meaning (45_cipher_fsm.md R280). -/
theorem completeCommand_of_legal {s : State} {i : Instr} (hb : s.busy = true) (h : decode s.seq.cur = .ok i) :
    completeCommand s = exec i s := by
  rw [completeCommand, if_pos hb, h]

/-- An illegal word in flight completes with IllegalCommand (60_exceptions.md R324). -/
theorem completeCommand_of_illegal {s : State} {e : DecodeError} (hb : s.busy = true)
    (h : decode s.seq.cur = .error e) :
    ∃ t, completeCommand s = .next t ∧ FailedWith .illegalCommand s t ∧ t.errCode = 3#4 := by
  refine ⟨commit (.error .illegalCommand) s, ?_, commit_error_failedWith _ s, rfl⟩
  rw [completeCommand, if_pos hb, h]

theorem tableWord_toNat (v : Word) : tableWord 32 v.toNat = v := by
  rw [tableWord, Nat.mod_eq_of_lt v.isLt, BitVec.ofNat_toNat, BitVec.setWidth_eq]

/-- The word that `withFetchWord` puts in flight (log 4). -/
theorem withFetchWord_cur (s : State) (v : Word) : (s.withFetchWord 32 v.toNat).seq.cur = v :=
  tableWord_toNat v

theorem withFetchWord_cmd (s : State) (v : Word) : (s.withFetchWord 32 v.toNat).cmd = v :=
  tableWord_toNat v

theorem step_withFetchWord (s : State) (n w : Nat) :
    step (s.withFetchWord n w) = completeCommand (s.withFetchWord n w) :=
  step_of_nothing_scheduled rfl

/-- Settles O6: a step is the completion, or the event that is scheduled first. -/
theorem stepRunsTheDecodedCommand : Obligations.StepRunsTheDecodedCommand := by
  refine ⟨fun s i hs hb hd => ?_, fun s i rest hs hb hd => ?_, fun s i hi => ?_, fun s e hs hb hd => ?_,
    fun s e rest hs hb hd => ?_, fun s v e hd => ?_, fun s hs hb => ?_, fun s rest hs hb => ?_, fun s rest =>
    ⟨fun a hs => step_of_scheduled hs, fun a v hs => step_of_scheduled hs, fun hs => step_of_scheduled hs⟩⟩
  · rw [step_of_nothing_scheduled hs, completeCommand_of_legal hb hd]
  · rw [step_of_scheduled hs]
    exact completeCommand_of_legal hb hd
  · rw [step_withFetchWord]
    refine completeCommand_of_legal rfl ?_
    rw [withFetchWord_cur]
    exact decodeEncodeRoundTrip i hi
  · rw [step_of_nothing_scheduled hs]
    exact completeCommand_of_illegal hb hd
  · rw [step_of_scheduled hs]
    exact completeCommand_of_illegal (s := { s with schedule := rest }) hb hd
  · rw [step_withFetchWord]
    rw [← withFetchWord_cur s v] at hd
    obtain ⟨t, hnext, hfail, hcode⟩ := completeCommand_of_illegal rfl hd
    have ⟨_, _, _, hframe⟩ := hfail
    exact ⟨t, hnext, hfail, (cmd_of_frame hframe).trans (withFetchWord_cmd s v), hcode⟩
  · rw [step_of_nothing_scheduled hs, completeCommand_of_idle s hb]
  · rw [step_of_scheduled hs]
    exact completeCommand_of_idle { s with schedule := rest } hb

/-! ## Ticks before COMMIT -/

/-- Hidden registers are not read: only `BUSY` of them shows (10_state.md R49). -/
theorem memRead_with_seq (s : State) (q : Sequencer) (hb : ({ s with seq := q } : State).busy = s.busy) (a : Addr) :
    memRead { s with seq := q } a = memRead s a :=
  memRead_congr s { s with seq := q } ⟨rfl, rfl, rfl, rfl, rfl, rfl, rfl⟩ (by constructor <;> exact fun _ => rfl)
    hb rfl rfl a

/-- Settles O7: a tick outside COMMIT writes hidden registers only, and leaves `BUSY`. -/
theorem noResultIsVisibleBeforeCommit : Obligations.NoResultIsVisibleBeforeCommit := by
  intro s hphase
  have hbusy := seqTick_busy s hphase
  obtain ⟨q, hq, hstep⟩ := seqTick_seqStep s hphase
  rw [hq] at hbusy ⊢
  exact ⟨memRead_with_seq s q hbusy, hbusy, hstep.ops⟩

end Sys2Proof.Proofs

/-! The rounds of the cipher (45_cipher_fsm.md R285 to R292): what each step of a run appends to the round trace, and
the traces of whole runs. -/

namespace Sys2Proof.Proofs

open Sys2Proof.Machine Sys2Proof.Laws

/-! ## The information words of the entries -/

theorem nr_lt_sixteen (size : KeySize) : size.nr < 16 := by cases size <;> decide

theorem one_lt_nr (size : KeySize) : 1 < size.nr := by cases size <;> decide

/-- `CT_INFO` of an entry with a key addition alone (45_cipher_fsm.md R287, R292). -/
theorem ctInfo_keyOnly (s k rk : Block) :
    ctInfo { start := some s, afterKey := some k, roundKey := some ⟨0, rk⟩ } = 0x00000031 := by
  simp [ctInfo]

/-- `CT_INFO` of a round with no column mixing (45_cipher_fsm.md R287, R292). -/
theorem ctInfo_unmixed (s a b k rk : Block) {n : Nat} (h : n < 16) :
    ctInfo { start := some s, afterSub := some a, afterShift := some b, afterKey := some k, roundKey := some ⟨n, rk⟩ } =
      0x37 ||| (BitVec.ofNat 32 n <<< 8) := by
  interval_cases n <;> simp [ctInfo]

/-- `CT_INFO` of a full round (45_cipher_fsm.md R287, R292). -/
theorem ctInfo_full (s a b m k rk : Block) {n : Nat} (h : n < 16) :
    ctInfo { start := some s, afterSub := some a, afterShift := some b, afterMix := some m, afterKey := some k
             roundKey := some ⟨n, rk⟩ } = 0x3F ||| (BitVec.ofNat 32 n <<< 8) := by
  interval_cases n <;> simp [ctInfo]

/-! ## Entries of a run -/

/-- Entry `e` of a whole run is what step `e` appends first. -/
theorem cipher_entry_of_append {d : Bool} {t : FieldTables} {nr : Nat} {w : List Quad} {p : Block} {e : Nat}
    {x : CtEntry} {l : List CtEntry} (hp : 0 < nr) (he : e ≤ nr)
    (h : (cipherRound d t nr w e (cipherSteps d t nr w p e)).ct = (cipherSteps d t nr w p e).ct ++ x :: l) :
    (cipherSteps d t nr w p (nr + 1)).ct[e]? = some x := by
  have hlen := cipherSteps_ct_length d t nr w p e he
  rw [cipher_entry d t nr w p hp e he, h, List.getElem?_append_right hlen.le, hlen, Nat.sub_self]
  rfl

/-- The last entry of a whole run is the sentinel, with the state that the run ends in (45_cipher_fsm.md R285). -/
theorem cipher_sentinel (d : Bool) (t : FieldTables) {nr : Nat} (w : List Quad) (p : Block) (hp : 0 < nr) :
    (cipherSteps d t nr w p (nr + 1)).ct[nr + 1]? = some (sentinelEntry (cipherSteps d t nr w p (nr + 1)).s) := by
  have hlen := cipherSteps_ct_length d t nr w p nr le_rfl
  obtain ⟨x, -, hx⟩ := cipherRound_ct d t nr w nr (cipherSteps d t nr w p nr) hp le_rfl
  rw [cipherSteps_succ, hx, List.getElem?_append_right (by omega), hlen, if_pos rfl, Nat.add_sub_cancel_left]
  rfl

theorem ctInfo_sentinelEntry (b : Block) : ctInfo (sentinelEntry b) = 0x00010001 := by
  simp [ctInfo, sentinelEntry]

/-- The first entry of a run starts from the block (45_cipher_fsm.md R287, R292). -/
theorem cipher_first_start {d : Bool} {t : FieldTables} {nr : Nat} {w : List Quad} {p : Block} {x : CtEntry}
    (hp : 0 < nr) (hx : (cipherSteps d t nr w p (nr + 1)).ct[0]? = some x) : x.start = some p := by
  obtain ⟨y, hy, hct⟩ := cipherRound_ct d t nr w 0 (cipherSteps d t nr w p 0) hp (Nat.zero_le nr)
  rw [cipher_entry_of_append hp (Nat.zero_le nr) hct, Option.some.injEq] at hx
  rw [← hx, hy, cipherSteps_zero]

/-- The length and the two ends of the round trace, alike in both directions (45_cipher_fsm.md R287, R292). -/
theorem cipher_trace_ends (d : Bool) (t : FieldTables) (size : KeySize) (w : List Quad) (p : Block) :
    let c := cipherSteps d t size.nr w p (size.nr + 1)
    c.ct.length = size.nr + 2 ∧ c.ct[size.nr + 1]? = some (sentinelEntry c.s) ∧
      (∀ x, c.ct[size.nr + 1]? = some x → ctInfo x = 0x00010001) ∧ ∀ x, c.ct[0]? = some x → x.start = some p := by
  have hsentinel := cipher_sentinel d t w p (nr_pos size)
  refine ⟨cipherSteps_ct_length_full d t size w p, hsentinel, fun x hx => ?_,
    fun x hx => cipher_first_start (nr_pos size) hx⟩
  rw [← Option.some.inj (hsentinel.symm.trans hx), ctInfo_sentinelEntry]

/-! ## Encryption -/

section
variable (t : FieldTables) {nr : Nat} (w : List Quad) (p : Block)

theorem encrypt_entry_first (hp : 0 < nr) : (encrypt t nr w p).ct[0]? = some
    { start := some p, afterKey := some (addRoundKey p (roundKey w 0)), roundKey := some ⟨0, roundKey w 0⟩ } :=
  cipher_entry_of_append hp (Nat.zero_le nr) rfl

theorem encrypt_entry_middle {e : Nat} (h0 : 0 < e) (h : e < nr) :
    let s := (cipherSteps false t nr w p e).s
    let b := shiftRows false (subBytes t false s)
    (encrypt t nr w p).ct[e]? = some
      { start := some s, afterSub := some (subBytes t false s), afterShift := some b
        afterMix := some (mixColumns t false b)
        afterKey := some (addRoundKey (mixColumns t false b) (roundKey w e)), roundKey := some ⟨e, roundKey w e⟩ } := by
  refine cipher_entry_of_append (l := []) (by omega) h.le ?_
  simp only [cipherRound_false, encryptRound, if_neg (by omega : ¬ e = 0), if_pos h]

theorem encrypt_entry_last (hp : 0 < nr) :
    let s := (cipherSteps false t nr w p nr).s
    let b := shiftRows false (subBytes t false s)
    (encrypt t nr w p).ct[nr]? = some
      { start := some s, afterSub := some (subBytes t false s), afterShift := some b
        afterKey := some (addRoundKey b (roundKey w nr)), roundKey := some ⟨nr, roundKey w nr⟩ } := by
  intro s b
  refine cipher_entry_of_append (l := [sentinelEntry (addRoundKey b (roundKey w nr))]) hp le_rfl ?_
  simp only [cipherRound_false, encryptRound, if_neg (by omega : ¬ nr = 0), if_neg (lt_irrefl nr), s, b]

/-- The row-rotation trace of an encryption is that of its last round (45_cipher_fsm.md R287). -/
theorem encrypt_rrot (hp : 0 < nr) : (encrypt t nr w p).rrot =
    some (shiftTrace false (subBytes t false (cipherSteps false t nr w p nr).s)) := by
  simp only [encrypt, cipherSteps_succ, cipherRound_false, encryptRound, if_neg (by omega : ¬ nr = 0),
    if_neg (lt_irrefl nr)]

end

/-- Settles O56: the entries of the first, the middle and the last steps, each followed by the state its step left. -/
theorem encryptionTrace : Obligations.EncryptionTrace := by
  intro t size w p c
  have hp := nr_pos size
  obtain ⟨hlength, hsentinel, hinfo, hfirst⟩ := cipher_trace_ends false t size w p
  refine ⟨hlength, hsentinel, hinfo, hfirst, fun e he => ?_⟩
  obtain ⟨y, hy, hstart⟩ := cipher_next_start false t size.nr w p hp e he
  rw [cipherSteps_succ, cipherRound_false] at hstart
  obtain rfl | h0 := Nat.eq_zero_or_pos e
  · exact ⟨_, y, _, _, encrypt_entry_first t w p hp, hy, rfl, rfl, rfl, hstart,
      fun _ => ⟨ctInfo_keyOnly _ _ _, rfl⟩, fun h => absurd h (by omega), fun h => absurd h (by omega),
      fun h => absurd h (by omega)⟩
  obtain h | rfl := Nat.lt_or_eq_of_le he
  · rw [encryptRound_middle t size.nr w e _ h0 h] at hstart
    exact ⟨_, y, _, _, encrypt_entry_middle t w p h0 h, hy, rfl, rfl, rfl, hstart, fun h => absurd h (by omega),
      fun _ => ⟨rfl, rfl⟩, fun _ _ => ⟨ctInfo_full _ _ _ _ _ _ (h.trans (nr_lt_sixteen size)), rfl, rfl⟩,
      fun h => absurd h (by omega)⟩
  · rw [encryptRound_last t size.nr w _ hp] at hstart
    exact ⟨_, y, _, _, encrypt_entry_last t w p hp, hy, rfl, rfl, rfl, hstart, fun h => absurd h (by omega),
      fun _ => ⟨rfl, rfl⟩, fun _ h => absurd h (by omega),
      fun _ => ⟨ctInfo_unmixed _ _ _ _ _ (nr_lt_sixteen size), rfl, encrypt_rrot t w p hp⟩⟩

/-! ## Decryption -/

section
variable (t : FieldTables) {nr : Nat} (w : List Quad) (p : Block)

theorem decrypt_entry_first (hp : 0 < nr) :
    let k := addRoundKey p (roundKey w nr)
    (decrypt t nr w p).ct[0]? = some
      { start := some p, afterKey := some k, afterShift := some (shiftRows true k)
        afterSub := some (subBytes t true (shiftRows true k)), roundKey := some ⟨nr, roundKey w nr⟩ } :=
  cipher_entry_of_append hp (Nat.zero_le nr) rfl

theorem decrypt_entry_middle {e : Nat} (h0 : 0 < e) (h : e < nr) :
    let s := (cipherSteps true t nr w p e).s
    let k := addRoundKey s (roundKey w (nr - e))
    let b := shiftRows true (mixColumns t true k)
    (decrypt t nr w p).ct[e]? = some
      { start := some s, afterKey := some k, afterMix := some (mixColumns t true k), afterShift := some b
        afterSub := some (subBytes t true b), roundKey := some ⟨nr - e, roundKey w (nr - e)⟩ } := by
  refine cipher_entry_of_append (l := []) (by omega) h.le ?_
  simp only [cipherRound_true, decryptRound, if_neg (by omega : ¬ e = 0), if_pos h]

theorem decrypt_entry_last (hp : 0 < nr) :
    let s := (cipherSteps true t nr w p nr).s
    (decrypt t nr w p).ct[nr]? = some
      { start := some s, afterKey := some (addRoundKey s (roundKey w 0)), roundKey := some ⟨0, roundKey w 0⟩ } := by
  intro s
  refine cipher_entry_of_append (l := [sentinelEntry (addRoundKey s (roundKey w 0))]) hp le_rfl ?_
  simp only [cipherRound_true, decryptRound, if_neg (by omega : ¬ nr = 0), if_neg (lt_irrefl nr), Nat.sub_self, s]

/-- The row-rotation trace of a decryption is that of its last full round, with the round key 1, since the last step
rotates no row (45_cipher_fsm.md R292). -/
theorem decrypt_rrot (hp : 1 < nr) : (decrypt t nr w p).rrot = some (shiftTrace true
    (mixColumns t true (addRoundKey (cipherSteps true t nr w p (nr - 1)).s (roundKey w (nr - (nr - 1)))))) := by
  have hlast : (decrypt t nr w p).rrot = (cipherSteps true t nr w p nr).rrot := by
    simp only [decrypt, cipherSteps_succ, cipherRound_true, decryptRound, if_neg (by omega : ¬ nr = 0),
      if_neg (lt_irrefl nr)]
  have hfull : cipherSteps true t nr w p nr = decryptRound t nr w (nr - 1) (cipherSteps true t nr w p (nr - 1)) := by
    rw [← cipherRound_true, ← cipherSteps_succ, Nat.sub_add_cancel hp.le]
  rw [hlast, hfull, decryptRound, if_neg (by omega), if_pos (by omega)]

end

/-- Entry `e` of the decryption of a ciphertext mirrors entry `nr - e` of the encryption: decryption walks back through
the states of the encryption, so its key addition cancels the encryption's (45_cipher_fsm.md R292). -/
theorem decrypt_entry_mirrors (b : Bool) {nr : Nat} (w : List Quad) (p : Block) {e : Nat} (h0 : 0 < e) (h : e < nr) :
    ∃ x y, (decrypt (buildTables b) nr w (encrypt (buildTables b) nr w p).s).ct[e]? = some x ∧
      (encrypt (buildTables b) nr w p).ct[nr - e]? = some y ∧ x.afterSub = y.start ∧ x.afterKey = y.afterMix ∧
      y.start ≠ none ∧ y.afterMix ≠ none := by
  refine ⟨_, _, decrypt_entry_middle _ w _ h0 h, encrypt_entry_middle _ w p (e := nr - e) (by omega) (by omega), ?_, ?_,
    Option.some_ne_none _, Option.some_ne_none _⟩
  · have hafter := decrypt_walks_back b nr w p (by omega) e h
    rw [cipherSteps_succ, cipherRound_true, decryptRound_middle _ _ _ _ _ h0 h] at hafter
    exact congrArg some hafter
  · have hbefore := decrypt_walks_back b nr w p (by omega) (e - 1) (by omega)
    rw [Nat.sub_add_cancel h0, show nr - (e - 1) = nr - e + 1 by omega, cipherSteps_succ, cipherRound_false,
      encryptRound_middle _ _ _ _ _ (by omega) (by omega)] at hbefore
    refine congrArg some ?_
    rw [hbefore, addRoundKey_cancel]

/-- Settles O57: the mirror, and the entries of the first, the middle and the last steps, each followed by the state its
step left. -/
theorem decryptionTrace : Obligations.DecryptionTrace := by
  refine ⟨fun b size w p e h1 he => ?_, fun t size w p => ?_⟩
  · exact decrypt_entry_mirrors b w p h1 (by have := nr_pos size; omega)
  have hp := nr_pos size
  obtain ⟨hlength, hsentinel, hinfo, hfirst⟩ := cipher_trace_ends true t size w p
  refine ⟨hlength, hsentinel, hinfo, hfirst, fun e he => ?_⟩
  obtain ⟨y, hy, hstart⟩ := cipher_next_start true t size.nr w p hp e he
  rw [cipherSteps_succ, cipherRound_true] at hstart
  obtain rfl | h0 := Nat.eq_zero_or_pos e
  · exact ⟨_, y, _, _, decrypt_entry_first t w p hp, hy, rfl, rfl, rfl, rfl,
      fun _ => ⟨ctInfo_unmixed _ _ _ _ _ (nr_lt_sixteen size), rfl, rfl, hstart⟩, fun h => absurd h (by omega),
      fun h => absurd h (by have := one_lt_nr size; omega), fun h => absurd h (by omega)⟩
  obtain h | rfl := Nat.lt_or_eq_of_le he
  · rw [decryptRound_middle t size.nr w e _ h0 h] at hstart
    refine ⟨_, y, _, _, decrypt_entry_middle t w p h0 h, hy, rfl, rfl, rfl, rfl, fun h => absurd h (by omega),
      fun _ _ => ⟨ctInfo_full _ _ _ _ _ _ ?_, rfl, rfl, rfl, hstart⟩, fun hlast => ?_, fun h => absurd h (by omega)⟩
    · have := nr_lt_sixteen size
      omega
    · rw [show e = size.nr - 1 by omega]
      exact decrypt_rrot t w p (one_lt_nr size)
  · rw [decryptRound_last t size.nr w _ hp] at hstart
    refine ⟨_, y, _, _, decrypt_entry_last t w p hp, hy, rfl, ?_, rfl, ?_, fun h => absurd h (by omega),
      fun _ h => absurd h (by omega), fun h => absurd h (by omega), fun _ => ⟨ctInfo_keyOnly _ _ _, hstart⟩⟩ <;>
    rw [Nat.sub_self]

end Sys2Proof.Proofs

/-! The cipher commands (45_cipher_fsm.md R288, R293): what ENCRYPT_BLOCK and DECRYPT_BLOCK leave, that each undoes the
other (R294), and what their results depend on (R295). -/

namespace Sys2Proof.Proofs

open Sys2Proof.Machine Sys2Proof.Laws

/-! ## What a cipher command computes -/

/-- The expansion of the captured key with the tables as built (45_cipher_fsm.md R288). -/
def capturedExpansion (s : State) (size : KeySize) : ExpandAcc :=
  expand (buildTables s.traceEn) size (keyWords s.seq.ops size)

/-- The whole run on the captured block under that expansion (45_cipher_fsm.md R288, R293). -/
def capturedRun (s : State) (d : Bool) (size : KeySize) : CipherAcc :=
  cipherSteps d (buildTables s.traceEn) size.nr (capturedExpansion s size).w (blockS s.seq.ops) (size.nr + 1)

/-- The two cipher commands differ in the direction of the run only. -/
theorem outcomeOf_cipher {i : Instr} {s : State} {d : Bool} {size : KeySize} (hi : cipherDirection i = some d)
    (ht : s.TablesOk) (hk : keyConfig s.seq.ops = .ok size) (hb : s.seq.ops.blklen = 16) :
    outcomeOf i s = .ok (cipherResults s d size (capturedExpansion s size) (capturedRun s d size)) := by
  rw [capturedRun, capturedExpansion, ← ensureTables_of_ok s ht]
  cases i with
  | encryptBlock =>
    cases hi
    rw [outcomeOf, encryptBlockOutcome, hk, checkBlock_ok _ hb]
    rfl
  | decryptBlock =>
    cases hi
    rw [outcomeOf, decryptBlockOutcome, hk, checkBlock_ok _ hb]
    rfl
  | _ => cases hi

/-- A whole run leaves a row-rotation trace of its own direction (45_cipher_fsm.md R287, R292). -/
theorem cipher_rrot (d : Bool) (t : FieldTables) (size : KeySize) (w : List Quad) (p : Block) :
    ∃ y, (cipherSteps d t size.nr w p (size.nr + 1)).rrot = some y ∧ y.inverse = d := by
  cases d with
  | false => exact ⟨_, encrypt_rrot t w p (nr_pos size), rfl⟩
  | true => exact ⟨_, decrypt_rrot t w p (one_lt_nr size), rfl⟩

/-- What a cipher command leaves in the fields of its row of 10_state.md R52, in both builds. -/
structure LeavesCipher (s : State) (d : Bool) (size : KeySize) (t : State) : Prop where
  tables : t.tables = some (buildTables s.traceEn)
  block : t.stateReg = (capturedRun s d size).s.toRegs
  sched : t.sched = some { size := size, words := (capturedExpansion s size).w.map pack }
  kt : t.kt = if s.traceEn then (capturedExpansion s size).kt else s.kt
  ct : t.ct = if s.traceEn then some { decrypting := d, entries := (capturedRun s d size).ct } else s.ct
  rrot : t.rrot = if s.traceEn then (capturedRun s d size).rrot else s.rrot

theorem commit_cipherResults {s : State} (ht : s.TablesOk) (d : Bool) (size : KeySize) :
    LeavesCipher s d size
      (commit (.ok (cipherResults s d size (capturedExpansion s size) (capturedRun s d size))) s) where
  tables := (tables_or_ensureTables s).trans (congrArg some (ensureTables_of_ok s ht))
  block := rfl
  sched := rfl
  kt := ifTraced_getD s _ _
  ct := ifTraced_or s _ _
  rrot := by
    obtain ⟨y, hy, -⟩ := cipher_rrot d (buildTables s.traceEn) size (capturedExpansion s size).w (blockS s.seq.ops)
    rw [commit_ok_rrot, cipherResults, capturedRun, hy]
    cases s.traceEn <;> rfl

/-- A cipher command with valid lengths succeeds, within its row of 10_state.md R52, and leaves its results. -/
theorem exec_of_cipher {i : Instr} {s : State} {d : Bool} {size : KeySize} (hi : cipherDirection i = some d)
    (ht : s.TablesOk) (hk : keyConfig s.seq.ops = .ok size) (hb : s.seq.ops.blklen = 16) :
    ∃ t, exec i s = .next t ∧ Succeeded t ∧ FrameExcept (writesOf i) s t ∧ LeavesCipher s d size t := by
  have hout := outcomeOf_cipher hi ht hk hb
  obtain ⟨t, hexec, hok, hframe, -⟩ := exec_of_outcome_ok hout
  have hcommit := eq_commit_of_exec hexec
  rw [hout] at hcommit
  refine ⟨t, hexec, hok, hframe, ?_⟩
  rw [hcommit]
  exact commit_cipherResults ht d size

theorem LeavesCipher.rrot_direction {s t : State} {d : Bool} {size : KeySize} (h : LeavesCipher s d size t)
    (he : s.traceEn = true) : ∃ y, (capturedRun s d size).rrot = some y ∧ t.rrot = some y ∧ y.inverse = d := by
  obtain ⟨y, hy, hd⟩ := cipher_rrot d (buildTables s.traceEn) size (capturedExpansion s size).w (blockS s.seq.ops)
  exact ⟨y, hy, by rw [h.rrot, if_pos he]; exact hy, hd⟩

theorem LeavesCipher.rrot_untraced {s t : State} {d : Bool} {size : KeySize} (h : LeavesCipher s d size t)
    (he : s.traceEn = false) : t.rrot = s.rrot := by
  rw [h.rrot, he, if_neg Bool.false_ne_true]

/-- Settles O54: a cipher command in the direction of encryption. -/
theorem encryptBlockResult : Obligations.EncryptBlockResult := by
  refine ⟨decodeEncodeRoundTrip .encryptBlock rfl, fun s size ht hk hb => ?_⟩
  obtain ⟨t, hexec, hok, hframe, h⟩ :=
    exec_of_cipher (i := .encryptBlock) (d := false) rfl ht ((keyConfig_ok_iff _ size).2 hk) hb
  exact ⟨t, hexec, hok, hframe, h.tables, h.block, h.sched, h.kt, h.ct, h.rrot_direction, h.rrot_untraced⟩

/-- Settles O55: a cipher command in the direction of decryption. -/
theorem decryptBlockResult : Obligations.DecryptBlockResult := by
  refine ⟨decodeEncodeRoundTrip .decryptBlock rfl, fun s size ht hk hb => ?_⟩
  obtain ⟨t, hexec, hok, hframe, h⟩ :=
    exec_of_cipher (i := .decryptBlock) (d := true) rfl ht ((keyConfig_ok_iff _ size).2 hk) hb
  exact ⟨t, hexec, hok, hframe, h.tables, h.block, h.sched, h.kt, h.ct, h.rrot_direction, h.rrot_untraced⟩

/-! ## The round trip -/

/-- A run undoes a run in the other direction under the same words (45_cipher_fsm.md R294). -/
theorem cipherSteps_undo (d b : Bool) {nr : Nat} (w : List Quad) (p : Block) (hp : 0 < nr) :
    (cipherSteps (!d) (buildTables b) nr w (cipherSteps d (buildTables b) nr w p (nr + 1)).s (nr + 1)).s = p := by
  cases d with
  | false => exact decrypt_encrypt b nr w p hp
  | true => exact encrypt_decrypt b nr w p hp

theorem accept_tablesOk {s : State} (h : ∀ t, s.tables = some t → t = buildTables s.traceEn) (v : Word) :
    (accept v s).TablesOk :=
  ⟨h, nofun⟩

/-- A cipher command then the one in the other direction, each submitted and completed, restores `STATE`: between them
the key, the lengths and the tables stay (45_cipher_fsm.md R294). -/
theorem cipher_roundTrip {i j : Instr} {d : Bool} {s : State} (hi : cipherDirection i = some d)
    (hj : cipherDirection j = some !d) (ht : s.TablesOk) (hk : s.keylen = 16 ∨ s.keylen = 24 ∨ s.keylen = 32)
    (hb : s.blklen = 16) (v v' : Word) :
    ∃ t u, exec i (accept v s) = .next t ∧ exec j (accept v' t) = .next u ∧ u.stateReg = s.stateReg := by
  obtain ⟨size, hsize⟩ := keyConfig_of_valid (capture s) hk
  obtain ⟨t, hexec, -, hframe, h⟩ := exec_of_cipher hi (accept_tablesOk ht.1 v) hsize hb
  obtain ⟨⟨htrace, -, hkeylen, hblklen, -, -, hkey, -⟩, -⟩ := hframe
  have htables : ∀ x, t.tables = some x → x = buildTables t.traceEn := fun x hx => by
    rw [htrace]
    exact Option.some.inj (hx.symm.trans h.tables)
  have hsize' : keyConfig (capture t) = .ok size :=
    (keyConfig_ok_iff _ size).2 (hkeylen.trans ((keyConfig_ok_iff _ size).1 hsize))
  obtain ⟨u, hexec', -, -, h'⟩ := exec_of_cipher hj (accept_tablesOk htables v') hsize' (hblklen.trans hb)
  refine ⟨t, u, hexec, hexec', ?_⟩
  have hwords : capturedExpansion (accept v' t) size = capturedExpansion (accept v s) size := by
    change expand (buildTables t.traceEn) size ((t.keyReg.toList.take size.nk).map unpack) = _
    rw [htrace, hkey]
    rfl
  have hblock : blockS (accept v' t).seq.ops = (capturedRun (accept v s) d size).s := by
    change Block.ofRegs t.stateReg = _
    rw [h.block, ofRegs_toRegs]
  have hback : (capturedRun (accept v' t) (!d) size).s = Block.ofRegs s.stateReg := by
    rw [capturedRun, hwords, hblock, accept_traceEn, htrace, capturedRun]
    exact cipherSteps_undo d s.traceEn _ _ (nr_pos size)
  rw [h'.block, hback, toRegs_ofRegs]

/-- Settles O58: the round trip from either direction. -/
theorem decryptUndoesEncrypt : Obligations.DecryptUndoesEncrypt :=
  fun _ ht _ hk hb => ⟨cipher_roundTrip rfl rfl ht hk hb _ _, cipher_roundTrip rfl rfl ht hk hb _ _⟩

/-! ## What the results depend on -/

/-- The key operand is the first Nk key registers; the others are ignored (10_state.md R41). -/
theorem keyWords_congr {o o' : Captured} {size : KeySize}
    (h : ∀ j : Fin 8, j.val < size.nk → o'.keyReg[j] = o.keyReg[j]) : keyWords o' size = keyWords o size := by
  refine congrArg (List.map unpack) (List.ext_getElem (by simp) fun n hn hn' => ?_)
  simp only [List.length_take, Vector.length_toList, lt_min_iff] at hn
  simpa using h ⟨n, hn.2⟩ hn.1

/-- Settles O59: both states have the same expansion and the same run. -/
theorem cipherDependsOnlyOnItsOperands : Obligations.CipherDependsOnlyOnItsOperands := by
  intro i s s' t t' size hi ht ht' htrace hk hk' hkey hb hb' hstate hexec hexec'
  obtain ⟨d, hd⟩ : ∃ d, cipherDirection i = some d := by
    rcases hi with rfl | rfl
    exacts [⟨false, rfl⟩, ⟨true, rfl⟩]
  obtain ⟨u, hu, -, -, h⟩ := exec_of_cipher hd ht ((keyConfig_ok_iff _ size).2 hk) hb
  obtain ⟨u', hu', -, -, h'⟩ := exec_of_cipher hd ht' ((keyConfig_ok_iff _ size).2 (hk'.trans hk)) hb'
  cases hu.symm.trans hexec
  cases hu'.symm.trans hexec'
  have hwords : capturedExpansion s' size = capturedExpansion s size := by
    rw [capturedExpansion, capturedExpansion, htrace, keyWords_congr hkey]
  have hrun : capturedRun s' d size = capturedRun s d size := by
    rw [capturedRun, capturedRun, htrace, hwords, blockS, blockS, hstate]
  refine ⟨?_, ?_, ?_, fun he => ?_⟩
  · rw [h'.block, h.block, hrun]
  · rw [h'.sched, h.sched, hwords]
  · rw [h'.tables, h.tables, htrace]
  · have he' := htrace.trans he
    simp only [h'.kt, h.kt, h'.ct, h.ct, h'.rrot, h.rrot, hwords, hrun, he, he', if_true, and_self]

end Sys2Proof.Proofs

/-! The errors of a command (60_exceptions.md): IllegalCommand (R324), the checks in their order (R322, R323, R326,
R327), and the build option that changes no result but a trace (R337). -/

namespace Sys2Proof.Proofs

open Sys2Proof.Machine Sys2Proof.Laws

/-! ## Illegal words -/

/-- Settles O4: acceptance and the error completion change nothing but `CMD` and `STATUS`. -/
theorem illegalWordCompletesWithIllegalCommand : Obligations.IllegalWordCompletesWithIllegalCommand := by
  intro s v e hb hd
  have hout : (accept v s).outcome = .error .illegalCommand := by rw [State.outcome, accept_seq, hd]
  refine ⟨hostWrite_cmdAddr_of_idle hb v, commit (.error .illegalCommand) { s with cmd := v }, ?_, rfl, rfl,
    commit_error_failedWith _ _⟩
  rw [completeCommand_of_busy _ rfl, hout, commit_accept]

/-! ## The checks -/

theorem usesKey_iff (i : Instr) : usesKey i = true ↔ i ∈ [.expandKey, .encryptBlock, .decryptBlock] := by
  cases i <;> simp [usesKey]

theorem usesBlock_iff (i : Instr) : usesBlock i = true ↔
    i ∈ [.subBytes, .invSubBytes, .shiftRows, .invShiftRows, .mixColumns, .invMixColumns, .encryptBlock,
      .decryptBlock] ∨ ∃ r, i = .addRoundKey r := by
  cases i <;> simp [usesBlock]

theorem stateCommand_keyless_usesBlock :
    ∀ i ∈ [Instr.subBytes, .invSubBytes, .shiftRows, .invShiftRows, .mixColumns, .invMixColumns],
      usesKey i = false ∧ usesBlock i = true := by
  decide

theorem cipherCommand_usesBlock : ∀ i ∈ [Instr.encryptBlock, .decryptBlock], usesBlock i = true := by
  decide

/-- Test 2 of 45_cipher_fsm.md R284 fails: the command takes a key, and `KEYLEN` is no key length. -/
def KeyFails (i : Instr) (o : Captured) : Prop :=
  usesKey i = true ∧ o.keylen ≠ 16 ∧ o.keylen ≠ 24 ∧ o.keylen ≠ 32

/-- Test 3 fails: the command takes a block, and `BLKLEN` is not 16. -/
def BlockFails (i : Instr) (o : Captured) : Prop := usesBlock i = true ∧ o.blklen ≠ 16

/-- Test 4 fails: the command takes a round key that no schedule has. -/
def RoundKeyFails (i : Instr) (o : Captured) : Prop :=
  ∃ r, i = .addRoundKey r ∧ ∀ x, o.sched = some x → x.size.nr < r

section

variable {i : Instr} {o : Captured}

theorem not_keyFails_of_keyless (h : usesKey i = false) : ¬ KeyFails i o :=
  fun ⟨hi, _⟩ => Bool.false_ne_true (h.symm.trans hi)

theorem not_keyFails_of_valid (h : o.keylen = 16 ∨ o.keylen = 24 ∨ o.keylen = 32) : ¬ KeyFails i o :=
  fun ⟨_, h16, h24, h32⟩ => h.elim h16 (Or.elim · h24 h32)

theorem checkCommand_of_keyFails (h : KeyFails i o) : checkCommand i o = .error .invalidKeySize := by
  obtain ⟨hi, h16, h24, h32⟩ := h
  rw [checkCommand_eq, if_pos hi, keyConfig_error o h16 h24 h32]

/-- The key test of `checkCommand_eq` passes. -/
theorem keyStage_of_not_keyFails (h : ¬ KeyFails i o) :
    ∃ size, (if usesKey i then keyConfig o else .ok .aes128) = Except.ok (ε := ErrCode) size := by
  by_cases hi : usesKey i = true
  · rcases keyConfig_cases o with ⟨size, hs, -⟩ | ⟨-, hbad⟩
    · exact ⟨size, by rw [if_pos hi, hs]⟩
    · exact absurd ⟨hi, hbad⟩ h
  · exact ⟨.aes128, if_neg hi⟩

/-- The block test of `checkCommand_eq` passes. -/
theorem blockStage_of_not_blockFails (h : ¬ BlockFails i o) :
    (if usesBlock i then checkBlock o else .ok ()) = Except.ok (ε := ErrCode) () := by
  by_cases hi : usesBlock i = true
  · rw [if_pos hi, checkBlock_ok o (not_not.1 fun hb => h ⟨hi, hb⟩)]
  · exact if_neg hi

theorem checkCommand_of_blockFails (hk : ¬ KeyFails i o) (h : BlockFails i o) :
    checkCommand i o = .error .malformedBlock := by
  obtain ⟨size, hs⟩ := keyStage_of_not_keyFails hk
  obtain ⟨hi, hb⟩ := h
  rw [checkCommand_eq, hs, if_pos hi, checkBlock_error o hb]

/-- Past the key and the block only the round key is left to test. -/
theorem checkCommand_eq_checkRoundKey (hk : ¬ KeyFails i o) (hb : ¬ BlockFails i o) :
    checkCommand i o = checkRoundKey o i := by
  obtain ⟨size, hs⟩ := keyStage_of_not_keyFails hk
  rw [checkCommand_eq, hs, blockStage_of_not_blockFails hb]

theorem checkRoundKey_of_roundKeyFails (h : RoundKeyFails i o) :
    checkRoundKey o i = .error .roundKeyUnavailable := by
  obtain ⟨r, rfl, hr⟩ := h
  rw [checkRoundKey, roundKeyOperand_error o r hr]
  rfl

theorem checkRoundKey_of_not_roundKeyFails (h : ¬ RoundKeyFails i o) : checkRoundKey o i = .ok () := by
  cases i with
  | addRoundKey r =>
    obtain ⟨k, hk⟩ := roundKeyOperand_ok_of_not o r fun hr => h ⟨r, rfl, hr⟩
    rw [checkRoundKey, hk]
    rfl
  | _ => rfl

end

/-! ## What a check decides -/

theorem commit_of_check_error {i : Instr} {s : State} {c : ErrCode} (h : checkCommand i s.seq.ops = .error c) :
    FailedWith c s (commit (outcomeOf i s) s) := by
  rw [outcomeOf_of_check_error i s c h]
  exact commit_error_failedWith c s

theorem commit_of_check_ok {i : Instr} {s : State} (h : checkCommand i s.seq.ops = .ok ()) :
    Succeeded (commit (outcomeOf i s) s) := by
  obtain ⟨r, hr⟩ := outcomeOf_of_check_ok i s h
  rw [hr]
  exact ⟨rfl, rfl, rfl⟩

theorem errCode_of_failedWith {c : ErrCode} {s t : State} (h : FailedWith c s t) : t.errCode = c.bits := by
  obtain ⟨-, -, herr, -⟩ := h
  rw [State.errCode, herr]
  rfl

theorem exec_of_check_error {i : Instr} {s : State} {c : ErrCode} (h : checkCommand i s.seq.ops = .error c) :
    ∃ t, exec i s = .next t ∧ FailedWith c s t ∧ t.errCode = c.bits :=
  have hfail := commit_of_check_error h
  ⟨_, exec_eq_commit i s, hfail, errCode_of_failedWith hfail⟩

/-- Settles O8: the first test that fails is the command's outcome, and a success when none does. -/
theorem firstFailingCheckIsReported : Obligations.FirstFailingCheckIsReported := by
  intro s hb
  refine ⟨commit s.outcome s, completeCommand_of_busy s hb, fun e hd => ?_, fun i hd => ?_⟩
  · rw [State.outcome, hd]
    exact commit_error_failedWith _ s
  · have hout : s.outcome = outcomeOf i s := by rw [State.outcome, hd]
    rw [hout, ← usesKey_iff, ← usesBlock_iff]
    refine ⟨fun hk => ?_, fun hk hblock => ?_, fun hk hblock hr => ?_, fun hk hblock hr => ?_⟩
    · exact commit_of_check_error (checkCommand_of_keyFails hk)
    · exact commit_of_check_error (checkCommand_of_blockFails hk hblock)
    · exact commit_of_check_error
        ((checkCommand_eq_checkRoundKey hk hblock).trans (checkRoundKey_of_roundKeyFails hr))
    · exact commit_of_check_ok
        ((checkCommand_eq_checkRoundKey hk hblock).trans (checkRoundKey_of_not_roundKeyFails hr))

/-- Settles O9: in each of its cases one test fails, and those before it pass. -/
theorem failedChecksCompleteWithTheirCode : Obligations.FailedChecksCompleteWithTheirCode := by
  refine ⟨fun s i hi h16 h24 h32 => ?_, fun s i hi hb => ?_, fun s r hb hr => ?_⟩
  · exact exec_of_check_error (checkCommand_of_keyFails ⟨(usesKey_iff i).2 hi, h16, h24, h32⟩)
  · rcases hi with hi | ⟨r, rfl⟩ | ⟨hi, hlen⟩
    · obtain ⟨hkey, hblock⟩ := stateCommand_keyless_usesBlock i hi
      exact exec_of_check_error (checkCommand_of_blockFails (not_keyFails_of_keyless hkey) ⟨hblock, hb⟩)
    · exact exec_of_check_error (checkCommand_of_blockFails (not_keyFails_of_keyless rfl) ⟨rfl, hb⟩)
    · exact exec_of_check_error
        (checkCommand_of_blockFails (not_keyFails_of_valid hlen) ⟨cipherCommand_usesBlock i hi, hb⟩)
  · exact exec_of_check_error ((checkCommand_eq_checkRoundKey (not_keyFails_of_keyless rfl) fun h => h.2 hb).trans
      (checkRoundKey_of_roundKeyFails ⟨r, rfl, hr⟩))

/-! ## The build without traces -/

/-- The tables without the construction trace. -/
def untracedTables (t : FieldTables) : FieldTables := { t with sbt := [] }

/-- Results without the traces. -/
def untracedResults (r : Results) : Results :=
  { r with tables := r.tables.map untracedTables, kt := none, ct := none, rrot := none }

/-- The same state in the build with `TRACE_EN = 0`, which holds no trace (10_state.md R44 to R47). -/
def untracedState (s : State) : State :=
  { s with
    traceEn := false
    tables := s.tables.map untracedTables
    kt := []
    ct := none
    rrot := none
    seq := { s.seq with stagedTables := s.seq.stagedTables.map untracedTables } }

theorem untracedTables_buildTables (e : Bool) : untracedTables (buildTables e) = buildTables false := by
  simp only [untracedTables, buildTables, Bool.false_eq_true, if_false]

theorem ensureTables_untraced (s : State) : ensureTables (untracedState s) = untracedTables (ensureTables s) := by
  simp only [ensureTables, untracedState, ← untracedTables_buildTables s.traceEn]
  cases s.tables <;> cases s.seq.stagedTables <;> rfl

theorem ensureTables_untraced_of_ok {s : State} (ht : s.TablesOk) :
    ensureTables (untracedState s) = buildTables false := by
  rw [ensureTables_untraced, ensureTables_of_ok s ht, untracedTables_buildTables]

/-! ### The outcomes of the commands -/

theorem resultWithTables_untraced (s : State) {f : FieldTables → Word} (hf : ∀ t, f (untracedTables t) = f t) :
    resultWithTables (untracedState s) f = (resultWithTables s f).map untracedResults := by
  rw [resultWithTables, ensureTables_untraced, hf]
  rfl

theorem blockWithTables_untraced (s : State) {f : FieldTables → Block → Block}
    (hf : ∀ t, f (untracedTables t) = f t) :
    blockWithTables (untracedState s) f = (blockWithTables s f).map untracedResults := by
  rw [blockWithTables, ensureTables_untraced, hf, blockWithTables]
  change (do checkBlock s.seq.ops; _) = _
  cases checkBlock s.seq.ops <;> rfl

theorem blockShifted_untraced (s : State) (d : Bool) :
    blockShifted (untracedState s) d = (blockShifted s d).map untracedResults := by
  rw [blockShifted, blockShifted]
  change (do checkBlock s.seq.ops; _) = _
  cases checkBlock s.seq.ops <;> rfl

theorem addRoundKeyOutcome_untraced (s : State) (r : Nat) :
    addRoundKeyOutcome r (untracedState s) = (addRoundKeyOutcome r s).map untracedResults := by
  rw [addRoundKeyOutcome, addRoundKeyOutcome]
  change (do checkBlock s.seq.ops; let k ← roundKeyOperand s.seq.ops r; _) = _
  cases checkBlock s.seq.ops with
  | error c => rfl
  | ok _ => cases roundKeyOperand s.seq.ops r <;> rfl

theorem expansionResults_untraced (s : State) (size : KeySize) (x : ExpandAcc) :
    expansionResults (untracedState s) size x = untracedResults (expansionResults s size x) := by
  rw [expansionResults, ensureTables_untraced]
  rfl

theorem cipherResults_untraced (s : State) (d : Bool) (size : KeySize) (x : ExpandAcc) (c : CipherAcc) :
    cipherResults (untracedState s) d size x c = untracedResults (cipherResults s d size x c) := by
  rw [cipherResults, expansionResults_untraced]
  rfl

/-- The expansion reads no trace. -/
theorem expandedKey_untraced {s : State} (ht : s.TablesOk) (size : KeySize) :
    expandedKey (untracedState s) size = expandedKey s size := by
  rw [expandedKey, expandedKey, ensureTables_untraced_of_ok ht, ensureTables_of_ok s ht, expand_traceEn s.traceEn]
  rfl

/-- The commands that take a key fail alike, and else commit the same expansion and the same run. -/
theorem outcomeOf_keyCommand_untraced {i : Instr} {s : State} (ht : s.TablesOk) (hi : usesKey i = true) :
    outcomeOf i (untracedState s) = (outcomeOf i s).map untracedResults := by
  cases hc : checkCommand i s.seq.ops with
  | error c =>
    rw [outcomeOf_of_check_error i s c hc, outcomeOf_of_check_error i (untracedState s) c hc]
    rfl
  | ok _ =>
    obtain ⟨size, hs⟩ := usesKey_keyConfig i s.seq.ops hi hc
    rw [outcomeOf_keyCommand i s size hi hs hc, outcomeOf_keyCommand i (untracedState s) size hi hs hc,
      expandedKey_untraced ht]
    cases cipherDirection i with
    | none =>
      simp only [expansionResults_untraced]
      rfl
    | some d =>
      simp only [cipherResults_untraced, ensureTables_untraced_of_ok ht, ensureTables_of_ok s ht,
        cipherSteps_traceEn d s.traceEn]
      rfl

/-- No command reads a trace: without them it has the same outcome, less the traces. -/
theorem outcomeOf_untraced (i : Instr) {s : State} (ht : s.TablesOk) :
    outcomeOf i (untracedState s) = (outcomeOf i s).map untracedResults := by
  cases i with
  | nop | gfAdd | gfXtime | gfMulLong | gfAffine | rotWord => rfl
  | buildTables =>
    rw [outcomeOf, buildTablesOutcome, ensureTables_untraced]
    rfl
  | gfMul | gfInv | sboxLookup | invSboxLookup | subWord =>
    simp only [outcomeOf]
    refine resultWithTables_untraced s ?_
    exact fun _ => rfl
  | subBytes | invSubBytes | mixColumns | invMixColumns =>
    simp only [outcomeOf]
    refine blockWithTables_untraced s ?_
    exact fun _ => rfl
  | shiftRows | invShiftRows => exact blockShifted_untraced s _
  | addRoundKey r => exact addRoundKeyOutcome_untraced s r
  | expandKey | encryptBlock | decryptBlock => exact outcomeOf_keyCommand_untraced ht rfl

theorem commit_untraced (o : CmdOutcome) (s : State) :
    commit (o.map untracedResults) (untracedState s) = untracedState (commit o s) := by
  cases o with
  | error c => rfl
  | ok r =>
    change commit (.ok (untracedResults r)) (untracedState s) = _
    simp only [commit, untracedState, untracedResults, Option.map_or]
    rfl

/-- The build without traces does the same in all but the traces (60_exceptions.md R337). -/
theorem exec_untraced {i : Instr} {s t : State} (ht : s.TablesOk) (h : exec i s = .next t) :
    exec i (untracedState s) = .next (untracedState t) := by
  rw [exec_eq_commit, outcomeOf_untraced i ht, commit_untraced, eq_commit_of_exec h]

/-! ### Two builds -/

/-- Two states that hold the same results, `KT`, `CT` and `RROT` aside. -/
structure SameResults (s s' : State) : Prop where
  res : s'.res = s.res
  stateReg : s'.stateReg = s.stateReg
  sched : s'.sched = s.sched
  tables : s'.tables = s.tables

theorem untracedState_tables {s : State} (ht : s.TablesOk) :
    (untracedState s).tables = if s.tablesReady then some (buildTables false) else none := by
  rw [untracedState, State.tablesReady]
  cases hx : s.tables with
  | none => rfl
  | some x =>
    rw [ht.1 x hx, Option.map_some, untracedTables_buildTables]
    rfl

theorem SameResults.commit {s s' : State} (h : SameResults s s') (o : CmdOutcome) :
    SameResults (commit o s) (commit o s') := by
  obtain ⟨hres, hstate, hsched, htables⟩ := h
  cases o with
  | error c => exact ⟨hres, hstate, hsched, htables⟩
  | ok r =>
    refine ⟨?_, ?_, ?_, ?_⟩
    · simp only [commit_ok_res, hres]
    · simp only [commit_ok_stateReg, hstate]
    · simp only [commit_ok_sched, hsched]
    · simp only [commit_ok_tables, htables]

theorem commit_error_congr (o : CmdOutcome) (s s' : State) : (commit o s').error = (commit o s).error := by
  cases o <;> rfl

/-- What is read of the tables without their trace is the same in tables that differ in it only. -/
theorem map_eq_of_untraced {α : Type} {f : FieldTables → α} {x y : Option FieldTables}
    (h : x.map untracedTables = y.map untracedTables) (hf : ∀ t, f (untracedTables t) = f t) : x.map f = y.map f := by
  have hmap : ∀ z : Option FieldTables, z.map f = (z.map untracedTables).map f := fun z => by
    rw [Option.map_map]
    exact congrArg (Option.map · z) (funext fun t => (hf t).symm)
  rw [hmap x, hmap y, h]

/-- Settles O60: in the build without traces both states have the same outcome. -/
theorem traceOptionChangesNoOtherResult : Obligations.TraceOptionChangesNoOtherResult := by
  intro i s s' t t' ht ht' hops hres hstate hsched hready hexec hexec'
  have hout : outcomeOf i (untracedState s') = outcomeOf i (untracedState s) :=
    outcomeOf_congr i _ _ hops ((ensureTables_untraced_of_ok ht').trans (ensureTables_untraced_of_ok ht).symm) rfl
  have hagree : SameResults (untracedState s) (untracedState s') :=
    ⟨hres, hstate, hsched, by rw [untracedState_tables ht', untracedState_tables ht, hready]⟩
  have hcommit := eq_commit_of_exec (exec_untraced ht hexec)
  have hcommit' := eq_commit_of_exec (exec_untraced ht' hexec')
  rw [hout] at hcommit'
  have hsame : SameResults (untracedState t) (untracedState t') := by
    rw [hcommit, hcommit']
    exact hagree.commit _
  obtain ⟨hres, hstate, hsched, htables⟩ := hsame
  refine ⟨hres, hstate, hsched, ?_, map_eq_of_untraced htables fun _ => rfl, ?_, ?_⟩
  · simpa only [untracedState, State.tablesReady, Option.isSome_map] using congrArg Option.isSome htables
  · rw [eq_commit_of_exec hexec, eq_commit_of_exec hexec', commit_done, commit_done]
  · change (untracedState t').error = (untracedState t).error
    rw [hcommit, hcommit']
    exact commit_error_congr ..

end Sys2Proof.Proofs

/-! Reset, faults, and how commands and runs end (70_reset_and_hazards.md): a write while busy and the fault mark (R356,
R360), reset (R350, R351), the completion of every accepted command (R363), good runs (R364), and the outcomes of a
step. -/

namespace Sys2Proof.Proofs

open Sys2Proof.Machine Sys2Proof.Laws

/-! ## Completion by ticks -/

/-- An idle core does nothing at a tick (45_cipher_fsm.md R280). -/
theorem seqTick_of_idle {s : State} (h : s.busy = false) : seqTick s = s := by
  rw [seqTick, (busy_eq_false_iff s).1 h]

/-- At COMMIT the invariant holds the outcome staged (45_cipher_fsm.md R283). -/
theorem seqTick_of_commit {s : State} (hs : s.Wf) (h : s.seq.phase = .commit) : seqTick s = commit s.outcome s := by
  have hstaged := hs.progress
  simp only [State.Progress, h] at hstaged
  simp only [seqTick, h, hstaged]

/-- A tick leaves alone what the one-step completion answers, whatever is still scheduled. -/
theorem completeCommand_seqTick {s : State} (hs : s.Wf) (es : List HostEvent) :
    completeCommand { seqTick s with schedule := es } = completeCommand { s with schedule := es } := by
  cases hb : s.busy with
  | false => rw [seqTick_of_idle hb]
  | true =>
    rw [completeCommand_of_busy { s with schedule := es } hb]
    by_cases hc : s.seq.phase = .commit
    · rw [seqTick_of_commit hs hc, ← commit_with_schedule]
      exact completeCommand_of_idle _ (commit_busy _ _)
    · have hbusy := (seqTick_busy s hc).trans hb
      obtain ⟨q, hq, hstep⟩ := seqTick_seqStep s hc
      have hout : ({ s with seq := q, schedule := es } : State).outcome = s.outcome :=
        seqStep_outcome s q hstep hs.tables
      rw [hq] at hbusy ⊢
      rw [completeCommand_of_busy { s with seq := q, schedule := es } hbusy, hout]
      exact congrArg _ (commit_with_seq s.outcome { s with schedule := es } q)

theorem ticksLeft_pos {s : State} (hs : s.Wf) (hb : s.busy = true) : 0 < ticksLeft s :=
  (Nat.zero_le _).trans_lt (seqTick_ticksLeft s hs hb)

theorem ticksLeft_seqTick_le {s : State} {n : Nat} (hs : s.Wf) (hn : ticksLeft s ≤ n + 1) :
    ticksLeft (seqTick s) ≤ n := by
  cases hb : s.busy with
  | true => exact Nat.le_of_lt_succ ((seqTick_ticksLeft s hs hb).trans_le hn)
  | false =>
    have hidle : ticksLeft s = 0 := by rw [ticksLeft, (busy_eq_false_iff s).1 hb]
    rw [seqTick_of_idle hb, hidle]
    exact Nat.zero_le n

/-- Scheduled ticks, as many as the command in flight still needs or more, end where the one-step completion does. -/
theorem run_ticks_eq_completeCommand {s : State} {n : Nat} {rest : List HostEvent} (hs : s.Wf) (hn : ticksLeft s ≤ n)
    (h : s.schedule = List.replicate n .tick ++ rest) :
    core.run n s = completeCommand { s with schedule := rest } := by
  induction n generalizing s with
  | zero =>
    have hb : s.busy = false := by
      by_contra hb
      exact absurd (ticksLeft_pos hs (by simpa using hb)) hn.not_gt
    rw [completeCommand_of_idle { s with schedule := rest } hb, run_zero]
    cases h
    rfl
  | succ n ih =>
    have hu := wf_with_schedule hs (List.replicate n .tick ++ rest)
    exact (run_succ n s _ (step_of_scheduled h)).trans
      ((ih (seqTick_wf _ hu) (ticksLeft_seqTick_le hu hn) (seqTick_schedule _)).trans (completeCommand_seqTick hu rest))

/-- Settles O10: no command needs more than 70 ticks, and none of them changes what the completion answers. -/
theorem seventyTicksCompleteTheCommand : Obligations.SeventyTicksCompleteTheCommand := by
  intro s rest hs hb h
  have hdone := completeCommand_of_busy { s with schedule := rest } hb
  exact ⟨_, hdone, (run_ticks_eq_completeCommand hs (ticksLeft_le s hs) h).trans hdone, commit_busy _ _,
    commit_done _ _⟩

/-! ## A write while busy -/

theorem hostWrite_of_busy_of_writable {s : State} {a : Addr} (hb : s.busy = true) (hw : (itemAt a).writable = true)
    (v : Word) : hostWrite a v s = { s with faulted := some .hostWriteWhileBusy } := by
  rw [hostWrite, if_pos hb, if_pos hw]

/-- Settles O18: the addresses are those of the RW registers. -/
theorem writeWhileBusyOnlySetsTheFaultMark : Obligations.WriteWhileBusyOnlySetsTheFaultMark := by
  intro s a v hb ha
  exact hostWrite_of_busy_of_writable hb ((itemAt_writable_iff a).2 (by omega)) v

/-! ## The fault mark -/

theorem seqTick_faulted (s : State) : (seqTick s).faulted = s.faulted := by
  by_cases hc : s.seq.phase = .commit
  · simp only [seqTick, hc, commit_faulted]
  · obtain ⟨q, hq, -⟩ := seqTick_seqStep s hc
    rw [hq]

theorem completeCommand_faulted {s t : State} (h : completeCommand s = .next t) : t.faulted = s.faulted := by
  rcases completeCommand_cases s t h with ⟨-, rfl⟩ | ⟨-, rfl⟩
  · exact commit_faulted _ s
  · rfl

/-- A write leaves the mark, or sets it: to an RW register while busy (70_reset_and_hazards.md R356, R360). -/
theorem hostWrite_faulted_cases (a : Addr) (v : Word) (s : State) :
    (hostWrite a v s).faulted = s.faulted ∨
      (s.busy = true ∧ (itemAt a).writable = true ∧ (hostWrite a v s).faulted = some .hostWriteWhileBusy) := by
  cases hb : s.busy with
  | false => exact .inl (by rw [hostWrite_of_idle hb, writeItem_faulted])
  | true =>
    cases hw : (itemAt a).writable with
    | false => exact .inl (by rw [hostWrite_of_not_writable hw])
    | true => exact .inr ⟨rfl, rfl, by rw [hostWrite_of_busy_of_writable hb hw]⟩

/-- A step leaves the mark, or sets it by a scheduled write to an RW register while busy. -/
theorem step_faulted_cases {s t : State} (h : step s = .next t) :
    t.faulted = s.faulted ∨
      (s.busy = true ∧ t.faulted = some .hostWriteWhileBusy ∧
        ∃ a v rest, s.schedule = .write a v :: rest ∧ (itemAt a).writable = true) := by
  rcases step_next_cases s t h with ⟨-, hc⟩ | ⟨rest, -, hc⟩ | ⟨a, rest, -, rfl⟩ | ⟨a, v, rest, hs, rfl⟩ |
    ⟨rest, -, rfl⟩ | ⟨rest, -, rfl⟩
  · exact .inl (completeCommand_faulted hc)
  · exact .inl (completeCommand_faulted (s := { s with schedule := rest }) hc)
  · exact .inl rfl
  · rcases hostWrite_faulted_cases a v { s with schedule := rest } with hw | ⟨hb, hw, hf⟩
    · exact .inl hw
    · exact .inr ⟨hb, hf, a, v, rest, hs, hw⟩
  · exact .inl rfl
  · exact .inl (seqTick_faulted _)

theorem step_keeps_faulted {s t : State} (h : step s = .next t) (hs : s.faulted ≠ none) : t.faulted ≠ none := by
  rcases step_faulted_cases h with hf | ⟨-, hf, -⟩
  · rwa [hf]
  · rw [hf]
    exact Option.some_ne_none _

/-- A run that answers a next state answered one at its first step. -/
theorem run_succ_next {n : Nat} {s t : State} (h : core.run (n + 1) s = .next t) :
    ∃ u, step s = .next u ∧ core.run n u = .next t := by
  cases hs : step s with
  | next u => exact ⟨u, rfl, (run_succ n s u hs).symm.trans h⟩
  | fault f => simp [Host.Core.run, core, hs] at h
  | refused r => simp [Host.Core.run, core, hs] at h

/-- A run goes on from the state that a part of it answers. -/
theorem run_add {m : Nat} {s u : State} (n : Nat) (h : core.run m s = .next u) :
    core.run (m + n) s = core.run n u := by
  induction m generalizing s with
  | zero =>
    cases h
    rw [Nat.zero_add]
  | succ m ih =>
    obtain ⟨v, hv, hrun⟩ := run_succ_next h
    rw [Nat.succ_add, run_succ _ s v hv, ih hrun]

theorem run_keeps_faulted {n : Nat} {s t : State} (h : core.run n s = .next t) (hs : s.faulted ≠ none) :
    t.faulted ≠ none := by
  induction n generalizing s with
  | zero =>
    cases h
    exact hs
  | succ n ih =>
    obtain ⟨u, hu, hrun⟩ := run_succ_next h
    exact ih hrun (step_keeps_faulted hu hs)

/-- The mark of a state on the way is still there at the end (70_reset_and_hazards.md R360). -/
theorem not_goodRun_of_faulted {e : Bool} {l : List HostEvent} {k : Nat} {s : State} (hk : k ≤ throughLastAccess l)
    (hrun : core.run k (State.start e l) = .next s) (hs : s.faulted ≠ none) : ¬ GoodRun e l := by
  rintro ⟨t, hend, -, -, ht⟩
  obtain ⟨m, hm⟩ := Nat.exists_eq_add_of_le hk
  rw [runEnd, hm, run_add m hrun] at hend
  exact run_keeps_faulted hend hs ht

/-- Settles O19: only a write while busy changes the mark, and no access is left at the end of a run. -/
theorem faultMarkIsSticky : Obligations.FaultMarkIsSticky := by
  refine ⟨fun s t h => ⟨step_keeps_faulted h, fun hs ht => ?_⟩, fun e l k s => not_goodRun_of_faulted,
    fun e l => ⟨?_, ?_⟩, fun l => ⟨not_access_after_last l, last_is_access l⟩⟩
  · rcases step_faulted_cases h with hf | ⟨hb, -, hw⟩
    · exact absurd (hf.trans hs) ht
    · exact ⟨hb, hw⟩
  · rintro ⟨s, hend, -, hb, hf⟩
    exact ⟨s, hend, hb, hf⟩
  · rintro ⟨s, hend, hb, hf⟩
    exact ⟨s, hend, runEnd_accessesOver e l s hend, hb, hf⟩

/-! ## The reset values -/

/-- After reset `STATUS` is only its hardwired bit (10_state.md R51). -/
theorem statusWord_resetEvent (s : State) : statusWord (resetEvent s) = if s.traceEn then 0x80000000 else 0 := by
  change statusWord (State.start s.traceEn []) = _
  cases s.traceEn <;> decide

theorem traceInfoWord_resetEvent (s : State) : traceInfoWord (resetEvent s) = 0 := by
  change traceInfoWord (State.start s.traceEn []) = _
  cases s.traceEn <;> decide

theorem traceWindow_zero (s : State) : traceWindow s 0 = 0 := ite_self 0

/-- After reset every register but three, and every window word, is 0 (10_state.md R51). -/
theorem itemValue_resetEvent (s : State) {x : Item} (hstatus : x ≠ .status) (hkeylen : x ≠ .keylen)
    (hblklen : x ≠ .blklen) : itemValue (resetEvent s) x = 0 := by
  cases x with
  | status => exact absurd rfl hstatus
  | keylen => exact absurd rfl hkeylen
  | blklen => exact absurd rfl hblklen
  | traceInfo => exact traceInfoWord_resetEvent s
  | key j | stateCol j => exact Vector.getElem_replicate j.isLt
  | rrot r k | ct e k | kt e k | sbt e k => exact traceWindow_zero _
  | _ => rfl

/-- An RW register stands at its address only (20_memory.md R81). -/
theorem itemAt_eq_iff_of_writable {a b : Addr} (hb : (itemAt b).writable = true) : itemAt a = itemAt b ↔ a = b :=
  ⟨itemAt_inj_of_writable b a hb, congrArg itemAt⟩

theorem byteOffset_eq_iff {a b : Addr} : 4 * a.toNat = 4 * b.toNat ↔ a = b := by
  rw [Nat.mul_right_inj four_ne_zero, BitVec.toNat_inj]

theorem memRead_resetEvent (s : State) (a : Addr) :
    memRead (resetEvent s) a =
      if 4 * a.toNat = 0x0004 then (if s.traceEn then 0x80000000 else 0)
      else if 4 * a.toNat = 0x0008 ∨ 4 * a.toNat = 0x000C then 0x00000010
      else 0 := by
  have hstatus : 4 * a.toNat = 0x0004 ↔ itemAt a = .status :=
    (byteOffset_eq_iff (b := statusAddr)).trans (itemAt_eq_status_iff a).symm
  have hkeylen : 4 * a.toNat = 0x0008 ↔ itemAt a = .keylen :=
    (byteOffset_eq_iff (b := keylenAddr)).trans (itemAt_eq_iff_of_writable rfl).symm
  have hblklen : 4 * a.toNat = 0x000C ↔ itemAt a = .blklen :=
    (byteOffset_eq_iff (b := 0x000C / 4)).trans (itemAt_eq_iff_of_writable rfl).symm
  simp only [hstatus, hkeylen, hblklen, memRead]
  by_cases hs : itemAt a = .status
  · rw [if_pos hs, hs]
    exact statusWord_resetEvent s
  by_cases hn : itemAt a = .keylen ∨ itemAt a = .blklen
  · rw [if_neg hs, if_pos hn]
    rcases hn with h | h <;> rw [h] <;> rfl
  · rw [if_neg hs, if_neg hn]
    exact itemValue_resetEvent s hs (mt .inl hn) (mt .inr hn)

/-- Settles O21: three items have a reset value that is not 0, and a scheduled reset is the event. -/
theorem resetGivesTheResetValues : Obligations.ResetGivesTheResetValues :=
  ⟨fun s => ⟨rfl, rfl, rfl, memRead_resetEvent s⟩, fun _ _ h => ⟨step_of_scheduled h, rfl⟩⟩

/-! ## The outcomes of a step -/

theorem exists_completeCommand_eq_next (s : State) : ∃ t, completeCommand s = .next t := by
  cases hb : s.busy with
  | true => exact ⟨_, completeCommand_of_busy s hb⟩
  | false => exact ⟨_, completeCommand_of_idle s hb⟩

/-- Settles O25: of the events only a read and write in one cycle is refused, and a completion always answers a state. -/
theorem noStepFaults : Obligations.NoStepFaults := by
  intro s
  cases hs : s.schedule with
  | nil =>
    rw [step_of_nothing_scheduled hs]
    exact .inl (exists_completeCommand_eq_next s)
  | cons e rest =>
    rw [step_of_scheduled hs]
    cases e with
    | read | write | reset | tick => exact .inl ⟨_, rfl⟩
    | readWrite a v => exact .inr ⟨rfl, a, v, rest, rfl⟩
    | complete => exact .inl (exists_completeCommand_eq_next _)

end Sys2Proof.Proofs
